-- ==== Sys2Proof/Word.lean ====
section
/-! DEFINITION. The word types of the ports and the plainest arithmetic of the spec's notation
(00_scope.md R10, R12). -/

namespace Sys2Proof

/-- A port word: command words, RXB payload samples, result values (20_memory.md R82). -/
abbrev Word := BitVec 32

/-- A byte of console text, of the host's text queue, or of the byte transport (R45, R82). -/
abbrev Byte := BitVec 8

/-- An IEEE 754 binary64 bit pattern (00_scope.md R15). -/
abbrev F64 := BitVec 64

/-- `s32(w)` of R12: the integer whose two's-complement encoding is `w`. -/
abbrev s32 (w : Word) : Int := w.toInt

end Sys2Proof
end

