-- ==== Sys2Proof/Syntax.lean ====
section
/-! DEFINITION. The commands, one constructor per row of spec/opcode_table.json (30_encoding.md
R105), with the operands of R107. -/

namespace Sys2Proof

/-- A command with its operands. -/
inductive Instr where
  /-- INIT, `cw_init()` (46_control.md R321). -/
  | init
  /-- POLL, `cw_poll(bytes_available, tx_is_on)` (R322). -/
  | poll (txIsOn : Bool) (bytesAvailable : BitVec 16)
  /-- TXS, `cw_tx_get_sample()` (45_tx_sample.md R290). -/
  | txs
  /-- RXB, `cw_rx(samples, count)`: `count` payload words follow (41_rx_detector.md R160, R101). -/
  | rxb (count : BitVec 16) (samples : List Word)
  /-- ABORT, `cw_abort()` (R328). -/
  | abort
  /-- WCFG WPM (R326). -/
  | wcfgWpm (value : BitVec 16)
  /-- WCFG PITCH (R326). -/
  | wcfgPitch (value : BitVec 16)
  /-- WCFG CW_DELAY (R326). -/
  | wcfgCwDelay (value : BitVec 16)
  /-- WCFG MODE (R326). -/
  | wcfgMode (value : BitVec 16)
  /-- RDSTAT (R327). -/
  | rdstat (index : BitVec 8)
  deriving DecidableEq, Repr

end Sys2Proof
end

