-- ==== Sys2Proof/WellFormed.lean ====
section
/-! DEFINITION. Which commands a host can issue: the operand widths are in the types, and an RXB
carries exactly `count` payload words (30_encoding.md R101, 60_exceptions.md R375 (3)). -/

namespace Sys2Proof

/-- An RXB payload has `count` words; every other command is well formed. -/
def Instr.wf : Instr → Bool
  | .init => true
  | .poll _ _ => true
  | .txs => true
  | .rxb count samples => samples.length == count.toNat
  | .abort => true
  | .wcfgWpm _ => true
  | .wcfgPitch _ => true
  | .wcfgCwDelay _ => true
  | .wcfgMode _ => true
  | .rdstat _ => true

end Sys2Proof
end

