-- ==== Sys2Proof/Decode.lean ====
section
/-! DEFINITION. The decoder of 30_encoding.md R110, total on any words of the command port, the
encoder of R105/R111, and the byte transport of 20_memory.md R82. -/

namespace Sys2Proof

/-- `OP`, bits 31:28 (R100). -/
def opField (w : Word) : BitVec 4 := w.extractLsb' 28 4

/-- `SEL`, bits 27:24. -/
def selField (w : Word) : BitVec 4 := w.extractLsb' 24 4

/-- `RSV`, bits 23:17. -/
def rsvField (w : Word) : BitVec 7 := w.extractLsb' 17 7

/-- `F`, bit 16. -/
def flagField (w : Word) : Bool := w.getLsbD 16

/-- `IMM`, bits 15:0. -/
def immField (w : Word) : BitVec 16 := w.extractLsb' 0 16

/-- Why a word is an illegal encoding: the clauses of R106 in the order R110 tests them. Every one is
answered with `ERR_ILLEGAL`. -/
inductive Illegal where
  /-- `OP ∈ {0x0, 0x8..0xF}`. -/
  | opcode
  /-- `RSV ≠ 0`. -/
  | reserved
  /-- `SEL ≠ 0` and `OP ≠ 0x6`. -/
  | select
  /-- `SEL ≥ 4` and `OP = 0x6`. -/
  | configSelect
  /-- `F ≠ 0` and `OP ≠ 0x2`. -/
  | flag
  /-- `IMM ≠ 0` and `OP ∈ {0x1, 0x3, 0x5}`. -/
  | immediate
  /-- `IMM[15:8] ≠ 0` and `OP = 0x7`. -/
  | statusIndex
  deriving DecidableEq, Repr

/-- The first clause of R110 that makes the word illegal, if one does. -/
def illegalEncoding (w : Word) : Option Illegal :=
  let op := opField w
  if op = 0 ∨ 8 ≤ op then some .opcode
  else if rsvField w ≠ 0 then some .reserved
  else if op ≠ 6 ∧ selField w ≠ 0 then some .select
  else if op = 6 ∧ 4 ≤ selField w then some .configSelect
  else if op ≠ 2 ∧ flagField w then some .flag
  else if (op = 1 ∨ op = 3 ∨ op = 5) ∧ immField w ≠ 0 then some .immediate
  else if op = 7 ∧ (immField w).extractLsb' 8 8 ≠ 0 then some .statusIndex
  else none

/-- How many payload words follow the command word, from `OP` alone (R101); an illegal RXB word has
its payload too (R106). -/
def payloadLength (w : Word) : Nat := if opField w = 4 then (immField w).toNat else 0

/-- The command a legal word stands for (the case table of R110); a word of no listed operation is
rejected by name. -/
def commandOf (w : Word) (payload : List Word) : Except Illegal Instr :=
  let imm := immField w
  match (opField w).toNat with
  | 1 => .ok .init
  | 2 => .ok (.poll (flagField w) imm)
  | 3 => .ok .txs
  | 4 => .ok (.rxb imm payload)
  | 5 => .ok .abort
  | 6 =>
    match (selField w).toNat with
    | 0 => .ok (.wcfgWpm imm)
    | 1 => .ok (.wcfgPitch imm)
    | 2 => .ok (.wcfgCwDelay imm)
    | 3 => .ok (.wcfgMode imm)
    | _ => .error .configSelect
  | 7 => .ok (.rdstat (imm.extractLsb' 0 8))
  | _ => .error .opcode

/-- `decode(w)` of R110 with the payload words. -/
def decodeCommand (w : Word) (payload : List Word) : Except Illegal Instr :=
  match illegalEncoding w with
  | some why => .error why
  | none => commandOf w payload

/-- The first `n` words after those already taken (kept newest first), if so many are there. -/
def takeWords : Nat → List Word → List Word → Option (List Word)
  | 0, taken, _ => some taken.reverse
  | _ + 1, _, [] => none
  | n + 1, taken, w :: ws => takeWords n (w :: taken) ws

/-- What the words at the head of the command port say. -/
inductive Decoded where
  /-- A command, and how many words it takes. -/
  | command (i : Instr) (used : Nat)
  /-- An illegal word, and how many words are consumed with it. -/
  | illegal (why : Illegal) (used : Nat)
  /-- The port does not hold a whole command: the host has not issued it yet (R101, R375). -/
  | incomplete
  deriving DecidableEq, Repr

/-- Decode the head of a stream of port words: total on every list. -/
def decode : List Word → Decoded
  | [] => .incomplete
  | w :: ws =>
    match takeWords (payloadLength w) [] ws with
    | none => .incomplete
    | some payload =>
      match decodeCommand w payload with
      | .ok i => .command i (1 + payloadLength w)
      | .error why => .illegal why (1 + payloadLength w)

/-- A command word from its fields (R100). -/
def commandWord (op sel : BitVec 4) (f : Bool) (imm : BitVec 16) : Word :=
  op ++ sel ++ 0#7 ++ BitVec.ofBool f ++ imm

/-- The words of a command (R105, R111). -/
def encode : Instr → List Word
  | .init => [commandWord 1 0 false 0]
  | .poll txIsOn bytes => [commandWord 2 0 txIsOn bytes]
  | .txs => [commandWord 3 0 false 0]
  | .rxb count samples => commandWord 4 0 false count :: samples
  | .abort => [commandWord 5 0 false 0]
  | .wcfgWpm v => [commandWord 6 0 false v]
  | .wcfgPitch v => [commandWord 6 1 false v]
  | .wcfgCwDelay v => [commandWord 6 2 false v]
  | .wcfgMode v => [commandWord 6 3 false v]
  | .rdstat index => [commandWord 7 0 false (index.setWidth 16)]

/-- A word over a byte transport: least significant byte first (20_memory.md R82). -/
def bytesOfWord (w : Word) : List Byte :=
  [w.extractLsb' 0 8, w.extractLsb' 8 8, w.extractLsb' 16 8, w.extractLsb' 24 8]

/-- Port words over a byte transport (R82). -/
def bytesOfWords : List Word → List Byte
  | [] => []
  | w :: ws => bytesOfWord w ++ bytesOfWords ws

/-- Port words from a byte transport; a last group of fewer than four bytes is no word yet (R82). -/
def wordsOfBytes : List Byte → List Word
  | b0 :: b1 :: b2 :: b3 :: rest => (b3 ++ b2 ++ b1 ++ b0) :: wordsOfBytes rest
  | _ => []

/-- The decoder behind a byte transport: total on any bytes. -/
def decodeBytes (bs : List Byte) : Decoded := decode (wordsOfBytes bs)

/-- Word `j` of a multi-word number, the first word in its least significant bits. -/
def wordAt (w j : Nat) : Word := BitVec.ofNat 32 (w >>> (32 * j))

/-- The words of an instruction given as one number of `nbits` bits, then the zero words it has above
them: exactly as many words as its first word says it has (R101). -/
def tableWords (nbits w : Nat) : List Word :=
  let first := wordAt w 0
  let given := (List.range ((nbits + 31) / 32 - 1)).map (fun j => wordAt w (j + 1))
  let len := payloadLength first
  first :: (given.take len ++ List.replicate (len - given.length) 0)

/-- The instruction the decoder reads from an opcode-table word. -/
def decodeTableWord (nbits w : Nat) : Option Instr :=
  match decode (tableWords nbits w) with
  | .command i _ => some i
  | .illegal _ _ => none
  | .incomplete => none

end Sys2Proof
end

