-- ==== Sys2Proof/Config.lean ====
section
/-! DEFINITION. The configuration record every rule takes as an argument (00_scope.md R7), with its
constraint column, and the types its tables and numerics speak of. -/

namespace Sys2Proof

/-- A symbol of a `TxRom` code string: `.`, `-` or the separator space (40_morse_tables.md R141). -/
inductive TxElem where
  | dot | dash | sep
  deriving DecidableEq, Repr

/-- A symbol of a received pattern, a string over `.` and `-` (R140, R220). -/
inductive Mark where
  | dot | dash
  deriving DecidableEq, Repr

/-- One entry of the bin file (10_state.md R38). `freq` is a signed integer for which the spec gives
no width (log entry 8); the others are binary64 values. -/
structure Bin where
  freq : Int
  cos : F64
  sin : F64
  coeff : F64
  deriving DecidableEq, Repr

/-- The real-valued configuration functions (00_scope.md R15, R170, R298) and the two library
functions that BIN_INIT names (R165). -/
structure Numerics where
  /-- `cos64`, binary64 cosine. -/
  cos64 : F64 → F64
  /-- `sin64`, binary64 sine. -/
  sin64 : F64 → F64
  /-- `GOERTZEL(BIN[i], d)`: depends on the bin's registers and the decimated samples only (R170). -/
  goertzel : Bin → List Int → Nat
  /-- `SIN(φ)`, the oscillator's `read()` at phase `φ` (R298). -/
  sin : BitVec 32 → F64
  /-- `ENV(r)`, the envelope amplitude at ramp position `r` (R295). -/
  env : Nat → F64
  /-- `F32`, the one rounding to binary32 of the output (R298). -/
  f32 : F64 → Word

/-- The configuration record of R7. `FS_D`, `L_MAX` and `KB_CAP` are derived; `NF_MIN` and the bin
count and offsets are fixed by the table and stand where they are used. -/
structure Config where
  fsIn : Nat
  decim : Nat
  n : Nat
  binKRounding : Bool
  lpfTaps : List Int
  lpfQ : Nat
  hlDecay : Nat
  nfDecay : Nat
  streakMax : Nat
  symCap : Nat
  fsTx : Nat
  envRamp : Nat
  txTable : List (Byte × List TxElem)
  rxTable : List (List Mark × List Byte)
  numerics : Numerics

/-- `FS_D = FS_IN / DECIM` (R7). -/
def Config.fsD (C : Config) : Nat := C.fsIn / C.decim

/-- `L_MAX`, the longest code string of `TX_TABLE` (R7). -/
def Config.lMax (C : Config) : Nat := (C.txTable.map (·.2.length)).foldl max 0

/-- `KB_CAP = 2·L_MAX + 1` (R7, R253). -/
def Config.kbCap (C : Config) : Nat := 2 * C.lMax + 1

/-- Input samples per tick, `DECIM·N` (R16, R160). -/
def Config.tickSamples (C : Config) : Nat := C.decim * C.n

/-- A code string of R141: not empty, no separator at either end. -/
def txCodeOk (code : List TxElem) : Bool :=
  code ≠ [] && code.head? ≠ some .sep && code.getLast? ≠ some .sep

/-- No key of the list stands twice. -/
def distinctKeys {α β : Type} [DecidableEq α] : List (α × β) → Bool
  | [] => true
  | (k, _) :: rest => !(rest.any (fun r => r.1 == k)) && distinctKeys rest

/-- The constraints on the two tables (40_morse_tables.md R141). -/
def Config.tablesOk (C : Config) : Bool :=
  C.txTable.all (fun r => txCodeOk r.2 && r.1 != 0x20#8) && distinctKeys C.txTable &&
  C.rxTable.all (fun r => r.1 ≠ [] && r.2 ≠ []) && distinctKeys C.rxTable && 1 ≤ C.lMax

/-- The constraint column of R7, the two constraints of 10_state.md R32, and the two bounds that the
widths of `STREAK` (R39) and `ENV_R` (R44) put on their parameters (log entry 3). -/
def Config.ok (C : Config) : Bool :=
  1 ≤ C.decim && C.fsIn % C.decim == 0 && 1 ≤ C.fsD &&
  2 ≤ C.n && C.n % 2 == 0 && C.lpfTaps ≠ [] &&
  1 ≤ C.hlDecay && 1 ≤ C.nfDecay &&
  2 ≤ C.streakMax && C.streakMax < 2 ^ 16 && 2 ≤ C.symCap &&
  1 ≤ C.fsTx && 1 ≤ C.envRamp && C.envRamp < 2 ^ 16 &&
  18 * C.fsD < 2 ^ 29 * 5 * C.n && C.fsTx < 2 ^ 28 && C.tablesOk

end Sys2Proof
end

