-- ==== Sys2Proof/Machine/Morse.lean ====
section
/-! DEFINITION. The two Morse ROMs: the reference tables (40_morse_tables.md R142, R143) and their
lookups (R140). -/

namespace Sys2Proof.Machine

/-- The 26 letters of R142 (`A` is byte 0x41). -/
def txLetters : List (Byte × List TxElem) :=
  [
   (0x41#8, [.dot, .dash]),
   (0x42#8, [.dash, .dot, .dot, .dot]),
   (0x43#8, [.dash, .dot, .dash, .dot]),
   (0x44#8, [.dash, .dot, .dot]),
   (0x45#8, [.dot]),
   (0x46#8, [.dot, .dot, .dash, .dot]),
   (0x47#8, [.dash, .dash, .dot]),
   (0x48#8, [.dot, .dot, .dot, .dot]),
   (0x49#8, [.dot, .dot]),
   (0x4A#8, [.dot, .dash, .dash, .dash]),
   (0x4B#8, [.dash, .dot, .dash]),
   (0x4C#8, [.dot, .dash, .dot, .dot]),
   (0x4D#8, [.dash, .dash]),
   (0x4E#8, [.dash, .dot]),
   (0x4F#8, [.dash, .dash, .dash]),
   (0x50#8, [.dot, .dash, .dash, .dot]),
   (0x51#8, [.dash, .dash, .dot, .dash]),
   (0x52#8, [.dot, .dash, .dot]),
   (0x53#8, [.dot, .dot, .dot]),
   (0x54#8, [.dash]),
   (0x55#8, [.dot, .dot, .dash]),
   (0x56#8, [.dot, .dot, .dot, .dash]),
   (0x57#8, [.dot, .dash, .dash]),
   (0x58#8, [.dash, .dot, .dot, .dash]),
   (0x59#8, [.dash, .dot, .dash, .dash]),
   (0x5A#8, [.dash, .dash, .dot, .dot])
  ]

/-- The 10 digits of R142. -/
def txDigits : List (Byte × List TxElem) :=
  [
   (0x30#8, [.dash, .dash, .dash, .dash, .dash]),
   (0x31#8, [.dot, .dash, .dash, .dash, .dash]),
   (0x32#8, [.dot, .dot, .dash, .dash, .dash]),
   (0x33#8, [.dot, .dot, .dot, .dash, .dash]),
   (0x34#8, [.dot, .dot, .dot, .dot, .dash]),
   (0x35#8, [.dot, .dot, .dot, .dot, .dot]),
   (0x36#8, [.dash, .dot, .dot, .dot, .dot]),
   (0x37#8, [.dash, .dash, .dot, .dot, .dot]),
   (0x38#8, [.dash, .dash, .dash, .dot, .dot]),
   (0x39#8, [.dash, .dash, .dash, .dash, .dot])
  ]

/-- The 13 punctuation marks of R142. -/
def txPunctuation : List (Byte × List TxElem) :=
  [
   (0x2E#8, [.dot, .dash, .dot, .dash, .dot, .dash]),
   (0x2C#8, [.dash, .dash, .dot, .dot, .dash, .dash]),
   (0x3F#8, [.dot, .dot, .dash, .dash, .dot, .dot]),
   (0x27#8, [.dot, .dash, .dash, .dash, .dash, .dot]),
   (0x2F#8, [.dash, .dot, .dot, .dash, .dot]),
   (0x28#8, [.dash, .dot, .dash, .dash, .dot]),
   (0x29#8, [.dash, .dot, .dash, .dash, .dot, .dash]),
   (0x3A#8, [.dash, .dash, .dash, .dot, .dot, .dot]),
   (0x3D#8, [.dash, .dot, .dot, .dot, .dash]),
   (0x2B#8, [.dot, .dash, .dot, .dash, .dot]),
   (0x2D#8, [.dash, .dot, .dot, .dot, .dot, .dash]),
   (0x22#8, [.dot, .dash, .dot, .dot, .dash, .dot]),
   (0x40#8, [.dot, .dash, .dash, .dot, .dash, .dot])
  ]

/-- The reference `TX_TABLE`, 49 entries (R142). Lower case is folded before the lookup (R254). -/
def referenceTxTable : List (Byte × List TxElem) := txLetters ++ txDigits ++ txPunctuation

/-- A TX element as a received mark; the separator is no mark. -/
def markOfElem : TxElem → Option Mark
  | .dot => some .dot
  | .dash => some .dash
  | .sep => none

/-- The two idioms the source names (R143 (b)): `UR` and `5NN`. -/
def rxIdioms : List (List Mark × List Byte) :=
  [
   ([.dot, .dot, .dash, .dot, .dash, .dot], [0x55#8, 0x52#8]),
   ([.dot, .dot, .dot, .dot, .dot, .dash, .dot, .dash, .dot], [0x35#8, 0x4E#8, 0x4E#8])
  ]

/-- The five procedural signals (R143 (c)): `<SK>`, `<KA>`, `<SN>`, `<AS>`, `<HH>`. -/
def rxSignals : List (List Mark × List Byte) :=
  [
   ([.dot, .dot, .dot, .dash, .dot, .dash], [0x3C#8, 0x53#8, 0x4B#8, 0x3E#8]),
   ([.dash, .dot, .dash, .dot, .dash], [0x3C#8, 0x4B#8, 0x41#8, 0x3E#8]),
   ([.dot, .dot, .dot, .dash, .dot], [0x3C#8, 0x53#8, 0x4E#8, 0x3E#8]),
   ([.dot, .dash, .dot, .dot, .dot], [0x3C#8, 0x41#8, 0x53#8, 0x3E#8]),
   ([.dot, .dot, .dot, .dot, .dot, .dot, .dot, .dot], [0x3C#8, 0x48#8, 0x48#8, 0x3E#8])
  ]

/-- The reference `RX_TABLE`, 56 entries: the inverse of the TX entries (R143 (a)), the idioms and the
procedural signals. -/
def referenceRxTable : List (List Mark × List Byte) :=
  referenceTxTable.map (fun r => (r.2.filterMap markOfElem, [r.1])) ++ rxIdioms ++ rxSignals

/-- The first entry stored under a key; keys are distinct (R141), so the order is immaterial. -/
def tableLookup {α β : Type} [DecidableEq α] (key : α) : List (α × β) → Option β
  | [] => none
  | (k, v) :: rest => if k = key then some v else tableLookup key rest

/-- `TxRom(c)` (R140). -/
def txRom (C : Config) (c : Byte) : Option (List TxElem) := tableLookup c C.txTable

/-- `RxRom(s)`: exact-string match (R140, R141). -/
def rxRom (C : Config) (s : List Mark) : Option (List Byte) := tableLookup s C.rxTable

/-- A pattern as text, `.` (0x2E) and `-` (0x2D), the raw output of R222. -/
def patternText (s : List Mark) : List Byte :=
  s.map (fun m => match m with | .dot => 0x2E#8 | .dash => 0x2D#8)

end Sys2Proof.Machine
end

