-- ==== Sys2Proof/Machine/Float.lean ====
section
/-! DEFINITION. IEEE 754 binary64 arithmetic with round-to-nearest-even on bit patterns, as the
reference algorithms use it (00_scope.md R15): each operation computes the exact result and rounds
once. NaN and infinity never arise under the rules (R15); the operations are total on them in the IEEE way, with one quiet NaN pattern (log entry 5). -/

namespace Sys2Proof.Machine

/-- The exact meaning of a pattern: a finite value is `(-1)^neg · mant · 2^exp`. -/
inductive FVal where
  | nan
  | inf (neg : Bool)
  | fin (neg : Bool) (mant : Nat) (exp : Int)
  deriving DecidableEq, Repr

/-- A binary interchange format: significand precision (hidden bit included) and exponent bits. -/
structure FFormat where
  prec : Nat
  expBits : Nat
  deriving DecidableEq, Repr

/-- binary64. -/
def binary64 : FFormat := ⟨53, 11⟩

/-- binary32. -/
def binary32 : FFormat := ⟨24, 8⟩

/-- The exponent of the least significant bit of a subnormal. -/
def ffMinExp (f : FFormat) : Int := 3 - (2 ^ (f.expBits - 1) : Nat) - (f.prec : Int)

/-- The magnitude pattern of infinity, all exponent bits set. -/
def ffInf (f : FFormat) : Nat := (2 ^ f.expBits - 1) * 2 ^ (f.prec - 1)

/-- The sign bit's weight. -/
def ffSign (f : FFormat) (neg : Bool) : Nat := if neg then 2 ^ (f.prec - 1 + f.expBits) else 0

/-- The one quiet NaN the operations produce. -/
def ffNaN (f : FFormat) : Nat := ffInf f + 2 ^ (f.prec - 2)

/-- Bit length of a natural number. -/
def bitLength (n : Nat) : Nat := if n = 0 then 0 else n.log2 + 1

/-- Round `mant` units of `2^sh` to the nearest, ties to even; `sticky` says that the exact value
lies strictly above `mant` by less than one of its units. -/
def roundShift (mant sh : Nat) (sticky : Bool) : Nat :=
  let q : Nat := mant >>> sh
  let rem : Nat := mant % 2 ^ sh
  let half : Nat := 2 ^ (sh - 1)
  if sh = 0 then q
  else if rem > half ∨ (rem = half ∧ (sticky ∨ q % 2 = 1)) then q + 1 else q

/-- The pattern of `(-1)^neg · mant · 2^exp` rounded once to the format (nearest, ties to even;
overflow goes to infinity, small results to subnormals). -/
def ffRound (f : FFormat) (neg : Bool) (mant : Nat) (exp : Int) (sticky : Bool) : Nat :=
  let lsb := max (exp + bitLength mant - f.prec) (ffMinExp f)
  let m : Nat := if lsb ≤ exp then mant <<< (exp - lsb).toNat else roundShift mant (lsb - exp).toNat sticky
  let mag : Nat := (lsb - ffMinExp f).toNat * 2 ^ (f.prec - 1) + m
  ffSign f neg + (if m = 0 then 0 else min mag (ffInf f))

/-- The value of a binary64 pattern. -/
def f64Val (x : F64) : FVal :=
  let neg := x.getLsbD 63
  let e : Nat := x.toNat / 2 ^ 52 % 2 ^ 11
  let frac : Nat := x.toNat % 2 ^ 52
  if e = 2047 then (if frac = 0 then .inf neg else .nan)
  else if e = 0 then .fin neg frac (-1074)
  else .fin neg (frac + 2 ^ 52) ((e : Int) - 1075)

/-- The quiet NaN of binary64. -/
def f64NaN : F64 := BitVec.ofNat 64 (ffNaN binary64)

/-- Infinity of binary64. -/
def f64Inf (neg : Bool) : F64 := BitVec.ofNat 64 (ffSign binary64 neg + ffInf binary64)

/-- Rounding to binary64. -/
def f64Round (neg : Bool) (mant : Nat) (exp : Int) (sticky : Bool) : F64 :=
  BitVec.ofNat 64 (ffRound binary64 neg mant exp sticky)

/-- The sign flip. -/
def f64Neg (x : F64) : F64 := x ^^^ (0x8000000000000000#64)

/-- The signed significand of a finite operand, in units of `2^lsb` (`lsb ≤ exp`). -/
def signedMant (neg : Bool) (mant : Nat) (exp lsb : Int) : Int :=
  let m : Int := (mant <<< (exp - lsb).toNat : Nat)
  if neg then -m else m

/-- `a ⊕ b`. An exact zero sum is `+0.0` unless both operands are negative zeros. -/
def f64Add (a b : F64) : F64 :=
  match f64Val a, f64Val b with
  | .nan, _ => f64NaN
  | _, .nan => f64NaN
  | .inf s, .inf t => if s = t then f64Inf s else f64NaN
  | .inf s, .fin _ _ _ => f64Inf s
  | .fin _ _ _, .inf t => f64Inf t
  | .fin s m e, .fin t n g =>
    let lsb := min e g
    let sum := signedMant s m e lsb + signedMant t n g lsb
    if sum = 0 then f64Round (s && t) 0 0 false else f64Round (sum < 0) sum.natAbs lsb false

/-- `a ⊖ b`. -/
def f64Sub (a b : F64) : F64 := f64Add a (f64Neg b)

/-- `a ⊗ b`. -/
def f64Mul (a b : F64) : F64 :=
  match f64Val a, f64Val b with
  | .nan, _ => f64NaN
  | _, .nan => f64NaN
  | .inf s, .inf t => f64Inf (s != t)
  | .inf s, .fin t n _ => if n = 0 then f64NaN else f64Inf (s != t)
  | .fin s m _, .inf t => if m = 0 then f64NaN else f64Inf (s != t)
  | .fin s m e, .fin t n g => f64Round (s != t) (m * n) (e + g) false

/-- Extra quotient and root bits, enough for a correct rounding of any two binary64 operands. -/
def guardBits : Nat := 128

/-- `a ⊘ b`. -/
def f64Div (a b : F64) : F64 :=
  match f64Val a, f64Val b with
  | .nan, _ => f64NaN
  | _, .nan => f64NaN
  | .inf _, .inf _ => f64NaN
  | .inf s, .fin t _ _ => f64Inf (s != t)
  | .fin s _ _, .inf t => f64Round (s != t) 0 0 false
  | .fin s m e, .fin t n g =>
    if n = 0 then (if m = 0 then f64NaN else f64Inf (s != t))
    else
      let num := m <<< guardBits
      f64Round (s != t) (num / n) (e - g - guardBits) (num % n != 0)

/-- The integer square root, bit by bit from weight `2^(k-1)` down; `r` is the root so far. -/
def isqrtFrom (m : Nat) : Nat → Nat → Nat
  | 0, r => r
  | k + 1, r =>
    let r' := r + 2 ^ k
    isqrtFrom m k (if r' * r' ≤ m then r' else r)

/-- `⌊√m⌋`. -/
def isqrt (m : Nat) : Nat := isqrtFrom m (bitLength m / 2 + 1) 0

/-- `sqrt64`, correctly rounded (R168). -/
def f64Sqrt (x : F64) : F64 :=
  match f64Val x with
  | .nan => f64NaN
  | .inf neg => if neg then f64NaN else f64Inf false
  | .fin neg m e =>
    if m = 0 then x
    else if neg then f64NaN
    else
      let k := guardBits + (e % 2).toNat
      let wide := m <<< k
      let r := isqrt wide
      f64Round false r ((e - k) / 2) (r * r != wide)

/-- An integer as binary64, rounded once (exact below `2^53`). -/
def f64OfInt (i : Int) : F64 := f64Round (i < 0) i.natAbs 0 false

/-- `floor` of a non-negative value as a natural number. The argument of the one use (R168) is a
square root, so it is never negative; negative and non-finite arguments give 0 (log entry 5). -/
def f64FloorNat (x : F64) : Nat :=
  match f64Val x with
  | .fin false m e => if 0 ≤ e then m <<< e.toNat else m >>> (-e).toNat
  | _ => 0

/-- `F32` of the reference (R298): one rounding to binary32, nearest even. -/
def f32OfF64 (x : F64) : Word :=
  match f64Val x with
  | .nan => BitVec.ofNat 32 (ffNaN binary32)
  | .inf neg => BitVec.ofNat 32 (ffSign binary32 neg + ffInf binary32)
  | .fin neg m e => BitVec.ofNat 32 (ffRound binary32 neg m e false)

end Sys2Proof.Machine
end

