-- ==== Sys2Proof/Machine/Trig.lean ====
section
/-! DEFINITION. `sin64` and `cos64` of the reference numerics (41_rx_detector.md R170): the binary64
sine and cosine, correctly rounded, by a fixed-point Taylor series. DESIGN CHOICE, log entry 4: the
spec says "the platform's mathematics library" and that its vectors used correctly rounded results. -/

namespace Sys2Proof.Machine

/-- Fraction bits of the fixed-point numbers of this file. -/
def fxBits : Nat := 320

/-- The fixed-point 1. -/
def fxOne : Nat := 2 ^ fxBits

/-- `⌊(π/2)·2^320⌋`. -/
def fxHalfPi : Nat := 
  0x1921fb54442d18469898cc51701b839a252049c1114cf98e804177d4c76273644a29410f31c6809bb

/-- Fixed-point product, rounded down. -/
def fxMul (a b : Nat) : Nat := (a * b) >>> fxBits

/-- `1 - y/((2j)(2j+1))·(1 - y/((2j+2)(2j+3))·(…))`, `n` factors: the sine series over `x`, `y = x²`. -/
def fxSinHorner (y : Nat) : Nat → Nat → Nat
  | 0, _ => fxOne
  | n + 1, j => fxOne - fxMul y (fxSinHorner y n (j + 1)) / ((2 * j) * (2 * j + 1))

/-- `1 - y/((2j-1)(2j))·(1 - …)`, `n` factors: the cosine series, `y = x²`. -/
def fxCosHorner (y : Nat) : Nat → Nat → Nat
  | 0, _ => fxOne
  | n + 1, j => fxOne - fxMul y (fxCosHorner y n (j + 1)) / ((2 * j - 1) * (2 * j))

/-- Series terms: `(π/4)^81/81!` is below `2^-420`. -/
def fxTerms : Nat := 40

/-- `sin r` for `0 ≤ r ≤ π/4`, fixed point. -/
def fxSin (r : Nat) : Nat := fxMul r (fxSinHorner (fxMul r r) fxTerms 1)

/-- `cos r` for `0 ≤ r ≤ π/4`, fixed point. -/
def fxCos (r : Nat) : Nat := fxCosHorner (fxMul r r) fxTerms 1

/-- The magnitude of a finite operand in fixed point (exact for magnitudes from `2^-27` up). -/
def fxOfMant (mant : Nat) (exp : Int) : Nat :=
  let e := exp + fxBits
  if 0 ≤ e then mant <<< e.toNat else mant >>> (-e).toNat

/-- The sign and fixed-point magnitude of `sin (r + k·π/2)` for a remainder `r` of sign `rneg` and
magnitude `rabs`, by the quadrant `k mod 4`. -/
def quadrantSin (k : Nat) (rneg : Bool) (rabs : Nat) : Bool × Nat :=
  match k % 4 with
  | 0 => (rneg, fxSin rabs)
  | 1 => (false, fxCos rabs)
  | 2 => (!rneg, fxSin rabs)
  | _ => (true, fxCos rabs)

/-- The nearest multiple of `π/2` and the signed remainder of a fixed-point magnitude. -/
def reduceHalfPi (x : Nat) : Nat × Bool × Nat :=
  let k := (x + fxHalfPi / 2) / fxHalfPi
  (k, x < k * fxHalfPi, if x < k * fxHalfPi then k * fxHalfPi - x else x - k * fxHalfPi)

/-- Whether the magnitude is below `2^-27`, where `sin x` rounds to `x` and `cos x` to 1. -/
def isTiny (mant : Nat) (exp : Int) : Bool := exp + bitLength mant ≤ -27

/-- `sin64`. -/
def sin64 (x : F64) : F64 :=
  match f64Val x with
  | .fin neg m e =>
    if isTiny m e then x
    else
      let (k, rneg, rabs) := reduceHalfPi (fxOfMant m e)
      let (sneg, v) := quadrantSin k rneg rabs
      f64Round (neg != sneg) v (-(fxBits : Int)) true
  | _ => f64NaN

/-- `cos64`: `cos x = sin (x + π/2)`. -/
def cos64 (x : F64) : F64 :=
  match f64Val x with
  | .fin _ m e =>
    if isTiny m e then f64OfInt 1
    else
      let (k, rneg, rabs) := reduceHalfPi (fxOfMant m e)
      let (sneg, v) := quadrantSin (k + 1) rneg rabs
      f64Round sneg v (-(fxBits : Int)) true
  | _ => f64NaN

end Sys2Proof.Machine
end

