-- ==== Sys2Proof/Machine/Numerics.lean ====
section
/-! DEFINITION. The reference numerics (41_rx_detector.md R168, R170; 45_tx_sample.md R295, R298) and
the configurations of the spec: the reference one the machine runs, and the test one of
95_test_vectors.md. -/

namespace Sys2Proof.Machine

/-- `π64`, the binary64 value nearest π (R165). -/
def pi64 : F64 := 0x400921FB54442D18#64

/-- The Goertzel recurrence over the block from the accumulators `(q1, q2)` (R168). -/
def goertzelRun (coeff : F64) : List Int → F64 → F64 → F64 × F64
  | [], q1, q2 => (q1, q2)
  | d :: ds, q1, q2 => goertzelRun coeff ds (f64Add (f64Sub (f64Mul coeff q1) q2) (f64OfInt d)) q1

/-- `GOERTZEL_REF` of R168 for block length `n`: accumulators from +0.0, scaling by `n/2`, magnitude
floored to a natural number. -/
def goertzelRef (n : Nat) (b : Bin) (d : List Int) : Nat :=
  let (q1, q2) := goertzelRun b.coeff d 0#64 0#64
  let sc := f64OfInt (n / 2 : Nat)
  let re := f64Div (f64Sub q1 (f64Mul q2 b.cos)) sc
  let im := f64Div (f64Mul q2 b.sin) sc
  f64FloorNat (f64Sqrt (f64Add (f64Mul re re) (f64Mul im im)))

/-- `SIN(φ) = sin64((2.0 ⊗ π64 ⊗ φ) ⊘ 2^32)` (R298). -/
def oscSinRef (phase : BitVec 32) : F64 :=
  sin64 (f64Div (f64Mul (f64Mul (f64OfInt 2) pi64) (f64OfInt (phase.toNat : Int))) (f64OfInt (2 ^ 32)))

/-- `ENV(r) = (1.0 ⊖ cos64((π64 ⊗ r) ⊘ ENV_RAMP)) ⊘ 2.0` (R295, R298). -/
def envRef (envRamp r : Nat) : F64 :=
  f64Div (f64Sub (f64OfInt 1) (cos64 (f64Div (f64Mul pi64 (f64OfInt (r : Int))) (f64OfInt (envRamp : Int)))))
    (f64OfInt 2)

/-- The reference numerics of R7 for block length `n` and ramp length `envRamp`. -/
def referenceNumerics (n envRamp : Nat) : Numerics where
  cos64 := cos64
  sin64 := sin64
  goertzel := goertzelRef n
  sin := oscSinRef
  env := envRef envRamp
  f32 := f32OfF64

/-- The value column of R7, with `FS_TX` and `ENV_RAMP` left open. -/
def configWith (fsTx envRamp : Nat) : Config where
  fsIn := 96000
  decim := 8
  n := 128
  binKRounding := false
  lpfTaps := [1, 1, 1, 1, 1, 1, 1, 1]
  lpfQ := 3
  hlDecay := 100
  nfDecay := 100
  streakMax := 65535
  symCap := 100
  fsTx := fsTx
  envRamp := envRamp
  txTable := referenceTxTable
  rxTable := referenceRxTable
  numerics := referenceNumerics 128 envRamp

/-- The reference configuration (R7). -/
def referenceConfig : Config := configWith 96000 480

/-- The test configuration of 95_test_vectors.md: the reference with `FS_TX = 100`, `ENV_RAMP = 2`. -/
def testConfig : Config := configWith 100 2

/-- The configuration `exec` runs: the reference values (log entry 3). -/
def theConfig : Config := referenceConfig

end Sys2Proof.Machine
end

