-- ==== Sys2Proof/Machine/State.lean ====
section
/-! DEFINITION. The machine's state as plain data (10_state.md), grouped as R31 groups it, and the
state right after power-on (R47). -/

namespace Sys2Proof.Machine

/-- Key/paddle state (`KeySymbol`, 30_encoding.md R103): bit 0 dot paddle, bit 1 dash paddle. -/
inductive Key where
  | idle | dot | dash | squeeze
  deriving DecidableEq, Repr

/-- Keyer symbols in code order 0..7 (R104). -/
inductive Sym where
  | idle | dot | dash | squeeze | down | elemDelay | charDelay | wordDelay
  deriving DecidableEq, Repr

/-- Keying modes in code order 0..5 (R104); codes 6 and 7 are never held (R326). -/
inductive Mode where
  | straight | bug | ultimatic | iambicA | iambicB | keyboard
  deriving DecidableEq, Repr

/-- Result codes 0..5 in code order (30_encoding.md R102). -/
inductive Status where
  | ok | errIllegal | errNotInit | errRange | errBlocksize | errUnwritten
  deriving DecidableEq, Repr

/-- The result of one command (R102). -/
structure Result where
  status : Status
  value : Word
  deriving DecidableEq, Repr

/-- Console style bit (30_encoding.md R109): 0 received text, 1 echo of a sent character. -/
inductive Style where
  | rx | tx
  deriving DecidableEq, Repr

/-- Output events (R109). -/
inductive Event where
  | con (style : Style) (text : List Byte)
  | pttOn
  | pttOff
  deriving DecidableEq, Repr

/-- What the host does on the block's ports, in the order it does it (60_exceptions.md R372, R373). R373's
list has no removal from `TXQ`; `clearText` is there for 46_control.md R328 (DEDUCED, log entry 16). -/
inductive HostItem where
  /-- A word on the command/payload port (20_memory.md R82). -/
  | word (w : Word)
  /-- Set `KEY_IN`. -/
  | setKey (k : Key)
  /-- Set `MS_NOW`. -/
  | setNow (t : BitVec 64)
  /-- Append a byte to `TXQ`. -/
  | queueText (b : Byte)
  /-- Empty `TXQ`: a host that wants to stop text "empties its own queue" (46_control.md R328; DEDUCED, log
  entry 16). -/
  | clearText
  /-- Remove the oldest `n` entries of `EVENTS`. -/
  | takeEvents (n : Nat)
  deriving DecidableEq, Repr

/-- Configuration registers (R33). `written` is `CFG_W`. -/
structure CfgRegs where
  wpm : BitVec 16
  pitch : BitVec 16
  cwDelay : BitVec 16
  mode : Mode
  written : BitVec 4
  deriving DecidableEq, Repr

/-- Registers latched by the poll path (R35). -/
structure Shadow where
  wpm : BitVec 16
  pitch : BitVec 16
  cwDelay : BitVec 16
  mode : Mode
  key : Key
  bytes : BitVec 16
  deriving DecidableEq, Repr

/-- The bin file `BIN[0..4]` (R38). -/
structure BinFile where
  b0 : Bin
  b1 : Bin
  b2 : Bin
  b3 : Bin
  b4 : Bin
  deriving DecidableEq, Repr

/-- An entry of the symbol buffer (R41). -/
structure RxSymbol where
  isMark : Bool
  magnitude : BitVec 64
  ticks : BitVec 32
  deriving DecidableEq, Repr

/-- The RX decoder (R37-R41). -/
structure Decoder where
  lpfHist : List Word
  bins : BinFile
  pitch : BitVec 16
  wpm : BitVec 16
  dashLen : BitVec 32
  highLevel : BitVec 64
  noiseFloor : BitVec 64
  streak : BitVec 16
  winBin : BitVec 3
  lastMag : BitVec 64
  sigState : Bool
  hist : BitVec 5
  mark : Bool
  prevMark : Bool
  wsFlag : Bool
  ticks : BitVec 32
  sym : List RxSymbol
  symWr : Nat
  deriving DecidableEq, Repr

/-- The keyer and its playback buffer (R42, R43). -/
structure Keyer where
  curSym : Sym
  nextSym : Sym
  lastSym : Sym
  prevIn : Key
  ultLast : Sym
  kd : BitVec 32
  ku : BitVec 32
  period : BitVec 32
  kbSeq : List Sym
  kbLen : Nat
  kbPos : Nat
  deriving DecidableEq, Repr

/-- Oscillator and envelope (R44). -/
structure Osc where
  phase : BitVec 32
  freq : BitVec 16
  inc : BitVec 32
  envR : BitVec 16
  deriving DecidableEq, Repr

/-- The whole machine: the block's registers and the ports the host owns (R31, R45). -/
structure State where
  /-- `INITED` (R34). -/
  inited : Bool
  cfg : CfgRegs
  sh : Shadow
  /-- `TX_UNTIL` (R36). -/
  txUntil : BitVec 64
  dec : Decoder
  keyer : Keyer
  osc : Osc
  /-- `KEY_IN` (R45). -/
  keyIn : Key
  /-- `MS_NOW` (R45). -/
  msNow : BitVec 64
  /-- `TXQ`, head first (R45). -/
  txq : List Byte
  /-- `EVENTS`, oldest first (R45). -/
  events : List Event
  /-- The result port: every command's result in command order (R102; log entry 6). -/
  results : List Result
  /-- What the host has put on the ports and the block has not reached yet (log entry 1). -/
  input : List HostItem
  deriving DecidableEq, Repr

/-- Reasons a step could fault. There are none: "There is no trap" (60_exceptions.md R360); every
error is a status code in a result, after which the machine goes on. -/
inductive Fault where
  deriving DecidableEq, Repr

/-- Reasons an instruction could have no meaning in the model. -/
inductive Refusal where
  /-- Raised only by an arm of `exec` whose command has no meaning yet; no arm does so here. Safe. -/
  | notModelled (mnemonic : String)
  deriving DecidableEq, Repr

/-- An empty bin register file entry. -/
def binZero : Bin := ⟨0, 0, 0, 0⟩

/-- The decoder registers at power-on. The spec gives them no value (R47); log entry 2. -/
def decoderReset (C : Config) : Decoder where
  lpfHist := List.replicate (C.lpfTaps.length - 1) 0
  bins := ⟨binZero, binZero, binZero, binZero, binZero⟩
  pitch := 0
  wpm := 0
  dashLen := 0
  highLevel := 0
  noiseFloor := 0
  streak := 0
  winBin := 0
  lastMag := 0
  sigState := false
  hist := 0
  mark := false
  prevMark := false
  wsFlag := false
  ticks := 0
  sym := List.replicate C.symCap ⟨false, 0, 0⟩
  symWr := 0

/-- The keyer registers at power-on. The spec gives them no value (R47); log entry 2. -/
def keyerReset (C : Config) : Keyer where
  curSym := .idle
  nextSym := .idle
  lastSym := .idle
  prevIn := .idle
  ultLast := .idle
  kd := 0
  ku := 0
  period := 0
  kbSeq := List.replicate C.kbCap .idle
  kbLen := 0
  kbPos := 0

/-- Power-on of a block of configuration `C` (R47, R390): `INITED = 0`, `CFG_W = 0`, `EVENTS` empty. The
other registers hold no value the spec states and get the values of log entry 2; the host's ports those
of log entry 7. -/
def State.resetWith (C : Config) : State where
  inited := false
  cfg := ⟨0, 0, 0, .straight, 0⟩
  sh := ⟨0, 0, 0, .straight, .idle, 0⟩
  txUntil := 0
  dec := decoderReset C
  keyer := keyerReset C
  osc := ⟨0, 0, 0, 0⟩
  keyIn := .idle
  msNow := 0
  txq := []
  events := []
  results := []
  input := []

/-- Power-on of the block of the reference configuration, which the host's interface runs (log entry 3). -/
def State.reset : State := State.resetWith theConfig

end Sys2Proof.Machine
end

