-- ==== Sys2Proof/Machine/Operands.lean ====
section
/-! DEFINITION. Operand assembly (30_encoding.md R107), the enumeration codes (R102-R104) and the
register reads of the status space (46_control.md R327). -/

namespace Sys2Proof.Machine

/-- The 2-bit code of a key state (R103). -/
def keyCode : Key → BitVec 2
  | .idle => 0
  | .dot => 1
  | .dash => 2
  | .squeeze => 3

/-- The key state of a 2-bit port value: bit 0 dot, bit 1 dash (R103). -/
def keyOfBits (b : BitVec 2) : Key :=
  match b.getLsbD 1, b.getLsbD 0 with
  | false, false => .idle
  | false, true => .dot
  | true, false => .dash
  | true, true => .squeeze

/-- The 3-bit code of a keyer symbol (R104). -/
def symCode : Sym → BitVec 3
  | .idle => 0
  | .dot => 1
  | .dash => 2
  | .squeeze => 3
  | .down => 4
  | .elemDelay => 5
  | .charDelay => 6
  | .wordDelay => 7

/-- The 3-bit code of a keying mode (R104). -/
def modeCode : Mode → BitVec 3
  | .straight => 0
  | .bug => 1
  | .ultimatic => 2
  | .iambicA => 3
  | .iambicB => 4
  | .keyboard => 5

/-- The keying mode of a WCFG MODE value; 6 and above name none (R104, R326). -/
def modeOfValue (v : BitVec 16) : Option Mode :=
  match v.toNat with
  | 0 => some .straight
  | 1 => some .bug
  | 2 => some .ultimatic
  | 3 => some .iambicA
  | 4 => some .iambicB
  | 5 => some .keyboard
  | _ => none

/-- The 3-bit code of a result status (R102). -/
def statusCode : Status → BitVec 3
  | .ok => 0
  | .errIllegal => 1
  | .errNotInit => 2
  | .errRange => 3
  | .errBlocksize => 4
  | .errUnwritten => 5

/-- `sat32` (00_scope.md R12). -/
def sat32 (v : Nat) : Word := BitVec.ofNat 32 (min v 0xFFFFFFFF)

/-- `DEC_FLAGS`: `SIG_STATE | MARK<<1 | PREV_MARK<<2 | WS_FLAG<<3 | HIST<<4` (R327). -/
def decFlags (d : Decoder) : Word :=
  (d.hist ++ BitVec.ofBool d.wsFlag ++ BitVec.ofBool d.prevMark ++ BitVec.ofBool d.mark ++
    BitVec.ofBool d.sigState).setWidth 32

/-- `CFG_W | INITED<<4` (R327). -/
def configStatus (s : State) : Word := (BitVec.ofBool s.inited ++ s.cfg.written).setWidth 32

/-- The register an RDSTAT index names, zero-extended to 32 bits or saturated as R327 says; `none`
for an index that is not in the map. -/
def statusValue (s : State) (index : BitVec 8) : Option Word :=
  match index.toNat with
  | 0x00 => some s.dec.dashLen
  | 0x01 => some (s.dec.wpm.setWidth 32)
  | 0x02 => some (s.dec.pitch.setWidth 32)
  | 0x03 => some (sat32 s.dec.highLevel.toNat)
  | 0x04 => some (sat32 s.dec.noiseFloor.toNat)
  | 0x05 => some (s.dec.streak.setWidth 32)
  | 0x06 => some (s.dec.winBin.setWidth 32)
  | 0x07 => some (sat32 s.dec.lastMag.toNat)
  | 0x08 => some (decFlags s.dec)
  | 0x09 => some s.dec.ticks
  | 0x0A => some (BitVec.ofNat 32 s.dec.symWr)
  | 0x10 => some ((symCode s.keyer.curSym).setWidth 32)
  | 0x11 => some ((symCode s.keyer.nextSym).setWidth 32)
  | 0x12 => some ((symCode s.keyer.lastSym).setWidth 32)
  | 0x13 => some ((keyCode s.keyer.prevIn).setWidth 32)
  | 0x14 => some ((symCode s.keyer.ultLast).setWidth 32)
  | 0x15 => some s.keyer.kd
  | 0x16 => some s.keyer.ku
  | 0x17 => some s.keyer.period
  | 0x18 => some (s.osc.envR.setWidth 32)
  | 0x19 => some (BitVec.ofNat 32 s.keyer.kbPos)
  | 0x1A => some (BitVec.ofNat 32 s.keyer.kbLen)
  | 0x1B => some s.osc.phase
  | 0x1C => some (s.osc.freq.setWidth 32)
  | 0x1D => some s.osc.inc
  | 0x20 => some (s.sh.wpm.setWidth 32)
  | 0x21 => some (s.sh.pitch.setWidth 32)
  | 0x22 => some (s.sh.cwDelay.setWidth 32)
  | 0x23 => some ((modeCode s.sh.mode).setWidth 32)
  | 0x24 => some ((keyCode s.sh.key).setWidth 32)
  | 0x25 => some (s.sh.bytes.setWidth 32)
  | 0x26 => some (s.txUntil.extractLsb' 0 32)
  | 0x27 => some (s.txUntil.extractLsb' 32 32)
  | 0x30 => some (s.cfg.wpm.setWidth 32)
  | 0x31 => some (s.cfg.pitch.setWidth 32)
  | 0x32 => some (s.cfg.cwDelay.setWidth 32)
  | 0x33 => some ((modeCode s.cfg.mode).setWidth 32)
  | 0x34 => some (configStatus s)
  | _ => none

end Sys2Proof.Machine
end

