-- ==== Sys2Proof/Machine/Flags.lean ====
section
/-! DEFINITION. The decoder's flag computations (10_state.md R40): the two-tier threshold
(42_rx_levels.md R194) and the denoiser (R196). -/

namespace Sys2Proof.Machine

/-- THRESHOLD(m): 15 % of the contrast once the bin has held for two ticks, 40 % before, compared
exactly on integers with the levels this tick has already updated (R194, R190). -/
def thresholdMet (m high floor : BitVec 64) (streak : BitVec 16) : Bool :=
  let h : Int := high.toNat
  let f : Int := floor.toNat
  if 2 ≤ streak.toNat then 100 * f + 15 * (h - f) ≤ 100 * (m.toNat : Int)
  else 10 * f + 4 * (h - f) ≤ 10 * (m.toNat : Int)

/-- The shift of `HIST`, newest in bit 0 (R196). -/
def histPush (hist : BitVec 5) (sig : Bool) : BitVec 5 := (hist <<< 1) ||| (BitVec.ofBool sig).setWidth 5

/-- How many of the five history bits are set. -/
def histCount (hist : BitVec 5) : Nat :=
  (hist.getLsbD 0).toNat + (hist.getLsbD 1).toNat + (hist.getLsbD 2).toNat + (hist.getLsbD 3).toNat +
    (hist.getLsbD 4).toNat

/-- DENOISE (R196): the one unconditional majority rule, three of the last five. -/
def denoise (d : Decoder) : Decoder :=
  let hist := histPush d.hist d.sigState
  { d with prevMark := d.mark, hist := hist, mark := 3 ≤ histCount hist }

end Sys2Proof.Machine
end

