-- ==== Sys2Proof/Machine/Levels.lean ====
section
/-! DEFINITION. The level tracker (42_rx_levels.md R190-R193). -/

namespace Sys2Proof.Machine

/-- `NF_MIN`, fixed by the source (00_scope.md R7). -/
def nfMin : Nat := 100

/-- A first-order step toward `m` with weight `1/k`, rounded down (R191, R193). -/
def levelStep (k : Nat) (m level : BitVec 64) : Nat := (m.toNat + (k - 1) * level.toNat) / k

/-- PEAK_UPDATE(m): jump up at once, decay slowly (R191). -/
def peakUpdate (C : Config) (m high : BitVec 64) : BitVec 64 :=
  if high < m then m else BitVec.ofNat 64 (levelStep C.hlDecay m high)

/-- FLOOR_UPDATE(m): only below 40 % of the peak just written, clamped to `NF_MIN` (R193). -/
def floorUpdate (C : Config) (m high floor : BitVec 64) : BitVec 64 :=
  if 10 * m.toNat < 4 * high.toNat then BitVec.ofNat 64 (max (levelStep C.nfDecay m floor) nfMin) else floor

/-- LEVEL_UPDATE(m): peak, then floor against the new peak (R190). -/
def levelUpdate (C : Config) (m : BitVec 64) (d : Decoder) : Decoder :=
  let high := peakUpdate C m d.highLevel
  { d with highLevel := high, noiseFloor := floorUpdate C m high d.noiseFloor }

end Sys2Proof.Machine
end

