-- ==== Sys2Proof/Machine/Ops.lean ====
section
/-! DEFINITION. The named operations every command uses: answering on the result port, refusing
(the block's only error mechanism, 60_exceptions.md R360), appending events, and the host's actions
between commands (R373). -/

namespace Sys2Proof.Machine

/-- Put a result on the result port (30_encoding.md R102). -/
def respond (status : Status) (value : Word) (s : State) : State :=
  { s with results := s.results ++ [⟨status, value⟩] }

/-- `raise Err(code)` (00_scope.md R14): the result is `(code, 0)` and nothing else changes. No trap is
taken (R360); the next command starts from this state. -/
def refuse (status : Status) (s : State) : Host.Outcome State Fault Refusal := .next (respond status 0 s)

/-- `return v` (R14): the result is `(OK, v)`. -/
def accept (value : Word) (s : State) : Host.Outcome State Fault Refusal := .next (respond .ok value s)

/-- Append events to the output log in program order (R14, 20_memory.md R85). -/
def emit (es : List Event) (s : State) : State := { s with events := s.events ++ es }

/-- The host's action on a port (R373; `clearText` from 46_control.md R328, log entry 16); a command word is
no such action. -/
def hostAction (a : HostItem) (s : State) : State :=
  match a with
  | .word _ => s
  | .setKey k => { s with keyIn := k }
  | .setNow t => { s with msNow := t }
  | .queueText b => { s with txq := s.txq ++ [b] }
  | .clearText => { s with txq := [] }
  | .takeEvents n => { s with events := s.events.drop n }

/-- The host's actions before its next command word, taken in order; the rest is what follows. -/
def hostActions : List HostItem → State → State
  | [], s => { s with input := [] }
  | .word w :: rest, s => { s with input := .word w :: rest }
  | a :: rest, s => hostActions rest (hostAction a s)

end Sys2Proof.Machine
end

