-- ==== Sys2Proof/Machine/Detector.lean ====
section
/-! DEFINITION. RX front end (41_rx_detector.md): retune, decimation filter, bins, bin selection,
streak. -/

namespace Sys2Proof.Machine

/-- `INIT_DASH(w) = (18·FS_D) div (5·N·w)` (43_rx_segment_match.md R223). -/
def initDash (C : Config) (w : Nat) : Nat := (18 * C.fsD) / (5 * C.n * w)

/-- `ω` of a bin at `f` Hz: exact frequency, or the frequency rounded to a DFT index (R165, R167). -/
def binOmega (C : Config) (f : Int) : F64 :=
  let twoPi := f64Mul (f64OfInt 2) pi64
  if C.binKRounding then
    let k := (2 * C.n * f + C.fsD) / (2 * C.fsD)
    f64Div (f64Mul twoPi (f64OfInt k)) (f64OfInt C.n)
  else f64Div (f64Mul twoPi (f64OfInt f)) (f64OfInt C.fsD)

/-- A bin tuned to `f` Hz (R165). -/
def binTuned (C : Config) (f : Int) : Bin :=
  let c := C.numerics.cos64 (binOmega C f)
  { freq := f, cos := c, sin := C.numerics.sin64 (binOmega C f), coeff := f64Mul (f64OfInt 2) c }

/-- BIN_INIT(p): five bins at −100, −50, 0, +50, +100 Hz from the pitch (R165, R166). -/
def binInit (C : Config) (pitch : BitVec 16) : BinFile :=
  let at_ := fun (off : Int) => binTuned C (pitch.toNat + off)
  ⟨at_ (-100), at_ (-50), at_ 0, at_ 50, at_ 100⟩

/-- RETUNE, first half: the bins follow the latched pitch (R161). -/
def retunePitch (C : Config) (pitch : BitVec 16) (d : Decoder) : Decoder :=
  if pitch ≠ d.pitch then { d with bins := binInit C pitch, pitch := pitch } else d

/-- RETUNE, second half: a WPM change restarts the dash length (R161, R223). -/
def retuneWpm (C : Config) (wpm : BitVec 16) (d : Decoder) : Decoder :=
  if wpm ≠ d.wpm then { d with wpm := wpm, dashLen := BitVec.ofNat 32 (initDash C wpm.toNat) } else d

/-- RETUNE (R161). -/
def retune (C : Config) (sh : Shadow) (d : Decoder) : Decoder := retuneWpm C sh.wpm (retunePitch C sh.pitch d)

/-- `Σ LPF_TAPS[k]·w[k]`, exact (R163). -/
def firSum : List Int → List Word → Int
  | t :: ts, w :: ws => t * s32 w + firSum ts ws
  | _, _ => 0

/-- `LPF_HIST` after a sample: the last `T−1` samples, newest first (R163, R37). -/
def firShift (C : Config) (x : Word) (hist : List Word) : List Word :=
  (x :: hist).take (C.lpfTaps.length - 1)

/-- DECIMATE from decimation phase `j`: one output for each `DECIM`-th sample, rounded toward minus
infinity (R163). `out` holds the outputs so far, newest first. -/
def decimateFrom (C : Config) : List Word → Nat → List Word → List Int → List Int × List Word
  | [], _, hist, out => (out.reverse, hist)
  | x :: xs, j, hist, out =>
    let y := firSum C.lpfTaps (x :: hist) / 2 ^ C.lpfQ
    if j + 1 = C.decim then decimateFrom C xs 0 (firShift C x hist) (y :: out)
    else decimateFrom C xs (j + 1) (firShift C x hist) out

/-- DECIMATE (R163): a tick always starts at decimation phase 0 (R37). -/
def decimate (C : Config) (x hist : List Word) : List Int × List Word := decimateFrom C x 0 hist []

/-- The magnitude of one bin as the 64-bit register value (R170, R39; log entry 9). -/
def binMag (C : Config) (b : Bin) (d : List Int) : BitVec 64 := BitVec.ofNat 64 (C.numerics.goertzel b d)

/-- SELECT from bin `i` on, with the best so far (R171): a strictly larger magnitude wins. -/
def selectFrom : List (BitVec 64) → BitVec 3 → BitVec 3 → BitVec 64 → BitVec 3 × BitVec 64
  | [], _, b, m => (b, m)
  | x :: xs, i, b, m => if m < x then selectFrom xs (i + 1) i x else selectFrom xs (i + 1) b m

/-- SELECT (R171): the winning bin and its magnitude, the lowest index at a tie. -/
def selectBin (C : Config) (f : BinFile) (d : List Int) : BitVec 3 × BitVec 64 :=
  selectFrom [binMag C f.b1 d, binMag C f.b2 d, binMag C f.b3 d, binMag C f.b4 d] 1 0 (binMag C f.b0 d)

/-- STREAK_UPDATE(b) (R172). -/
def streakUpdate (C : Config) (b : BitVec 3) (d : Decoder) : Decoder :=
  { d with
    streak := if b = d.winBin then BitVec.ofNat 16 (min (d.streak.toNat + 1) C.streakMax) else 1
    winBin := b }

end Sys2Proof.Machine
end

