-- ==== Sys2Proof/Machine/Segment.lean ====
section
/-! DEFINITION. The symbol segmenter and the speed-adaptive letter matcher
(43_rx_segment_match.md). Operations that emit text return the events beside the registers. -/

namespace Sys2Proof.Machine

/-- PUSH(s): the write index wraps silently (R211). -/
def pushSymbol (C : Config) (x : RxSymbol) (d : Decoder) : Decoder :=
  { d with sym := d.sym.set d.symWr x, symWr := (d.symWr + 1) % C.symCap }

/-- HAS_MARK(): a mark stands below the write index (R216). -/
def hasMark (d : Decoder) : Bool := (d.sym.take d.symWr).any (·.isMark)

/-- EMIT_WS(): one word-space, guarded by `WS_FLAG` (R214). -/
def emitWordSpace (d : Decoder) : Decoder × List Event :=
  if d.wsFlag then (d, []) else ({ d with wsFlag := true }, [.con .rx [0x20#8]])

/-- ADAPT(d): `(3·old + observed) div 4`, rejected outside `[init/2, 2·init]` (R224). -/
def adaptDash (C : Config) (wpm : BitVec 16) (dashLen ticks : BitVec 32) : BitVec 32 :=
  let new := (3 * dashLen.toNat + ticks.toNat) / 4
  let init := initDash C wpm.toNat
  if init ≤ 2 * new ∧ new ≤ 2 * init then BitVec.ofNat 32 new else dashLen

/-- The class of a mark of `t` ticks against the current dash length; `none` is noise (R221). -/
def classifyMark (dashLen t : BitVec 32) : Option Mark :=
  if 6 * t.toNat ≤ dashLen.toNat then none
  else if dashLen.toNat < 2 * t.toNat then some .dash
  else some .dot

/-- The letter's pattern and the adapted dash length: each mark is classified against the dash length
the marks before it left, and every dash adapts it (R220). -/
def matchMarks (C : Config) (wpm : BitVec 16) : List RxSymbol → BitVec 32 → List Mark × BitVec 32
  | [], dashLen => ([], dashLen)
  | x :: xs, dashLen =>
    if x.isMark then
      match classifyMark dashLen x.ticks with
      | none => matchMarks C wpm xs dashLen
      | some .dot => let r := matchMarks C wpm xs dashLen; (.dot :: r.1, r.2)
      | some .dash => let r := matchMarks C wpm xs (adaptDash C wpm dashLen x.ticks); (.dash :: r.1, r.2)
    else matchMarks C wpm xs dashLen

/-- The text of a pattern: its table entry, or the raw pattern (R222). -/
def letterText (C : Config) (s : List Mark) : List Byte := (rxRom C s).getD (patternText s)

/-- MATCH() (R220, R222): text clears `WS_FLAG`; an empty pattern outputs nothing; the buffer empties. -/
def matchLetter (C : Config) (d : Decoder) : Decoder × List Event :=
  let r := matchMarks C d.wpm (d.sym.take d.symWr) d.dashLen
  let out := letterText C r.1
  if out = [] then ({ d with dashLen := r.2, symWr := 0 }, [])
  else ({ d with dashLen := r.2, symWr := 0, wsFlag := false }, [.con .rx out])

/-- SEGMENT, the two transitions: record the run that just ended and restart the count (R212). -/
def segmentEdge (C : Config) (m : BitVec 64) (d : Decoder) : Decoder :=
  { pushSymbol C ⟨d.prevMark, m, d.ticks⟩ d with ticks := 0 }

/-- SEGMENT inside a mark: the long-mark clamp (R213). -/
def segmentMark (d : Decoder) : Decoder :=
  if 3 * d.dashLen.toNat < d.ticks.toNat then { d with ticks := d.dashLen } else d

/-- The word-space test of both space branches: the gap exceeds 1.5 dash lengths (R210, R214). -/
def longGap (d : Decoder) : Bool := 3 * d.dashLen.toNat < 2 * d.ticks.toNat

/-- SEGMENT inside a space with no open symbol (R214, R216). -/
def segmentSilence (d : Decoder) : Decoder × List Event :=
  if longGap d then
    let r := emitWordSpace d
    ({ r.1 with ticks := 0 }, r.2)
  else (d, [])

/-- Letter end: close out the gap, match, and emit a word-space if the gap is long against the dash
length the matcher has just adapted (R215). -/
def closeLetter (C : Config) (m : BitVec 64) (d : Decoder) : Decoder × List Event :=
  let r := matchLetter C (pushSymbol C ⟨false, m, d.ticks⟩ d)
  let w := if longGap r.1 then emitWordSpace r.1 else (r.1, [])
  ({ w.1 with ticks := 0 }, r.2 ++ w.2)

/-- SEGMENT(m): count first, then the transition of `(PREV_MARK, MARK)` (R210). -/
def segment (C : Config) (m : BitVec 64) (d0 : Decoder) : Decoder × List Event :=
  let d := { d0 with ticks := BitVec.ofNat 32 (d0.ticks.toNat + 1) }
  match d.prevMark, d.mark with
  | false, true => (segmentEdge C m d, [])
  | true, false => (segmentEdge C m d, [])
  | true, true => (segmentMark d, [])
  | false, false =>
    if hasMark d then
      if d.dashLen.toNat < 2 * d.ticks.toNat then closeLetter C m d else (d, [])
    else segmentSilence d

end Sys2Proof.Machine
end

