-- ==== Sys2Proof/Machine/Receive.lean ====
section
/-! DEFINITION. RXB: the tick and the block loop (41_rx_detector.md R160, R162). -/

namespace Sys2Proof.Machine

/-- The tick's steps after the Goertzel bins: streak, levels, threshold, denoiser, segmenter, for the
winning bin `b` of magnitude `m` (R162). -/
def tickWith (C : Config) (b : BitVec 3) (m : BitVec 64) (d : Decoder) : Decoder × List Event :=
  let d1 := { streakUpdate C b d with lastMag := m }
  let d2 := levelUpdate C m d1
  let d3 := { d2 with sigState := thresholdMet m d2.highLevel d2.noiseFloor d2.streak }
  segment C m (denoise d3)

/-- TICK(d) (R162). -/
def tick (C : Config) (samples : List Int) (d : Decoder) : Decoder × List Event :=
  let r := selectBin C d.bins samples
  tickWith C r.1 r.2 d

/-- One tick from its `DECIM·N` input samples: decimate, then TICK (R160, R163). -/
def tickInput (C : Config) (x : List Word) (d : Decoder) : Decoder × List Event :=
  let r := decimate C x d.lpfHist
  tick C r.1 { d with lpfHist := r.2 }

/-- The loop of RXB: ticks in sample order, events in tick order (R160, R402). -/
def rxTicks (C : Config) : Nat → List Word → Decoder → List Event → Decoder × List Event
  | 0, _, d, es => (d, es)
  | t + 1, x, d, es =>
    let r := tickInput C (x.take C.tickSamples) d
    rxTicks C t (x.drop C.tickSamples) r.1 (es ++ r.2)

/-- The work of an accepted RXB on the decoder: RETUNE, then the whole ticks (R160, R161). -/
def receive (C : Config) (sh : Shadow) (count : BitVec 16) (x : List Word) (d : Decoder) :
    Decoder × List Event :=
  rxTicks C (count.toNat / C.tickSamples) x (retune C sh d) []

/-- RXB with its checks in order (R160, 60_exceptions.md R363). -/
def rxbCommand (C : Config) (count : BitVec 16) (samples : List Word) (s : State) :
    Host.Outcome State Fault Refusal :=
  if s.inited = false then refuse .errNotInit s
  else if count.toNat % C.tickSamples ≠ 0 then refuse .errBlocksize s
  else
    let r := receive C s.sh count samples s.dec
    accept 0 (emit r.2 { s with dec := r.1 })

/-- RXB (R160). -/
def execRxb (count : BitVec 16) (samples : List Word) (s : State) : Host.Outcome State Fault Refusal :=
  rxbCommand theConfig count samples s

end Sys2Proof.Machine
end

