-- ==== Sys2Proof/Machine/Keyer.lean ====
section
/-! DEFINITION. The keyer state machine and its six keying modes (44_tx_keyer.md). -/

namespace Sys2Proof.Machine

/-- `PERIOD_OF(w) = (6·FS_TX) div (5·w)` (R247). -/
def periodOf (C : Config) (w : Nat) : BitVec 32 := BitVec.ofNat 32 ((6 * C.fsTx) / (5 * w))

/-- The dot paddle is closed (R246). -/
def dotClosed : Key → Bool
  | .idle => false
  | .dot => true
  | .dash => false
  | .squeeze => true

/-- The dash paddle is closed (R246). -/
def dashClosed : Key → Bool
  | .idle => false
  | .dot => false
  | .dash => true
  | .squeeze => true

/-- A rising edge of the dot paddle at an invocation (R246). -/
def dotRises (key : Key) (k : Keyer) : Bool := dotClosed key && !dotClosed k.prevIn

/-- A rising edge of the dash paddle (R246). -/
def dashRises (key : Key) (k : Keyer) : Bool := dashClosed key && !dashClosed k.prevIn

/-- A key state used as a keyer symbol without conversion: codes 0..3 agree (R104). -/
def keySymbol : Key → Sym
  | .idle => .idle
  | .dot => .dot
  | .dash => .dash
  | .squeeze => .squeeze

/-- Fully idle: no key-down and no key-up interval is left (R241). -/
def keyerIdle (k : Keyer) : Bool := k.kd = 0 && k.ku = 0

/-- START(sym, kd, ku) (R244). -/
def startInterval (sym : Sym) (kd ku : Nat) (k : Keyer) : Keyer :=
  { k with curSym := sym, lastSym := sym, kd := BitVec.ofNat 32 kd, ku := BitVec.ofNat 32 ku }

/-- A paddle dot: one unit down, one unit up (R248). -/
def startDot (k : Keyer) : Keyer := startInterval .dot k.period.toNat k.period.toNat k

/-- A paddle dash: three units down, one unit up (R248). -/
def startDash (k : Keyer) : Keyer := startInterval .dash (3 * k.period.toNat) k.period.toNat k

/-- A manual key-down of one sample (R248). -/
def startDown (k : Keyer) : Keyer := startInterval .down 1 0 k

/-- A handler that starts nothing (R245). -/
def goIdle (k : Keyer) : Keyer := { k with curSym := .idle }

/-- Clear the iambic memory (R250-R252, R256). -/
def clearNext (k : Keyer) : Keyer := { k with nextSym := .idle }

/-- A code string as keyer symbols: each element is followed by an inter-element delay, a separator is
an inter-character delay, and an inter-character delay ends the character (R254). -/
def spellCode : List TxElem → List Sym
  | [] => [.charDelay]
  | .dot :: rest => .dot :: .elemDelay :: spellCode rest
  | .dash :: rest => .dash :: .elemDelay :: spellCode rest
  | .sep :: rest => .charDelay :: spellCode rest

/-- Lower-case ASCII letters fold to upper case (R254). -/
def foldCase (c : Byte) : Byte := if 0x61#8 ≤ c ∧ c ≤ 0x7A#8 then c - 0x20#8 else c

/-- The keyer symbols of a text byte; `none` when it cannot be sent (R254). -/
def spellByte (C : Config) (c : Byte) : Option (List Sym) :=
  if c = 0x20#8 then some [.wordDelay] else (txRom C (foldCase c)).map spellCode

/-- KB_LOAD's write: the symbols at the front of `KB_SEQ`, the entries above them unchanged (R254). -/
def loadSequence (syms : List Sym) (k : Keyer) : Keyer :=
  { k with kbSeq := syms ++ k.kbSeq.drop syms.length, kbLen := syms.length }

/-- What SYMBOL_NOW gives: the symbol, whether it came from the key, and the playback registers, text
queue and echo it leaves (R243). -/
structure SymbolNow where
  sym : Sym
  fromKey : Bool
  keyer : Keyer
  txq : List Byte
  events : List Event
  deriving DecidableEq, Repr

/-- SYMBOL_NOW in KEYBOARD mode with the key open: the character in progress, else the next byte of
the host's queue, POP_TXQ (R243, 45_tx_sample.md R293). A byte with no code is consumed silently. -/
def symbolFromText (C : Config) (k : Keyer) (txq : List Byte) : SymbolNow :=
  if k.kbPos < k.kbLen then
    ⟨k.kbSeq.getD k.kbPos .idle, false, { k with kbPos := k.kbPos + 1 }, txq, []⟩
  else
    match txq with
    | [] => ⟨.idle, false, k, [], []⟩
    | c :: rest =>
      match spellByte C c with
      | none => ⟨.idle, false, k, rest, []⟩
      | some syms =>
        ⟨syms.headD .idle, false, { loadSequence syms k with kbPos := 1 }, rest, [.con .tx [c]]⟩

/-- SYMBOL_NOW(mode): the key first, text only in KEYBOARD mode, else idle (R243). -/
def symbolNow (C : Config) (key : Key) (mode : Mode) (k : Keyer) (txq : List Byte) : SymbolNow :=
  if key ≠ .idle then ⟨keySymbol key, true, k, txq, []⟩
  else if mode = .keyboard then symbolFromText C k txq
  else ⟨.idle, false, k, txq, []⟩

/-- STRAIGHT (R250): any symbol but IDLE keys one sample. -/
def straightHandler (sn : Sym) (k : Keyer) : Keyer :=
  clearNext (if sn = .idle then goIdle k else startDown k)

/-- BUG (R251): timed dots, manual dashes; a squeeze is the dash paddle. -/
def bugHandler (sn : Sym) (k : Keyer) : Keyer :=
  clearNext (match sn with
    | .dot => startDot k
    | .dash => startDown k
    | .squeeze => startDown k
    | _ => goIdle k)

/-- The target `T` of a delay marker in units, 0 for any other symbol; also `G`, the gap the previous
interval already made (R255). -/
def delayUnits : Sym → Nat
  | .elemDelay => 1
  | .charDelay => 3
  | .wordDelay => 7
  | _ => 0

/-- A delay marker keys up for the difference to the gap already made (R248, R255). -/
def startDelay (sn : Sym) (k : Keyer) : Keyer :=
  startInterval sn 0 ((delayUnits sn - delayUnits k.lastSym) * k.period.toNat) k

/-- KEYBOARD with a symbol from the key: an automatic keyer without memory (R252). -/
def keyboardFromKey (sn : Sym) (k : Keyer) : Keyer :=
  match sn with
  | .dot => startDot k
  | .squeeze => startDot k
  | .dash => startDash k
  | _ => goIdle k

/-- KEYBOARD with a symbol from text: elements without their own space, delay markers (R252). SQUEEZE
and DOWN are never in `KB_SEQ` (R254; log entry 10). -/
def keyboardFromText (sn : Sym) (k : Keyer) : Keyer :=
  match sn with
  | .dot => startInterval .dot k.period.toNat 0 k
  | .dash => startInterval .dash (3 * k.period.toNat) 0 k
  | .elemDelay => startDelay .elemDelay k
  | .charDelay => startDelay .charDelay k
  | .wordDelay => startDelay .wordDelay k
  | _ => goIdle k

/-- KEYBOARD (R252). -/
def keyboardHandler (fromKey : Bool) (sn : Sym) (k : Keyer) : Keyer :=
  clearNext (if fromKey then keyboardFromKey sn k else keyboardFromText sn k)

/-- A paddle element, or idling when the symbol is no element (R256, R257). -/
def startElement (e : Sym) (k : Keyer) : Keyer :=
  match e with
  | .dot => startDot k
  | .dash => startDash k
  | _ => goIdle k

/-- ULTIMATIC's edge tracking: the paddle of the latest rising edge, the dot paddle at a tie (R256). -/
def ultimaticEdges (key : Key) (k : Keyer) : Keyer :=
  if dotRises key k then { k with ultLast := .dot }
  else if dashRises key k then { k with ultLast := .dash }
  else k

/-- ULTIMATIC (R256): edges at every invocation, a new element only when idle. -/
def ultimaticHandler (key : Key) (idle : Bool) (sn : Sym) (k : Keyer) : Keyer :=
  let k1 := ultimaticEdges key k
  if idle then startElement (if sn = .squeeze then k1.ultLast else sn) (clearNext k1) else k1

/-- The element a squeeze gives: the opposite of a dot just sent, else a dot (R257). -/
def squeezeElement (cur : Sym) : Sym := if cur = .dot then .dash else .dot

/-- IAMBIC A and B, idle branch: the element memory first (R257). -/
def iambicIdle (sn : Sym) (k : Keyer) : Keyer :=
  match k.nextSym with
  | .dot => clearNext (startDot k)
  | .dash => clearNext (startDash k)
  | _ => startElement (if sn = .squeeze then squeezeElement k.curSym else sn) k

/-- IAMBIC_A, busy branch: a rising edge of the opposite paddle is remembered (R258). -/
def iambicABusy (key : Key) (k : Keyer) : Keyer :=
  if k.curSym = .dot ∧ dashRises key k then { k with nextSym := .dash }
  else if k.curSym = .dash ∧ dotRises key k then { k with nextSym := .dot }
  else k

/-- IAMBIC_B, busy branch: the level of the opposite paddle is remembered (R259). -/
def iambicBBusy (key : Key) (k : Keyer) : Keyer :=
  if k.curSym = .dot ∧ dashClosed key then { k with nextSym := .dash }
  else if k.curSym = .dash ∧ dotClosed key then { k with nextSym := .dot }
  else k

/-- The handler of the active mode (R240). -/
def modeHandler (mode : Mode) (key : Key) (idle fromKey : Bool) (sn : Sym) (k : Keyer) : Keyer :=
  match mode with
  | .straight => straightHandler sn k
  | .bug => bugHandler sn k
  | .ultimatic => ultimaticHandler key idle sn k
  | .iambicA => if idle then iambicIdle sn k else iambicABusy key k
  | .iambicB => if idle then iambicIdle sn k else iambicBBusy key k
  | .keyboard => keyboardHandler fromKey sn k

/-- What a keyer invocation leaves: its registers, the text queue and the echo. -/
structure KeyerOut where
  keyer : Keyer
  txq : List Byte
  events : List Event
  deriving DecidableEq, Repr

/-- KEYER(mode, idle): symbol, handler, then `PREV_IN <- SH_KEY` (R240, R246). -/
def keyerStep (C : Config) (key : Key) (mode : Mode) (idle : Bool) (k : Keyer) (txq : List Byte) : KeyerOut :=
  let n := symbolNow C key mode k txq
  ⟨{ modeHandler mode key idle n.fromKey n.sym n.keyer with prevIn := key }, n.txq, n.events⟩

end Sys2Proof.Machine
end

