-- ==== Sys2Proof/Machine/Sample.lean ====
section
/-! DEFINITION. TXS: the sample producer, oscillator, envelope and break-in deadline
(45_tx_sample.md). -/

namespace Sys2Proof.Machine

/-- `INC_OF(f)`, rounded to nearest, modulo `2^32` (R296). -/
def incOf (C : Config) (f : BitVec 16) : BitVec 32 :=
  BitVec.ofNat 32 ((f.toNat * 2 ^ 32 + C.fsTx / 2) / C.fsTx)

/-- The oscillator retune of R291: the phase is kept (R297). -/
def retuneOsc (C : Config) (pitch : BitVec 16) (o : Osc) : Osc :=
  if o.freq ≠ pitch then { o with freq := pitch, inc := incOf C pitch } else o

/-- PENDING() (R292). -/
def pending (sh : Shadow) (k : Keyer) : Bool := sh.bytes ≠ 0 || k.kbPos < k.kbLen

/-- ACTIVE_MODE(): pending text forces KEYBOARD (R292). -/
def activeMode (sh : Shadow) (k : Keyer) : Mode := if pending sh k then .keyboard else sh.mode

/-- The paddle modes, polled through key-down and key-up (44_tx_keyer.md R242). -/
def polledContinuously : Mode → Bool
  | .straight => false
  | .bug => false
  | .ultimatic => true
  | .iambicA => true
  | .iambicB => true
  | .keyboard => false

/-- The keyer part of TXS: KEYER runs when idle or in a paddle mode (R291, R242). -/
def keyerPart (C : Config) (s : State) : KeyerOut :=
  let mode := activeMode s.sh s.keyer
  let idle := keyerIdle s.keyer
  if idle || polledContinuously mode then keyerStep C s.sh.key mode idle s.keyer s.txq
  else ⟨s.keyer, s.txq, []⟩

/-- ADVANCE(), the countdowns (R294). -/
def advanceKeyer (k : Keyer) : Keyer :=
  if k.kd ≠ 0 then { k with kd := k.kd - 1 }
  else if k.ku ≠ 0 then { k with ku := k.ku - 1 }
  else k

/-- ADVANCE(), the envelope: up on a key-down sample, down otherwise (R294). -/
def advanceEnv (C : Config) (keyed : Bool) (envR : BitVec 16) : BitVec 16 :=
  if keyed then BitVec.ofNat 16 (min (envR.toNat + 1) C.envRamp) else BitVec.ofNat 16 (envR.toNat - 1)

/-- OUTPUT(): `oscillator_sample × envelope ÷ 8` as a binary32 pattern, `+0.0` at envelope 0 (R298). -/
def outputSample (C : Config) (phase : BitVec 32) (envR : BitVec 16) : Word :=
  if envR = 0 then 0
  else C.numerics.f32 (f64Div (f64Mul (C.numerics.sin phase) (C.numerics.env envR.toNat)) (f64OfInt 8))

/-- The deadline step: a keyed sample or pending text extends it (R300, R301). -/
def deadline (s : State) (keyed : Bool) (k : Keyer) : BitVec 64 :=
  if keyed || pending s.sh k then s.msNow + s.sh.cwDelay.setWidth 64 else s.txUntil

/-- The registers after TXS (R291). -/
def txState (C : Config) (s : State) : State :=
  let out := keyerPart C s
  let keyed : Bool := out.keyer.kd ≠ 0
  let k := advanceKeyer out.keyer
  let o := retuneOsc C s.sh.pitch s.osc
  { s with
    keyer := k
    txq := out.txq
    events := s.events ++ out.events
    osc := { o with phase := o.phase + o.inc, envR := advanceEnv C keyed o.envR }
    txUntil := deadline s keyed k }

/-- The sample TXS returns: the phase before it advances, the envelope after (R298, R299). -/
def txValue (C : Config) (s : State) : Word :=
  outputSample C s.osc.phase (advanceEnv C ((keyerPart C s).keyer.kd ≠ 0) s.osc.envR)

/-- TXS with its check (R290, 60_exceptions.md R362). -/
def txsCommand (C : Config) (s : State) : Host.Outcome State Fault Refusal :=
  if s.inited = false then refuse .errNotInit s else accept (txValue C s) (txState C s)

/-- TXS (R290). -/
def execTxs (s : State) : Host.Outcome State Fault Refusal := txsCommand theConfig s

end Sys2Proof.Machine
end

