-- ==== Sys2Proof/Machine/Control.lean ====
section
/-! DEFINITION. INIT, POLL, WCFG, RDSTAT, ABORT (46_control.md). -/

namespace Sys2Proof.Machine

/-- The decoder registers INIT writes (R321); `SYM[*]` keeps its contents (R392). -/
def decoderInit (C : Config) (cfg : CfgRegs) (d : Decoder) : Decoder where
  lpfHist := List.replicate (C.lpfTaps.length - 1) 0
  bins := binInit C cfg.pitch
  pitch := cfg.pitch
  wpm := cfg.wpm
  dashLen := BitVec.ofNat 32 (initDash C cfg.wpm.toNat)
  highLevel := 0
  noiseFloor := BitVec.ofNat 64 nfMin
  streak := 0
  winBin := 7
  lastMag := 0
  sigState := false
  hist := 0
  mark := false
  prevMark := false
  wsFlag := true
  ticks := 0
  sym := d.sym
  symWr := 0

/-- The keyer registers INIT writes (R321); `KB_SEQ[*]` keeps its contents (R392). -/
def keyerInit (C : Config) (cfg : CfgRegs) (k : Keyer) : Keyer where
  curSym := .idle
  nextSym := .idle
  lastSym := .idle
  prevIn := .idle
  ultLast := .dot
  kd := 0
  ku := 0
  period := periodOf C cfg.wpm.toNat
  kbSeq := k.kbSeq
  kbLen := 0
  kbPos := 0

/-- The machine after an accepted INIT (R321): every register of the block but `CFG_*`, `CFG_W` and
the two unspecified buffers; nothing of the host's. -/
def initState (C : Config) (s : State) : State :=
  { s with
    inited := true
    sh := ⟨s.cfg.wpm, s.cfg.pitch, s.cfg.cwDelay, s.cfg.mode, .idle, 0⟩
    txUntil := 0
    dec := decoderInit C s.cfg s.dec
    keyer := keyerInit C s.cfg s.keyer
    osc := ⟨0, s.cfg.pitch, incOf C s.cfg.pitch, 0⟩ }

/-- INIT with its check (R321). -/
def initCommand (C : Config) (s : State) : Host.Outcome State Fault Refusal :=
  if s.cfg.written ≠ 0xF then refuse .errUnwritten s else accept 0 (initState C s)

/-- INIT (R321). -/
def execInit (s : State) : Host.Outcome State Fault Refusal := initCommand theConfig s

/-- POLL's latching: the key, the byte count and the settings; `PERIOD` follows a WPM change only
(R322). -/
def pollLatch (C : Config) (bytes : BitVec 16) (s : State) : State :=
  { s with
    sh := ⟨s.cfg.wpm, s.cfg.pitch, s.cfg.cwDelay, s.cfg.mode, s.keyIn, bytes⟩
    keyer := if s.cfg.wpm ≠ s.sh.wpm then { s.keyer with period := periodOf C s.cfg.wpm.toNat } else s.keyer }

/-- PTT_DECIDE(txon) on the latched state (R324). -/
def pttDecide (txOn : Bool) (s : State) : State :=
  if txOn = false ∧ (s.sh.key ≠ .idle ∨ s.sh.bytes ≠ 0) then
    emit [.pttOn] { s with txUntil := s.msNow + s.sh.cwDelay.setWidth 64 }
  else if txOn = true ∧ s.txUntil < s.msNow then emit [.pttOff] s
  else s

/-- POLL with its check (R322). -/
def pollCommand (C : Config) (txOn : Bool) (bytes : BitVec 16) (s : State) : Host.Outcome State Fault Refusal :=
  if s.inited = false then refuse .errNotInit s else accept 0 (pttDecide txOn (pollLatch C bytes s))

/-- POLL (R322). -/
def execPoll (txOn : Bool) (bytes : BitVec 16) (s : State) : Host.Outcome State Fault Refusal :=
  pollCommand theConfig txOn bytes s

/-- A configuration write's effect: the register and its written bit `i` (R326). -/
def writeConfig (i : Nat) (cfg : CfgRegs) (s : State) : State :=
  { s with cfg := { cfg with written := s.cfg.written ||| (1#4 <<< i) } }

/-- WCFG WPM: 0 has no dot length (R326). -/
def execWcfgWpm (v : BitVec 16) (s : State) : Host.Outcome State Fault Refusal :=
  if v = 0 then refuse .errRange s else accept 0 (writeConfig 0 { s.cfg with wpm := v } s)

/-- WCFG PITCH (R326). -/
def execWcfgPitch (v : BitVec 16) (s : State) : Host.Outcome State Fault Refusal :=
  accept 0 (writeConfig 1 { s.cfg with pitch := v } s)

/-- WCFG CW_DELAY (R326). -/
def execWcfgCwDelay (v : BitVec 16) (s : State) : Host.Outcome State Fault Refusal :=
  accept 0 (writeConfig 2 { s.cfg with cwDelay := v } s)

/-- WCFG MODE: values above 5 are reserved (R326). -/
def execWcfgMode (v : BitVec 16) (s : State) : Host.Outcome State Fault Refusal :=
  match modeOfValue v with
  | none => refuse .errRange s
  | some m => accept 0 (writeConfig 3 { s.cfg with mode := m } s)

/-- An index of 0x30..0x33 whose configuration register was never written (R327). -/
def unwrittenIndex (s : State) (index : BitVec 8) : Bool :=
  0x30 ≤ index.toNat && index.toNat ≤ 0x33 && !s.cfg.written.getLsbD (index.toNat - 0x30)

/-- RDSTAT: range, then INITED, then the written bit, then the value (R327, 60_exceptions.md R363). -/
def execRdstat (index : BitVec 8) (s : State) : Host.Outcome State Fault Refusal :=
  match statusValue s index with
  | none => refuse .errRange s
  | some v =>
    if index.toNat < 0x30 ∧ s.inited = false then refuse .errNotInit s
    else if unwrittenIndex s index then refuse .errUnwritten s
    else accept v s

/-- ABORT: an architectural no-op (R328). -/
def execAbort (s : State) : Host.Outcome State Fault Refusal :=
  if s.inited = false then refuse .errNotInit s else accept 0 s

end Sys2Proof.Machine
end

