-- ==== Sys2Proof/Machine/Dispatch.lean ====
section
/-! DEFINITION. One arm per command: each calls its meaning. -/

namespace Sys2Proof.Machine

def exec (i : Instr) (s : State) : Host.Outcome State Fault Refusal :=
  match i with
  | .init => Sys2Proof.Machine.execInit s
  | .poll txIsOn bytes => Sys2Proof.Machine.execPoll txIsOn bytes s
  | .txs => Sys2Proof.Machine.execTxs s
  | .rxb count samples => Sys2Proof.Machine.execRxb count samples s
  | .abort => Sys2Proof.Machine.execAbort s
  | .wcfgWpm v => Sys2Proof.Machine.execWcfgWpm v s
  | .wcfgPitch v => Sys2Proof.Machine.execWcfgPitch v s
  | .wcfgCwDelay v => Sys2Proof.Machine.execWcfgCwDelay v s
  | .wcfgMode v => Sys2Proof.Machine.execWcfgMode v s
  | .rdstat index => Sys2Proof.Machine.execRdstat index s

end Sys2Proof.Machine
end

