-- ==== Sys2Proof/Machine/Fetch.lean ====
section
/-! DEFINITION. Taking the next command off the command port (46_control.md R320): the host's actions
before it, then the command word and its payload (log entries 1 and 13). -/

namespace Sys2Proof.Machine

/-- The contiguous words at the head of the input: a host action cannot occur during a command (R373),
so it ends them. -/
def portWords : List HostItem → List Word
  | .word w :: rest => w :: portWords rest
  | _ => []

/-- What the block finds on its command port. -/
inductive Fetched where
  /-- No whole command: the block holds its state (60_exceptions.md R376). -/
  | idle (s : State)
  /-- An illegal word, consumed with its payload (R106). -/
  | illegal (s : State)
  /-- A command, consumed from the port. -/
  | command (i : Instr) (s : State)
  deriving DecidableEq, Repr

/-- Drop `n` words from the input. -/
def consume (n : Nat) (s : State) : State := { s with input := s.input.drop n }

/-- The host's pending actions, then the head of the command port (R320, R373). -/
def fetch (s : State) : Fetched :=
  let s1 := hostActions s.input s
  match decode (portWords s1.input) with
  | .incomplete => .idle s1
  | .illegal _ n => .illegal (consume n s1)
  | .command i n => .command i (consume n s1)

/-- The answer to an illegal word (R106, R320). -/
def illegalCommand (s : State) : Host.Outcome State Fault Refusal := refuse .errIllegal s

/-- The command port with an instruction's words in front. -/
def placeWords (ws : List Word) (s : State) : State := { s with input := ws.map HostItem.word ++ s.input }

end Sys2Proof.Machine
end

