-- ==== Sys2Proof/Machine/Step.lean ====
section
/-! DEFINITION. One step: the host's actions up to its next command, then that command, atomically
(46_control.md R320, 20_memory.md R84). -/

namespace Sys2Proof.Machine

/-- EXECUTE (R320). With no whole command on the port the block holds its state (R376). -/
def step (s : State) : Host.Outcome State Fault Refusal :=
  match fetch s with
  | .idle s' => .next s'
  | .illegal s' => illegalCommand s'
  | .command i s' => exec i s'

/-- The state with an instruction's words next on the command port (log entry 1). -/
def State.withFetchWord (s : State) (nbits w : Nat) : State := placeWords (tableWords nbits w) s

end Sys2Proof.Machine
end

