-- ==== Sys2Proof/Machine/Assembly.lean ====
section
/-! DEFINITION. The spec's notation for the host's stream (30_encoding.md R111, R112): the assembler's
lines and the pseudo-instructions, each as what the host puts on the ports. Nothing here is a step of
the block. -/

namespace Sys2Proof.Machine

/-- Issuing a command: its words on the command port (R111). -/
def issue (i : Instr) : List HostItem := (encode i).map HostItem.word

/-- `RXSIL t`: `t` ticks of silence (R112). -/
def rxSilence (C : Config) (t : Nat) : List HostItem :=
  issue (.rxb (BitVec.ofNat 16 (t * C.tickSamples)) (List.replicate (t * C.tickSamples) 0))

/-- `round(a·sin(2π·f·j/FS_IN))`, half away from zero, from the fixed-point sine; the added `2^16` units
make an exact half round away although the fixed-point sine is rounded down (R112). -/
def toneSample (C : Config) (f a j : Nat) : Word :=
  let angle := 4 * fxHalfPi * (f * j % C.fsIn) / C.fsIn
  let (k, rneg, rabs) := reduceHalfPi angle
  let (neg, v) := quadrantSin k rneg rabs
  let mag : Int := ((a * (v + 2 ^ 16) + 2 ^ (fxBits - 1)) >>> fxBits : Nat)
  BitVec.ofInt 32 (if neg then -mag else mag)

/-- `RXTONE t, f, a`: `t` ticks of a tone (R112). -/
def rxTone (C : Config) (t f a : Nat) : List HostItem :=
  issue (.rxb (BitVec.ofNat 16 (t * C.tickSamples))
    ((List.range (t * C.tickSamples)).map (toneSample C f a)))

/-- `TXS*n`: `n` consecutive TXS commands (R112). -/
def txsTimes (n : Nat) : List HostItem := (List.replicate n (issue .txs)).flatten

/-- `POLLKEY k, bytes, txon`: the host sets `KEY_IN`, then POLL (R112). -/
def pollKey (k : Key) (bytes : BitVec 16) (txOn : Bool) : List HostItem :=
  .setKey k :: issue (.poll txOn bytes)

/-- Separators of an assembly line: blanks, commas and the brackets of a sample list (R111). -/
def isSeparator (c : Char) : Bool := c = ' ' || c = ',' || c = '[' || c = ']'

/-- The tokens of a line up to its `;` comment; `cur` is the token being read, newest character first. -/
def tokensFrom : List Char → List Char → List (List Char)
  | [], cur => if cur = [] then [] else [cur.reverse]
  | c :: cs, cur =>
    if c = ';' then (if cur = [] then [] else [cur.reverse])
    else if isSeparator c then (if cur = [] then tokensFrom cs [] else cur.reverse :: tokensFrom cs [])
    else tokensFrom cs (c :: cur)

/-- A digit's value below the base. -/
def digitValue (base : Nat) (c : Char) : Option Nat :=
  let v :=
    if '0' ≤ c ∧ c ≤ '9' then c.toNat - 48
    else if 'a' ≤ c ∧ c ≤ 'f' then c.toNat - 87
    else if 'A' ≤ c ∧ c ≤ 'F' then c.toNat - 55
    else base
  if v < base then some v else none

/-- Digits in a base, after those already read. -/
def digitsFrom (base : Nat) : List Char → Nat → Option Nat
  | [], acc => some acc
  | c :: cs, acc =>
    match digitValue base c with
    | some v => digitsFrom base cs (acc * base + v)
    | none => none

/-- A decimal or `0x` hexadecimal operand (R111). -/
def number : List Char → Option Nat
  | [] => none
  | ['0', 'x'] => none
  | '0' :: 'x' :: ds => digitsFrom 16 ds 0
  | ds => digitsFrom 10 ds 0

/-- A sample operand; it may be negative (R101: two's complement). -/
def sampleWord : List Char → Option Word
  | '-' :: ds => (number ds).map (fun n => BitVec.ofInt 32 (-(n : Int)))
  | ds => (number ds).map (BitVec.ofNat 32)

/-- A 16-bit operand. -/
def imm16 (t : List Char) : Option (BitVec 16) :=
  match number t with
  | some n => if n < 2 ^ 16 then some (BitVec.ofNat 16 n) else none
  | none => none

/-- A MODE value, by number or by name (R111). -/
def modeOperand (t : List Char) : Option (BitVec 16) :=
  if t = ['S', 'T', 'R', 'A', 'I', 'G', 'H', 'T'] then some 0
  else if t = ['B', 'U', 'G'] then some 1
  else if t = ['U', 'L', 'T', 'I', 'M', 'A', 'T', 'I', 'C'] then some 2
  else if t = ['I', 'A', 'M', 'B', 'I', 'C', '_', 'A'] then some 3
  else if t = ['I', 'A', 'M', 'B', 'I', 'C', '_', 'B'] then some 4
  else if t = ['K', 'E', 'Y', 'B', 'O', 'A', 'R', 'D'] then some 5
  else imm16 t

/-- `WCFG <reg>, <value>` (R111). -/
def assembleConfig (reg value : List Char) : Option Instr :=
  if reg = ['W', 'P', 'M'] then (imm16 value).map .wcfgWpm
  else if reg = ['P', 'I', 'T', 'C', 'H'] then (imm16 value).map .wcfgPitch
  else if reg = ['C', 'W', '_', 'D', 'E', 'L', 'A', 'Y'] then (imm16 value).map .wcfgCwDelay
  else if reg = ['M', 'O', 'D', 'E'] then (modeOperand value).map .wcfgMode
  else none

/-- `POLL <bytes>, <txon>` (R111). -/
def assemblePoll (bytes txOn : List Char) : Option Instr :=
  match imm16 bytes, number txOn with
  | some b, some 0 => some (.poll false b)
  | some b, some 1 => some (.poll true b)
  | _, _ => none

/-- `RXB <count>, [s0, s1, ...]` with exactly `count` samples (R111). -/
def assembleRxb (count : List Char) (samples : List (List Char)) : Option Instr :=
  match imm16 count, samples.mapM sampleWord with
  | some c, some ws => if ws.length = c.toNat then some (.rxb c ws) else none
  | _, _ => none

/-- `RDSTAT <index>` (R111). -/
def assembleRdstat (index : List Char) : Option Instr :=
  match number index with
  | some n => if n < 2 ^ 8 then some (.rdstat (BitVec.ofNat 8 n)) else none
  | none => none

/-- The pseudo-instructions that are another spelling of one WCFG (R112). -/
def assembleSetting (m value : List Char) : Option Instr :=
  if m = ['S', 'E', 'T', 'W', 'P', 'M'] then (imm16 value).map .wcfgWpm
  else if m = ['S', 'E', 'T', 'P', 'I', 'T', 'C', 'H'] then (imm16 value).map .wcfgPitch
  else if m = ['S', 'E', 'T', 'D', 'E', 'L', 'A', 'Y'] then (imm16 value).map .wcfgCwDelay
  else if m = ['S', 'E', 'T', 'M', 'O', 'D', 'E'] then (modeOperand value).map .wcfgMode
  else if m = ['R', 'D', 'S', 'T', 'A', 'T'] then assembleRdstat value
  else none

/-- The command of a line's tokens. -/
def assembleTokens : List (List Char) → Option Instr
  | [['I', 'N', 'I', 'T']] => some .init
  | [['T', 'X', 'S']] => some .txs
  | [['A', 'B', 'O', 'R', 'T']] => some .abort
  | [m, v] => if m = ['R', 'X', 'B'] then assembleRxb v [] else assembleSetting m v
  | ['P', 'O', 'L', 'L'] :: [b, t] => assemblePoll b t
  | ['W', 'C', 'F', 'G'] :: [r, v] => assembleConfig r v
  | ['R', 'X', 'B'] :: c :: ss => assembleRxb c ss
  | _ => none

/-- One line of the assembly syntax (R111). -/
def assembleLine (line : List Char) : Option Instr := assembleTokens (tokensFrom line [])

end Sys2Proof.Machine
end

