-- ==== Sys2Proof/Machine/Configured.lean ====
section
/-! DEFINITION. The machine for any configuration (00_scope.md R7: "The model takes the configuration
record below as an argument"), and which configurations are legal. `exec`, `step`, `State.reset` and
`core`, whose types the host fixes, are the instance at `theConfig`. -/

namespace Sys2Proof.Machine

/-- A command's meaning on a block of configuration `C`. WCFG, RDSTAT and ABORT read no parameter. -/
def execWith (C : Config) (i : Instr) (s : State) : Host.Outcome State Fault Refusal :=
  match i with
  | .init => initCommand C s
  | .poll txIsOn bytes => pollCommand C txIsOn bytes s
  | .txs => txsCommand C s
  | .rxb count samples => rxbCommand C count samples s
  | .abort => execAbort s
  | .wcfgWpm v => execWcfgWpm v s
  | .wcfgPitch v => execWcfgPitch v s
  | .wcfgCwDelay v => execWcfgCwDelay v s
  | .wcfgMode v => execWcfgMode v s
  | .rdstat index => execRdstat index s

/-- One step of a block of configuration `C` (46_control.md R320). -/
def stepWith (C : Config) (s : State) : Host.Outcome State Fault Refusal :=
  match fetch s with
  | .idle s' => .next s'
  | .illegal s' => illegalCommand s'
  | .command i s' => execWith C i s'

/-- The block of configuration `C` as a machine. -/
def coreWith (C : Config) : Host.Core :=
  { State := State, Fault := Fault, Refusal := Refusal, step := stepWith C, reset := State.resetWith C }

/-- The angular frequency of a bin at `f` Hz in real arithmetic (41_rx_detector.md R165, R169). -/
def IsBinAngle (C : Config) (f : Int) (ω : ℝ) : Prop :=
  if C.binKRounding then ω = 2 * Real.pi * (((2 * C.n * f + C.fsD) / (2 * C.fsD) : Int) : ℝ) / C.n
  else ω = 2 * Real.pi * (f : ℝ) / C.fsD

/-- A decimated sample in the range of R164. -/
def decimatedInRange (C : Config) (y : Int) : Bool :=
  y.natAbs * 2 ^ C.lpfQ ≤ 2 ^ 31 * (C.lpfTaps.map Int.natAbs).sum

/-- A bin that `BIN[i]` can hold: one of the five that BIN_INIT gives for some 16-bit pitch (R165, R166). -/
def IsTunedBin (C : Config) (b : Bin) : Prop :=
  ∃ pitch : BitVec 16, b = (binInit C pitch).b0 ∨ b = (binInit C pitch).b1 ∨ b = (binInit C pitch).b2 ∨
    b = (binInit C pitch).b3 ∨ b = (binInit C pitch).b4

/-- Silence has magnitude 0 in every bin, the first property of R170. -/
def GoertzelSilent (C : Config) : Prop :=
  ∀ b : Bin, IsTunedBin C b → C.numerics.goertzel b (List.replicate C.n 0) = 0

/-- For every bin and every block of decimated samples in range, the magnitude is within `bound` of the exact
one of R169, rounded down. -/
def GoertzelWithin (C : Config) (bound : Nat) : Prop :=
  ∀ (b : Bin) (ω : ℝ) (d : List Int), IsTunedBin C b → IsBinAngle C b.freq ω → d.length = C.n →
    d.all (decimatedInRange C) = true →
    let exact : ℝ := 2 / C.n *
      ‖∑ j : Fin d.length, (d[j] : ℂ) * Complex.exp (-((ω * (j : ℕ) : ℝ) : ℂ) * Complex.I)‖
    |(C.numerics.goertzel b d : Int) - ⌊exact⌋| ≤ (bound : Int)

/-- What R170 states of `GOERTZEL`: silence has magnitude 0, and the magnitude keeps a bound. The bound is 1
for the reference; another `GOERTZEL` has a bound of its own (93_implementation_defined.md §3). -/
def GoertzelLegal (C : Config) (bound : Nat) : Prop := GoertzelSilent C ∧ GoertzelWithin C bound

/-- The properties of `ENV` that R295 states, on binary64 patterns of non-negative values, whose order is the
order of the patterns: 0 at the foot, 1 at the top, increasing. R295 does not say whether "increasing" is
strict; it is taken as strict, as the closed form is and as R299's non-zero first keyed sample needs
(DEDUCED, log entry 17). -/
def EnvelopeLegal (C : Config) : Prop :=
  C.numerics.env 0 = 0 ∧ C.numerics.env C.envRamp = 0x3FF0000000000000 ∧
  ∀ r : Nat, r < C.envRamp → (C.numerics.env r).toNat < (C.numerics.env (r + 1)).toNat

/-- The properties of the output that R298 states for `SIN`, `ENV` and `F32` together, on binary32 patterns:
magnitude at most 1/8, `+0.0` at phase 0, and exactly 1/8 at a quarter turn and full envelope. -/
def OutputLegal (C : Config) : Prop :=
  (∀ (phase : BitVec 32) (envR : BitVec 16), envR.toNat ≤ C.envRamp →
    (outputSample C phase envR).toNat % 2 ^ 31 ≤ 0x3E000000) ∧
  (∀ envR : BitVec 16, envR.toNat ≤ C.envRamp → outputSample C 0 envR = 0) ∧
  outputSample C 0x40000000 (BitVec.ofNat 16 C.envRamp) = 0x3E000000

/-- A configuration that meets the whole constraint column of R7, its `GOERTZEL` with the given bound: the
checkable part, and the properties of the numerics that R170, R295 and R298 state. What the spec says of the
reference is `LegalConfig theConfig 1` (log entry 3). -/
def LegalConfig (C : Config) (bound : Nat) : Prop :=
  C.ok = true ∧ GoertzelLegal C bound ∧ EnvelopeLegal C ∧ OutputLegal C

end Sys2Proof.Machine
end

