-- ==== Sys2Proof/Safety.lean ====
section
/-! DEFINITION. What a good state and a safe run of this machine are, in the terms the statements use. -/

namespace Sys2Proof.Safety

open Sys2Proof.Machine

/-- The outcome is a next state: the machine neither faults nor refuses (60_exceptions.md R360). -/
def Completes (o : Host.Outcome State Fault Refusal) : Prop := ∃ t, o = .next t

/-- `NEXT_SYM ∈ {IDLE, DOT, DASH}` (44_tx_keyer.md R261). -/
def memoryElement : Sym → Bool
  | .idle => true
  | .dot => true
  | .dash => true
  | .squeeze => false
  | .down => false
  | .elemDelay => false
  | .charDelay => false
  | .wordDelay => false

/-- The decoder clauses of 10_state.md R48. -/
structure DecoderInvariant (C : Config) (d : Decoder) : Prop where
  floorMin : nfMin ≤ d.noiseFloor.toNat
  dashLow : initDash C d.wpm.toNat ≤ 2 * d.dashLen.toNat
  dashHigh : d.dashLen.toNat ≤ 2 * initDash C d.wpm.toNat
  symIndex : d.symWr < C.symCap
  streakMax : d.streak.toNat ≤ C.streakMax
  winBin : d.winBin.toNat < 5 ∨ d.winBin = 7

/-- The keyer clauses of R48 and R261. -/
structure KeyerInvariant (C : Config) (k : Keyer) : Prop where
  kbPos : k.kbPos ≤ k.kbLen
  kbLen : k.kbLen ≤ C.kbCap
  curSym : k.curSym ≠ .squeeze
  nextSym : memoryElement k.nextSym = true

/-- The arrays keep the lengths 10_state.md gives them (R37, R41, R43). -/
structure ArraysSized (C : Config) (s : State) : Prop where
  lpfHist : s.dec.lpfHist.length = C.lpfTaps.length - 1
  sym : s.dec.sym.length = C.symCap
  kbSeq : s.keyer.kbSeq.length = C.kbCap

/-- The machine's invariant: array lengths and the legal values of `CFG_WPM` always (R33), the
invariants of R48 and R261 once `INITED = 1`. -/
structure Invariant (C : Config) (s : State) : Prop where
  arrays : ArraysSized C s
  cfgWpm : s.cfg.written.getLsbD 0 = true → s.cfg.wpm ≠ 0
  decoder : s.inited = true → DecoderInvariant C s.dec
  keyer : s.inited = true → KeyerInvariant C s.keyer
  ramp : s.inited = true → s.osc.envR.toNat ≤ C.envRamp

/-- The machine with its event log and result port emptied: its registers and input ports. -/
def registers (s : State) : State := { s with events := [], results := [] }

/-- The word-space output of 43_rx_segment_match.md R214. -/
def wordSpace : Event := .con .rx [0x20#8]

/-- No two consecutive word-spaces, and none at the front when the last output already was one. -/
def spacesSeparated : Bool → List Event → Prop
  | _, [] => True
  | last, e :: es => (last = true → e ≠ wordSpace) ∧ spacesSeparated (decide (e = wordSpace)) es

/-- Whether the last output was a word-space, given whether the one before these events was; unchanged
when nothing was output (43_rx_segment_match.md R214, R222). -/
def lastWasSpace : Bool → List Event → Bool
  | last, [] => last
  | _, e :: es => lastWasSpace (decide (e = wordSpace)) es

/-- The gap each symbol leaves, in dot lengths: the target of a delay marker, 0 for any other symbol
(44_tx_keyer.md R255). -/
def gapTable : List (Sym × Nat) :=
  [(.idle, 0), (.dot, 0), (.dash, 0), (.squeeze, 0), (.down, 0), (.elemDelay, 1), (.charDelay, 3), (.wordDelay, 7)]

/-- The symbols of a code string (44_tx_keyer.md R254). -/
def codeSymbols (code : List TxElem) : List Sym :=
  code.flatMap (fun e => match e with
    | .dot => [.dot, .elemDelay]
    | .dash => [.dash, .elemDelay]
    | .sep => [.charDelay]) ++ [.charDelay]

/-- The codes of a key state (30_encoding.md R103). -/
def keyNumber : Key → Nat
  | .idle => 0
  | .dot => 1
  | .dash => 2
  | .squeeze => 3

/-- The codes of a keyer symbol (R104). -/
def symNumber : Sym → Nat
  | .idle => 0
  | .dot => 1
  | .dash => 2
  | .squeeze => 3
  | .down => 4
  | .elemDelay => 5
  | .charDelay => 6
  | .wordDelay => 7

/-- The codes of a keying mode (R104). -/
def modeNumber : Mode → Nat
  | .straight => 0
  | .bug => 1
  | .ultimatic => 2
  | .iambicA => 3
  | .iambicB => 4
  | .keyboard => 5

/-- The `MARK` outputs of the denoiser on a sequence of `SIG_STATE` values (42_rx_levels.md R196). -/
def denoiseRun : List Bool → Decoder → List Bool
  | [], _ => []
  | b :: bs, d =>
    let d' := denoise { d with sigState := b }
    d'.mark :: denoiseRun bs d'

/-- The bin INIT and a retune give for `f` Hz at the reference parameters, for the configuration's
library functions (41_rx_detector.md R165). -/
def referenceBinAt (f : Int) : Bin :=
  let ω := f64Div (f64Mul (f64Mul (f64OfInt 2) 0x400921FB54442D18#64) (f64OfInt f)) (f64OfInt 12000)
  ⟨f, theConfig.numerics.cos64 ω, theConfig.numerics.sin64 ω, f64Mul (f64OfInt 2) (theConfig.numerics.cos64 ω)⟩

/-- The status registers of the map of R327 with index below 0x30, zero-extended or saturated. -/
def statusMap (s : State) : List (BitVec 8 × Nat) :=
  [(0x00, s.dec.dashLen.toNat), (0x01, s.dec.wpm.toNat), (0x02, s.dec.pitch.toNat),
   (0x03, min s.dec.highLevel.toNat 0xFFFFFFFF), (0x04, min s.dec.noiseFloor.toNat 0xFFFFFFFF),
   (0x05, s.dec.streak.toNat), (0x06, s.dec.winBin.toNat), (0x07, min s.dec.lastMag.toNat 0xFFFFFFFF),
   (0x08, s.dec.sigState.toNat + 2 * s.dec.mark.toNat + 4 * s.dec.prevMark.toNat +
      8 * s.dec.wsFlag.toNat + 16 * s.dec.hist.toNat),
   (0x09, s.dec.ticks.toNat), (0x0A, s.dec.symWr),
   (0x10, symNumber s.keyer.curSym), (0x11, symNumber s.keyer.nextSym),
   (0x12, symNumber s.keyer.lastSym), (0x13, keyNumber s.keyer.prevIn),
   (0x14, symNumber s.keyer.ultLast), (0x15, s.keyer.kd.toNat), (0x16, s.keyer.ku.toNat),
   (0x17, s.keyer.period.toNat), (0x18, s.osc.envR.toNat), (0x19, s.keyer.kbPos),
   (0x1A, s.keyer.kbLen), (0x1B, s.osc.phase.toNat), (0x1C, s.osc.freq.toNat), (0x1D, s.osc.inc.toNat),
   (0x20, s.sh.wpm.toNat), (0x21, s.sh.pitch.toNat), (0x22, s.sh.cwDelay.toNat),
   (0x23, modeNumber s.sh.mode), (0x24, keyNumber s.sh.key), (0x25, s.sh.bytes.toNat),
   (0x26, s.txUntil.toNat % 2 ^ 32), (0x27, s.txUntil.toNat / 2 ^ 32)]

end Sys2Proof.Safety
end

