-- ==== Sys2Proof/Certificates/Slice0/Obligations.lean ====
section
/-! DEFINITION. The statements about the machine, for the provers. Each docstring names the rule of
spec/ it formalises. The reference values of 00_scope.md R7 (`FS_D = 12000`, `N = 128`, `DECIM = 8`,
`FS_TX = 96000`, `ENV_RAMP = 480`, ...) stand as numbers, because `exec` runs that configuration (log
entry 3). No statement rests on what `sin64` and `cos64` answer (log entry 4). -/

open Sys2Proof Sys2Proof.Machine Sys2Proof.Safety

/-! ### Encoding -/

/-- Decoding the words of any well-formed command, whatever follows them on the port, gives the command
back and consumes exactly its words (30_encoding.md R100, R101, R105, R107). -/
def Obligations.DecodeEncodeRoundTrip : Prop :=
  ∀ (i : Instr) (rest : List Word), i.wf = true →
    decode (encode i ++ rest) = .command i (encode i).length

/-- A word sequence has one meaning: what decodes to a command is that command's encoding, and the
command is well formed (R101, R105, R110). -/
def Obligations.DecodedWordsAreTheCommandsEncoding : Prop :=
  ∀ (ws : List Word) (i : Instr) (n : Nat), decode ws = .command i n →
    i.wf = true ∧ ws.take n = encode i

/-- The decoder accepts a word exactly when it matches a row of spec/opcode_table.json, whose match and
mask values stand here (R105, R106, R110). -/
def Obligations.LegalWordsAreTheOpcodeTableRows : Prop :=
  ∀ (w : Word) (payload : List Word), (∃ i, decodeCommand w payload = .ok i) ↔
    (w = 0x10000000#32 ∨ w &&& 0xFFFE0000#32 = 0x20000000#32 ∨ w = 0x30000000#32 ∨
      w &&& 0xFFFF0000#32 = 0x40000000#32 ∨ w = 0x50000000#32 ∨
      w &&& 0xFFFF0000#32 = 0x60000000#32 ∨ w &&& 0xFFFF0000#32 = 0x61000000#32 ∨
      w &&& 0xFFFF0000#32 = 0x62000000#32 ∨ w &&& 0xFFFF0000#32 = 0x63000000#32 ∨
      w &&& 0xFFFFFF00#32 = 0x70000000#32)

/-- The operands of every row sit where R100 and R107 put them, with no bit dropped or moved (R107). -/
def Obligations.OperandsSitInTheirFields : Prop :=
  ∀ (v : BitVec 16) (index : BitVec 8) (payload : List Word),
    decodeCommand (0x20000000#32 ||| v.setWidth 32) payload = .ok (.poll false v) ∧
    decodeCommand (0x20010000#32 ||| v.setWidth 32) payload = .ok (.poll true v) ∧
    decodeCommand (0x40000000#32 ||| v.setWidth 32) payload = .ok (.rxb v payload) ∧
    decodeCommand (0x60000000#32 ||| v.setWidth 32) payload = .ok (.wcfgWpm v) ∧
    decodeCommand (0x61000000#32 ||| v.setWidth 32) payload = .ok (.wcfgPitch v) ∧
    decodeCommand (0x62000000#32 ||| v.setWidth 32) payload = .ok (.wcfgCwDelay v) ∧
    decodeCommand (0x63000000#32 ||| v.setWidth 32) payload = .ok (.wcfgMode v) ∧
    decodeCommand (0x70000000#32 ||| index.setWidth 32) payload = .ok (.rdstat index)

/-- A few words, written from the encoding of R105, decode as the decoding table of 95_test_vectors.md
§2.1 says, and an RXB of two samples takes two payload words (R101, R105, R106, R110). -/
def Obligations.DecoderReadsTheSpecsWords : Prop :=
  decodeTableWord 32 0x10000000 = some .init ∧
  decodeTableWord 32 0x20010005 = some (.poll true 5) ∧
  decodeTableWord 32 0x30000000 = some .txs ∧
  decodeTableWord 32 0x40000002 = some (.rxb 2 [0, 0]) ∧
  decodeTableWord 32 0x50000000 = some .abort ∧
  decodeTableWord 32 0x610002BC = some (.wcfgPitch 700) ∧
  decodeTableWord 32 0x700000FF = some (.rdstat 0xFF) ∧
  decodeTableWord 32 0x00000000 = none ∧
  decodeTableWord 32 0x20020000 = none ∧
  decodeTableWord 32 0x64000000 = none

/-- Words survive the byte transport, which sends each word least significant byte first
(20_memory.md R82). -/
def Obligations.LittleEndianTransportKeepsWords : Prop :=
  ∀ (w : Word) (ws : List Word), wordsOfBytes (bytesOfWords ws) = ws ∧
    (bytesOfWords (w :: ws)).map BitVec.toNat =
      [w.toNat % 256, w.toNat / 256 % 256, w.toNat / 65536 % 256, w.toNat / 16777216] ++
        (bytesOfWords ws).map BitVec.toNat

/-! ### Steps, host actions, errors -/

/-- When the words at the command port decode to a command, the step is the command's meaning on the
state with the host's earlier actions taken and the command's words consumed (46_control.md R320). -/
def Obligations.StepRunsTheDecodedCommand : Prop :=
  ∀ (s s1 : State) (i : Instr) (n : Nat), hostActions s.input s = s1 →
    decode (portWords s1.input) = .command i n → step s = exec i { s1 with input := s1.input.drop n }

/-- The host's actions before a command are seen by it, in order, and the command's words, payload
included, are consumed; setting `KEY_IN` or `MS_NOW`, appending a byte to `TXQ`, emptying `TXQ` and removing
the oldest events do that and nothing else (60_exceptions.md R373, R375 (5), 46_control.md R328,
30_encoding.md R101; the input as one list, the removal of the oldest and the emptying of `TXQ` are log
entries 1, 14 and 16). -/
def Obligations.HostActionsAreSeenByTheNextCommand : Prop :=
  (∀ (acts : List HostItem) (i : Instr) (rest : List HostItem) (s : State),
    (∀ a ∈ acts, ∀ w, a ≠ HostItem.word w) → i.wf = true →
    s.input = acts ++ (issue i ++ rest) →
    step s = exec i { acts.foldl (fun t a => hostAction a t) s with input := rest }) ∧
  ∀ (k : Key) (now : BitVec 64) (b : Byte) (n : Nat) (s : State),
    hostAction (.setKey k) s = { s with keyIn := k } ∧
    hostAction (.setNow now) s = { s with msNow := now } ∧
    hostAction (.queueText b) s = { s with txq := s.txq ++ [b] } ∧
    hostAction .clearText s = { s with txq := [] } ∧
    hostAction (.takeEvents n) s = { s with events := s.events.drop n }

/-- An illegal word is refused with `ERR_ILLEGAL` and consumed with its payload, and nothing else
changes (R106, R320, R361). -/
def Obligations.IllegalWordIsRefusedWithItsPayload : Prop :=
  ∀ (w : Word) (payload : List Word) (rest : List HostItem) (s : State) (why : Illegal),
    decodeCommand w payload = .error why → payload.length = payloadLength w →
    s.input = (w :: payload).map HostItem.word ++ rest →
    step s = .next { s with input := rest, results := s.results ++ [⟨.errIllegal, 0⟩] }

/-- With nothing on the command port the block holds its state (60_exceptions.md R376). -/
def Obligations.IdleBlockHoldsItsState : Prop :=
  ∀ s : State, s.input = [] → step s = .next s

/-- No command and no step ever stops the machine: there is no trap and no fault (60_exceptions.md
R360, 20_memory.md R91). -/
def Obligations.NothingEverStopsTheMachine : Prop :=
  (∀ (i : Instr) (s : State), Completes (exec i s)) ∧ ∀ s : State, Completes (step s)

/-- Every command answers exactly one result, and a refused command (status other than OK) answers
value 0 and changes nothing else (60_exceptions.md R361, 30_encoding.md R102). -/
def Obligations.RefusedCommandChangesNothing : Prop :=
  ∀ (i : Instr) (s t : State), exec i s = .next t →
    ∃ (st : Status) (v : Word), t.results = s.results ++ [⟨st, v⟩] ∧
      (st ≠ .ok → v = 0 ∧ t = { s with results := s.results ++ [⟨st, 0⟩] })

/-- Before the first INIT, POLL, TXS, RXB (whatever its count), ABORT and RDSTAT of every mapped index
below 0x30 are refused with `ERR_NOT_INIT` (R34, R362, R363). -/
def Obligations.HotPathRefusedBeforeInit : Prop :=
  ∀ (s : State) (txOn : Bool) (v : BitVec 16) (x : List Word), s.inited = false →
    exec (.poll txOn v) s = .next { s with results := s.results ++ [⟨.errNotInit, 0⟩] } ∧
    exec .txs s = .next { s with results := s.results ++ [⟨.errNotInit, 0⟩] } ∧
    exec (.rxb v x) s = .next { s with results := s.results ++ [⟨.errNotInit, 0⟩] } ∧
    exec .abort s = .next { s with results := s.results ++ [⟨.errNotInit, 0⟩] } ∧
    ∀ p ∈ statusMap s,
      exec (.rdstat p.1) s = .next { s with results := s.results ++ [⟨.errNotInit, 0⟩] }

/-! ### INIT, POLL, WCFG, RDSTAT, ABORT -/

/-- INIT with all four configuration registers written gives every register its INIT value, keeps
`CFG_*`, `SYM[*]`, `KB_SEQ[*]` and the host's ports, and otherwise is refused with `ERR_UNWRITTEN`
(46_control.md R321, R223, R247, R296). -/
def Obligations.InitGivesEveryRegisterItsValue : Prop :=
  ∀ s : State,
    (s.cfg.written = 0xF#4 →
      exec .init s = .next
        { s with
          inited := true
          sh := ⟨s.cfg.wpm, s.cfg.pitch, s.cfg.cwDelay, s.cfg.mode, .idle, 0⟩
          txUntil := 0
          dec :=
            { lpfHist := [0, 0, 0, 0, 0, 0, 0]
              bins :=
                ⟨referenceBinAt (s.cfg.pitch.toNat - 100),
                  referenceBinAt (s.cfg.pitch.toNat - 50),
                  referenceBinAt s.cfg.pitch.toNat,
                  referenceBinAt (s.cfg.pitch.toNat + 50),
                  referenceBinAt (s.cfg.pitch.toNat + 100)⟩
              pitch := s.cfg.pitch
              wpm := s.cfg.wpm
              dashLen := BitVec.ofNat 32 (216000 / (640 * s.cfg.wpm.toNat))
              highLevel := 0
              noiseFloor := 100
              streak := 0
              winBin := 7
              lastMag := 0
              sigState := false
              hist := 0
              mark := false
              prevMark := false
              wsFlag := true
              ticks := 0
              sym := s.dec.sym
              symWr := 0 }
          keyer :=
            { curSym := .idle
              nextSym := .idle
              lastSym := .idle
              prevIn := .idle
              ultLast := .dot
              kd := 0
              ku := 0
              period := BitVec.ofNat 32 (576000 / (5 * s.cfg.wpm.toNat))
              kbSeq := s.keyer.kbSeq
              kbLen := 0
              kbPos := 0 }
          osc := ⟨0, s.cfg.pitch, BitVec.ofNat 32 ((s.cfg.pitch.toNat * 2 ^ 32 + 48000) / 96000), 0⟩
          results := s.results ++ [⟨.ok, 0⟩] }) ∧
    (s.cfg.written ≠ 0xF#4 →
      exec .init s = .next { s with results := s.results ++ [⟨.errUnwritten, 0⟩] })

/-- POLL latches the byte count, the key and the settings, recomputes `PERIOD` only when the WPM setting
changed, asks for PTT on when receiving with a key closed or text queued (arming the deadline), asks
for PTT off when transmitting past the deadline, and changes nothing else (R322, R324). -/
def Obligations.PollLatchesAndDecidesPtt : Prop :=
  ∀ (txOn : Bool) (bytes : BitVec 16) (s : State), s.inited = true →
    exec (.poll txOn bytes) s = .next
      { s with
        sh := ⟨s.cfg.wpm, s.cfg.pitch, s.cfg.cwDelay, s.cfg.mode, s.keyIn, bytes⟩
        keyer :=
          { s.keyer with
            period :=
              if s.cfg.wpm = s.sh.wpm then s.keyer.period
              else BitVec.ofNat 32 (576000 / (5 * s.cfg.wpm.toNat)) }
        txUntil :=
          if txOn = false ∧ (s.keyIn ≠ .idle ∨ bytes ≠ 0) then s.msNow + s.cfg.cwDelay.setWidth 64
          else s.txUntil
        events :=
          s.events ++
            (if txOn = false then (if s.keyIn ≠ .idle ∨ bytes ≠ 0 then [.pttOn] else [])
              else if s.txUntil < s.msNow then [.pttOff] else [])
        results := s.results ++ [⟨.ok, 0⟩] }

/-- A legal WCFG writes its register and its written bit and nothing else; the MODE values 0 to 5 are
STRAIGHT, BUG, ULTIMATIC, IAMBIC_A, IAMBIC_B and KEYBOARD (R326, R33, 30_encoding.md R104). -/
def Obligations.WcfgWritesOneRegisterAndItsBit : Prop :=
  ∀ (v : BitVec 16) (s : State),
    (v ≠ 0 → exec (.wcfgWpm v) s = .next
      { s with cfg := { s.cfg with wpm := v, written := s.cfg.written ||| 1 }
               results := s.results ++ [⟨.ok, 0⟩] }) ∧
    exec (.wcfgPitch v) s = .next
      { s with cfg := { s.cfg with pitch := v, written := s.cfg.written ||| 2 }
               results := s.results ++ [⟨.ok, 0⟩] } ∧
    exec (.wcfgCwDelay v) s = .next
      { s with cfg := { s.cfg with cwDelay := v, written := s.cfg.written ||| 4 }
               results := s.results ++ [⟨.ok, 0⟩] } ∧
    ∀ p ∈ [(0#16, Mode.straight), (1#16, .bug), (2#16, .ultimatic), (3#16, .iambicA), (4#16, .iambicB),
        (5#16, .keyboard)],
      exec (.wcfgMode p.1) s = .next
        { s with cfg := { s.cfg with mode := p.2, written := s.cfg.written ||| 8 }
                 results := s.results ++ [⟨.ok, 0⟩] }

/-- WPM 0 and MODE values above 5 are refused with `ERR_RANGE` and leave everything else as it is
(R326, R104). -/
def Obligations.WcfgRefusesIllegalValues : Prop :=
  ∀ (v : BitVec 16) (s : State),
    exec (.wcfgWpm 0) s = .next { s with results := s.results ++ [⟨.errRange, 0⟩] } ∧
    (5 < v.toNat → exec (.wcfgMode v) s = .next { s with results := s.results ++ [⟨.errRange, 0⟩] })

/-- RDSTAT of every mapped index below 0x30 returns its register once INIT has run, an enumeration by its
number, and changes nothing but the result port (R327, R85, 30_encoding.md R103, R104). -/
def Obligations.RdstatReadsTheStatusMap : Prop :=
  ∀ s : State, s.inited = true → ∀ p ∈ statusMap s,
    exec (.rdstat p.1) s = .next { s with results := s.results ++ [⟨.ok, BitVec.ofNat 32 p.2⟩] }

/-- RDSTAT 0x30..0x33 returns a configuration register that was written, before INIT too, and refuses
one that was not with `ERR_UNWRITTEN`; 0x34 reads `CFG_W | INITED<<4` at any time (R327, R33). -/
def Obligations.RdstatReadsConfigurationWhenWritten : Prop :=
  ∀ (s : State) (i : Fin 4),
    (s.cfg.written.getLsbD i = true →
      exec (.rdstat (BitVec.ofNat 8 (0x30 + i))) s = .next
        { s with results := s.results ++
          [⟨.ok, BitVec.ofNat 32 ([s.cfg.wpm.toNat, s.cfg.pitch.toNat, s.cfg.cwDelay.toNat,
            modeNumber s.cfg.mode][i])⟩] }) ∧
    (s.cfg.written.getLsbD i = false →
      exec (.rdstat (BitVec.ofNat 8 (0x30 + i))) s = .next
        { s with results := s.results ++ [⟨.errUnwritten, 0⟩] }) ∧
    exec (.rdstat 0x34) s = .next
      { s with results := s.results ++
        [⟨.ok, BitVec.ofNat 32 (s.cfg.written.toNat + 16 * s.inited.toNat)⟩] }

/-- Indices that are not in the map are refused with `ERR_RANGE`, before INIT too (R327, R363). -/
def Obligations.RdstatOutsideTheMapIsRangeError : Prop :=
  ∀ (s : State) (index : BitVec 8),
    (0x0B ≤ index.toNat ∧ index.toNat ≤ 0x0F ∨ 0x1E ≤ index.toNat ∧ index.toNat ≤ 0x1F ∨
      0x28 ≤ index.toNat ∧ index.toNat ≤ 0x2F ∨ 0x35 ≤ index.toNat) →
    exec (.rdstat index) s = .next { s with results := s.results ++ [⟨.errRange, 0⟩] }

/-- ABORT is the single word 0x50000000; it answers `(OK, 0)` and changes no register and no host state,
and is refused with `ERR_NOT_INIT` before INIT (R328). -/
def Obligations.AbortIsANoOp : Prop :=
  encode .abort = [0x50000000#32] ∧ ∀ s : State,
    (s.inited = true → exec .abort s = .next { s with results := s.results ++ [⟨.ok, 0⟩] }) ∧
    (s.inited = false → exec .abort s = .next { s with results := s.results ++ [⟨.errNotInit, 0⟩] })

/-! ### RXB -/

/-- RXB of whole ticks runs RETUNE and then its ticks on the decoder and appends their text; any other
count is refused with `ERR_BLOCKSIZE` and changes nothing. Each tick takes its own 1024 samples through
DECIMATE and hands its registers, its text and the filter history on to the next
(41_rx_detector.md R160, R163, 70_reset R398). -/
def Obligations.RxbRunsWholeTicksOnly : Prop :=
  (∀ (count : BitVec 16) (x : List Word) (s : State), s.inited = true →
    (count.toNat % 1024 = 0 →
      exec (.rxb count x) s = .next
        { s with
          dec := (rxTicks theConfig (count.toNat / 1024) x (retune theConfig s.sh s.dec) []).1
          events := s.events ++ (rxTicks theConfig (count.toNat / 1024) x (retune theConfig s.sh s.dec) []).2
          results := s.results ++ [⟨.ok, 0⟩] }) ∧
    (count.toNat % 1024 ≠ 0 →
      exec (.rxb count x) s = .next { s with results := s.results ++ [⟨.errBlocksize, 0⟩] })) ∧
  ∀ (n : Nat) (x : List Word) (d : Decoder) (es : List Event),
    rxTicks theConfig 0 x d es = (d, es) ∧
    rxTicks theConfig (n + 1) x d es =
      let y := decimate theConfig (x.take 1024) d.lpfHist
      let r := tick theConfig y.1 { d with lpfHist := y.2 }
      rxTicks theConfig n (x.drop 1024) r.1 (es ++ r.2)

/-- RETUNE re-initialises the bins on a pitch change and the dash length on a WPM change, and keeps
everything else of the decoder (41_rx_detector.md R161, R397). -/
def Obligations.RetuneFollowsPitchAndWpm : Prop :=
  ∀ (sh : Shadow) (d : Decoder),
    retune theConfig sh d =
      { d with
        bins :=
          if sh.pitch = d.pitch then d.bins
          else
            ⟨referenceBinAt (sh.pitch.toNat - 100), referenceBinAt (sh.pitch.toNat - 50),
              referenceBinAt sh.pitch.toNat, referenceBinAt (sh.pitch.toNat + 50),
              referenceBinAt (sh.pitch.toNat + 100)⟩
        pitch := sh.pitch
        wpm := sh.wpm
        dashLen := if sh.wpm = d.wpm then d.dashLen else BitVec.ofNat 32 (216000 / (640 * sh.wpm.toNat)) }

/-- Feeding whole ticks in one RXB or in two gives the same state but for the number of results: the
decoder carries everything across commands (R160, R37, R163). -/
def Obligations.RxbSplitsAtTickBoundaries : Prop :=
  ∀ (c1 c2 : BitVec 16) (x1 x2 : List Word) (s : State), s.inited = true →
    c1.toNat % 1024 = 0 → c2.toNat % 1024 = 0 → c1.toNat + c2.toNat < 65536 → x1.length = c1.toNat →
    ∃ t u v : State, exec (.rxb c1 x1) s = .next t ∧ exec (.rxb c2 x2) t = .next u ∧
      exec (.rxb (c1 + c2) (x1 ++ x2)) s = .next v ∧ { u with results := v.results } = v

/-- DECIMATE at the reference taps: each output is the floor of the mean of its own group of eight
samples, the history never influences it, and the last seven samples become the history (R163). -/
def Obligations.DecimateIsTheMeanOfEachGroup : Prop :=
  ∀ (groups : List (List Word)) (hist : List Word), (∀ g ∈ groups, g.length = 8) →
    (decimate theConfig groups.flatten hist).1 = groups.map (fun g => (g.map s32).sum / 8) ∧
    (hist.length = 7 →
      (decimate theConfig groups.flatten hist).2 = (groups.flatten.reverse ++ hist).take 7)

/-- SELECT gives the maximum magnitude of the five bins and the lowest index that has it (R171). -/
def Obligations.SelectIsTheLowestMaximum : Prop :=
  ∀ (f : BinFile) (d : List Int),
    let mags := [binMag theConfig f.b0 d, binMag theConfig f.b1 d, binMag theConfig f.b2 d,
      binMag theConfig f.b3 d, binMag theConfig f.b4 d]
    let r := selectBin theConfig f d
    mags[r.1.toNat]? = some r.2 ∧
      ∀ (j : Nat) (m : BitVec 64), mags[j]? = some m → m ≤ r.2 ∧ (j < r.1.toNat → m < r.2)

/-- The Goertzel magnitude of an all-zero block is 0, whatever the bin holds (41_rx_detector.md R170; for
a bin that holds no finite value, which no rule produces, by log entry 5). -/
def Obligations.GoertzelOfSilenceIsZero : Prop :=
  ∀ (b : Bin) (k : Nat), goertzelRef 128 b (List.replicate k 0) = 0

/-- STREAK_UPDATE: the streak grows while the same bin wins, saturating at 65535, and is 1 otherwise;
the winner is recorded; no selected bin is ever 7, so the first tick after INIT sets the streak to 1
(41_rx_detector.md R172). -/
def Obligations.StreakCountsConsecutiveWins : Prop :=
  ∀ (b : BitVec 3) (d : Decoder),
    (streakUpdate theConfig b d).streak.toNat =
        (if b = d.winBin then min (d.streak.toNat + 1) 65535 else 1) ∧
      streakUpdate theConfig b d = { d with streak := (streakUpdate theConfig b d).streak, winBin := b } ∧
      ∀ (f : BinFile) (x : List Int), (selectBin theConfig f x).1 ≠ 7

/-- LEVEL_UPDATE, exactly on integers: the peak jumps to a larger magnitude or decays by a hundredth,
and the floor averages only when the magnitude is below 40 % of the new peak, never below 100
(42_rx_levels.md R190, R191, R193). -/
def Obligations.LevelsTrackPeakAndFloor : Prop :=
  ∀ (m : BitVec 64) (d : Decoder),
    let t := levelUpdate theConfig m d
    t.highLevel.toNat =
        (if m.toNat > d.highLevel.toNat then m.toNat else (m.toNat + 99 * d.highLevel.toNat) / 100) ∧
      t.noiseFloor.toNat =
        (if 10 * m.toNat < 4 * t.highLevel.toNat then
          max ((m.toNat + 99 * d.noiseFloor.toNat) / 100) 100 else d.noiseFloor.toNat) ∧
      t = { d with highLevel := t.highLevel, noiseFloor := t.noiseFloor }

/-- THRESHOLD, exactly on integers: with a streak of at least two a magnitude is a signal from the floor
plus 15 % of the contrast on, else from the floor plus 40 % of it on, whichever of the two levels is
higher; so between the two tiers only a bin that has held for two ticks is a signal
(42_rx_levels.md R194). -/
def Obligations.ThresholdIsTwoTiered : Prop :=
  ∀ (m high floor : BitVec 64) (streak : BitVec 16),
    (2 ≤ streak.toNat → (thresholdMet m high floor streak = true ↔
      100 * (floor.toNat : Int) + 15 * ((high.toNat : Int) - floor.toNat) ≤ 100 * m.toNat)) ∧
    (streak.toNat < 2 → (thresholdMet m high floor streak = true ↔
      10 * (floor.toNat : Int) + 4 * ((high.toNat : Int) - floor.toNat) ≤ 10 * m.toNat)) ∧
    (floor.toNat ≤ high.toNat →
      100 * floor.toNat + 15 * (high.toNat - floor.toNat) ≤ 100 * m.toNat →
      10 * m.toNat < 10 * floor.toNat + 4 * (high.toNat - floor.toNat) →
      (thresholdMet m high floor streak = true ↔ 2 ≤ streak.toNat))

/-- DENOISE: the old `MARK` becomes `PREV_MARK`, `SIG_STATE` is shifted into the five bits of `HIST`, and
`MARK` is the majority, three of the five. An isolated run of one or two signal ticks gives no mark, one
of one or two other ticks inside a mark does not end it, and a run of `L ≥ 3` signal ticks between runs
of five others gives a mark of exactly `L` ticks, two ticks later (42_rx_levels.md R196). -/
def Obligations.DenoiserIsTheMajorityOfFive : Prop :=
  ∀ d : Decoder,
    denoise d =
      { d with
        prevMark := d.mark
        hist := BitVec.ofNat 5 ((2 * d.hist.toNat + d.sigState.toNat) % 32)
        mark := decide
          (3 ≤ ((List.range 5).filter (fun i => (2 * d.hist.toNat + d.sigState.toNat).testBit i)).length) } ∧
    ∀ len : Nat,
      (3 ≤ len → d.hist = 0 → denoiseRun (List.replicate len true ++ List.replicate 5 false) d =
        [false, false] ++ List.replicate len true ++ [false, false, false]) ∧
      (len ≤ 2 → d.hist = 0 → denoiseRun (List.replicate len true ++ List.replicate 5 false) d =
        List.replicate (len + 5) false) ∧
      (len ≤ 2 → d.hist = 31 → denoiseRun (List.replicate len false ++ List.replicate 5 true) d =
        List.replicate (len + 5) true)

/-- PUSH stores at the write index, which wraps silently at the capacity (43_rx_segment_match.md R211). -/
def Obligations.SymbolPushWrapsSilently : Prop :=
  ∀ (x : RxSymbol) (d : Decoder),
    pushSymbol theConfig x d =
      { d with sym := d.sym.set d.symWr x, symWr := if d.symWr = 99 then 0 else (d.symWr + 1) % 100 }

/-- Inside a mark a tick counts one and clamps to the dash length beyond three dash lengths; at either
end of a mark the run, this tick included, is recorded and the count restarts
(43_rx_segment_match.md R210, R212, R213). -/
def Obligations.SegmenterRecordsRunsAndClampsLongMarks : Prop :=
  ∀ (m : BitVec 64) (d : Decoder), d.ticks.toNat + 1 < 2 ^ 32 →
    (d.prevMark = true → d.mark = true →
      Machine.segment theConfig m d =
        ({ d with ticks := if 3 * d.dashLen.toNat < d.ticks.toNat + 1 then d.dashLen else d.ticks + 1 }, [])) ∧
    (d.prevMark ≠ d.mark →
      Machine.segment theConfig m d =
        ({ d with
            ticks := 0
            sym := d.sym.set d.symWr ⟨d.prevMark, m, d.ticks + 1⟩
            symWr := (d.symWr + 1) % 100 }, []))

/-- Inside a space. With a mark pending the letter closes on the first tick whose count exceeds half the
dash length and not before: the gap is pushed, the marks are matched, the text of their pattern (its
table entry, else the pattern itself) is output and clears the duplicate-space flag, nothing is output
for an empty pattern, and a word-space follows if the gap exceeds one and a half of the adapted dash
length and no word-space was the last output. With no mark pending a word-space comes out, under the same
flag, when the count exceeds one and a half dash lengths, and the count restarts
(43_rx_segment_match.md R210, R214, R215, R216, R222). -/
def Obligations.SilenceClosesLettersAndEmitsWordSpaces : Prop :=
  ∀ (m : BitVec 64) (d : Decoder), d.ticks.toNat + 1 < 2 ^ 32 → d.prevMark = false → d.mark = false →
    (((d.sym.take d.symWr).any (fun x => x.isMark)) = true →
      (2 * (d.ticks.toNat + 1) ≤ d.dashLen.toNat →
        Machine.segment theConfig m d = ({ d with ticks := d.ticks + 1 }, [])) ∧
      (d.dashLen.toNat < 2 * (d.ticks.toNat + 1) →
        let sym := d.sym.set d.symWr ⟨false, m, d.ticks + 1⟩
        let r := matchMarks theConfig d.wpm (sym.take ((d.symWr + 1) % 100)) d.dashLen
        let text : List Byte :=
          match rxRom theConfig r.1 with
          | some t => t
          | none => r.1.map (fun e => if e = .dot then 0x2E#8 else 0x2D#8)
        let flag : Bool := if text = [] then d.wsFlag else false
        let long : Bool := decide (3 * r.2.toNat < 2 * (d.ticks.toNat + 1))
        Machine.segment theConfig m d =
          ({ d with ticks := 0, sym := sym, symWr := 0, dashLen := r.2, wsFlag := flag || long },
            (if text = [] then [] else [.con .rx text]) ++ if long = true ∧ flag = false then [wordSpace] else []))) ∧
    (((d.sym.take d.symWr).any (fun x => x.isMark)) = false →
      (2 * (d.ticks.toNat + 1) ≤ 3 * d.dashLen.toNat →
        Machine.segment theConfig m d = ({ d with ticks := d.ticks + 1 }, [])) ∧
      (3 * d.dashLen.toNat < 2 * (d.ticks.toNat + 1) →
        Machine.segment theConfig m d =
          ({ d with ticks := 0, wsFlag := true }, if d.wsFlag = true then [] else [wordSpace])))

/-- Speed adaptation by a letter's marks keeps the dash length within a factor of two of the theoretical
one (43_rx_segment_match.md R224, R225). -/
def Obligations.AdaptationStaysWithinAFactorOfTwo : Prop :=
  ∀ (wpm : BitVec 16) (marks : List RxSymbol) (dashLen : BitVec 32),
    216000 / (640 * wpm.toNat) ≤ 2 * dashLen.toNat → dashLen.toNat ≤ 2 * (216000 / (640 * wpm.toNat)) →
    216000 / (640 * wpm.toNat) ≤ 2 * (matchMarks theConfig wpm marks dashLen).2.toNat ∧
      (matchMarks theConfig wpm marks dashLen).2.toNat ≤ 2 * (216000 / (640 * wpm.toNat))

/-- For dashes of a constant length in the accepted range each accepted step moves the dash length by at
least one toward it while they differ by four or more, so that after at most as many dashes as they
differ by it is within three, and it never leaves the range (43_rx_segment_match.md R225). -/
def Obligations.AdaptationConvergesOnTheSendersSpeed : Prop :=
  ∀ (wpm : BitVec 16) (dashLen ticks : BitVec 32),
    let init := 216000 / (640 * wpm.toNat)
    let new := adaptDash theConfig wpm dashLen ticks
    init ≤ 2 * dashLen.toNat → dashLen.toNat ≤ 2 * init →
    (init ≤ 2 * new.toNat ∧ new.toNat ≤ 2 * init) ∧
    (init ≤ 2 * ticks.toNat → ticks.toNat ≤ 2 * init →
      (dashLen.toNat + 4 ≤ ticks.toNat → dashLen.toNat < new.toNat ∧ new.toNat ≤ ticks.toNat) ∧
      (ticks.toNat + 4 ≤ dashLen.toNat → ticks.toNat ≤ new.toNat ∧ new.toNat < dashLen.toNat) ∧
      ∀ n : Nat, ticks.toNat ≤ dashLen.toNat + n → dashLen.toNat ≤ ticks.toNat + n →
        let final := (List.replicate n ticks).foldl (adaptDash theConfig wpm) dashLen
        ticks.toNat ≤ final.toNat + 3 ∧ final.toNat ≤ ticks.toNat + 3)

/-- No two consecutive word-spaces ever come out of an RXB, whatever its samples, and none comes first
when the last output already was a word-space; `WS_FLAG` after it tells again whether the last output was
one, unchanged when nothing was output, so the property carries from one RXB to the next
(43_rx_segment_match.md R214, R222). -/
def Obligations.WordSpacesNeverRepeat : Prop :=
  ∀ (count : BitVec 16) (x : List Word) (s t : State), exec (.rxb count x) s = .next t →
    ∃ es, t.events = s.events ++ es ∧ spacesSeparated s.dec.wsFlag es ∧
      t.dec.wsFlag = lastWasSpace s.dec.wsFlag es

/-- One tick emits at most one letter and one word-space, the letter first, and no other event
(70_reset_and_hazards.md R402). -/
def Obligations.TickEmitsALetterThenAWordSpace : Prop :=
  ∀ (samples : List Int) (d : Decoder), ∃ letter space : List Event,
    (tick theConfig samples d).2 = letter ++ space ∧ (space = [] ∨ space = [wordSpace]) ∧
      (letter = [] ∨ ∃ text, text ≠ [] ∧ letter = [.con .rx text])

/-! ### TXS -/

/-- TXS, the whole procedure of R291: retune, active mode, keyer when idle or in a paddle mode, advance,
output, phase, deadline; everything else is unchanged (45_tx_sample.md R291, R292, R294, R296-R298,
R300). -/
def Obligations.TxsProducesOneSample : Prop :=
  ∀ s : State, s.inited = true →
    let inc := if s.osc.freq = s.sh.pitch then s.osc.inc
      else BitVec.ofNat 32 ((s.sh.pitch.toNat * 2 ^ 32 + 48000) / 96000)
    let mode := if s.sh.bytes ≠ 0 ∨ s.keyer.kbPos < s.keyer.kbLen then Mode.keyboard else s.sh.mode
    let idle : Bool := s.keyer.kd = 0 ∧ s.keyer.ku = 0
    let out : KeyerOut :=
      if idle = true ∨ mode = .iambicA ∨ mode = .iambicB ∨ mode = .ultimatic then
        keyerStep theConfig s.sh.key mode idle s.keyer s.txq
      else ⟨s.keyer, s.txq, []⟩
    let keyed := 0 < out.keyer.kd.toNat
    let envR := BitVec.ofNat 16 (if keyed then min (s.osc.envR.toNat + 1) 480 else s.osc.envR.toNat - 1)
    exec .txs s = .next
      { s with
        keyer :=
          { out.keyer with
            kd := if keyed then out.keyer.kd - 1 else out.keyer.kd
            ku := if ¬keyed ∧ 0 < out.keyer.ku.toNat then out.keyer.ku - 1 else out.keyer.ku }
        txq := out.txq
        events := s.events ++ out.events
        osc := ⟨s.osc.phase + inc, s.sh.pitch, inc, envR⟩
        txUntil :=
          if keyed ∨ s.sh.bytes ≠ 0 ∨ out.keyer.kbPos < out.keyer.kbLen then
            s.msNow + s.sh.cwDelay.setWidth 64
          else s.txUntil
        results := s.results ++
          [⟨.ok, if envR = 0 then 0 else theConfig.numerics.f32
            (f64Div (f64Mul (theConfig.numerics.sin s.osc.phase) (theConfig.numerics.env envR.toNat))
              (f64OfInt 8))⟩] }

/-- STRAIGHT follows the key sample by sample, and BUG times dots and keys dashes by hand; both forget
the iambic memory (44_tx_keyer.md R250, R251, R248). -/
def Obligations.StraightAndBugKeying : Prop :=
  ∀ (key : Key) (k : Keyer) (txq : List Byte),
    keyerStep theConfig key .straight true k txq =
        ⟨if key = .idle then { k with curSym := .idle, nextSym := .idle, prevIn := key }
          else { k with curSym := .down, lastSym := .down, kd := 1, ku := 0, nextSym := .idle, prevIn := key },
          txq, []⟩ ∧
      keyerStep theConfig key .bug true k txq =
        ⟨if key = .idle then { k with curSym := .idle, nextSym := .idle, prevIn := key }
          else if key = .dot then
            { k with curSym := .dot, lastSym := .dot, kd := k.period, ku := k.period, nextSym := .idle, prevIn := key }
          else { k with curSym := .down, lastSym := .down, kd := 1, ku := 0, nextSym := .idle, prevIn := key },
          txq, []⟩

/-- ULTIMATIC records the paddle of the latest press, the dot paddle at a tie, at every invocation, and
when idle a squeeze repeats that paddle (44_tx_keyer.md R256). -/
def Obligations.UltimaticRepeatsTheLatestPaddle : Prop :=
  ∀ (key : Key) (idle : Bool) (k : Keyer) (txq : List Byte),
    let dotPress : Bool := (key = .dot ∨ key = .squeeze) ∧ ¬(k.prevIn = .dot ∨ k.prevIn = .squeeze)
    let dashPress : Bool := (key = .dash ∨ key = .squeeze) ∧ ¬(k.prevIn = .dash ∨ k.prevIn = .squeeze)
    let last := if dotPress then Sym.dot else if dashPress then Sym.dash else k.ultLast
    let e := if key = .squeeze then last else keySymbol key
    (keyerStep theConfig key .ultimatic idle k txq).keyer =
      if idle = false then { k with ultLast := last, prevIn := key }
      else if e = .dot then
        { k with ultLast := last, prevIn := key, nextSym := .idle, curSym := .dot, lastSym := .dot,
                 kd := k.period, ku := k.period }
      else if e = .dash then
        { k with ultLast := last, prevIn := key, nextSym := .idle, curSym := .dash, lastSym := .dash,
                 kd := BitVec.ofNat 32 (3 * k.period.toNat), ku := k.period }
      else { k with ultLast := last, prevIn := key, nextSym := .idle, curSym := .idle }

/-- The iambic modes when idle: a remembered element is sent first, a squeeze alternates, a single
paddle gives its element (44_tx_keyer.md R257). -/
def Obligations.IambicAlternatesWhileSqueezed : Prop :=
  ∀ (mode : Mode) (key : Key) (k : Keyer) (txq : List Byte), mode = .iambicA ∨ mode = .iambicB →
    memoryElement k.nextSym = true →
    let e : Sym :=
      if k.nextSym ≠ .idle then k.nextSym
      else if key = .squeeze then (if k.curSym = .dot then .dash else .dot)
      else keySymbol key
    (keyerStep theConfig key mode true k txq).keyer =
      if e = .dot then
        { k with prevIn := key, nextSym := .idle, curSym := .dot, lastSym := .dot, kd := k.period, ku := k.period }
      else if e = .dash then
        { k with prevIn := key, nextSym := .idle, curSym := .dash, lastSym := .dash,
                 kd := BitVec.ofNat 32 (3 * k.period.toNat), ku := k.period }
      else { k with prevIn := key, nextSym := .idle, curSym := .idle }

/-- During an element IAMBIC_A remembers the opposite paddle only when it is pressed anew, IAMBIC_B
whenever it is closed; nothing else of the keyer changes (44_tx_keyer.md R258, R259). -/
def Obligations.IambicAIsEdgeAndIambicBIsLevel : Prop :=
  ∀ (key : Key) (k : Keyer) (txq : List Byte),
    (keyerStep theConfig key .iambicA false k txq).keyer =
        { k with
          prevIn := key
          nextSym :=
            if k.curSym = .dot ∧ dashClosed key = true ∧ dashClosed k.prevIn = false then .dash
            else if k.curSym = .dash ∧ dotClosed key = true ∧ dotClosed k.prevIn = false then .dot
            else k.nextSym } ∧
      (keyerStep theConfig key .iambicB false k txq).keyer =
        { k with
          prevIn := key
          nextSym :=
            if k.curSym = .dot ∧ dashClosed key = true then .dash
            else if k.curSym = .dash ∧ dotClosed key = true then .dot
            else k.nextSym }

/-- KEYBOARD with the key open plays the character in progress before it looks at the queue: a text
element has no space of its own, and a delay marker of 1, 3 or 7 dot lengths keys up for what the gap
already made leaves of it (44_tx_keyer.md R243, R252, R248, R255). -/
def Obligations.KeyboardPlaysTheCharacterInProgress : Prop :=
  ∀ (k : Keyer) (txq : List Byte) (e : Sym), k.kbPos < k.kbLen → k.kbSeq[k.kbPos]? = some e →
    (e = .dot → keyerStep theConfig .idle .keyboard true k txq =
      ⟨{ k with curSym := .dot, lastSym := .dot, kd := k.period, ku := 0, nextSym := .idle, prevIn := .idle,
                kbPos := k.kbPos + 1 }, txq, []⟩) ∧
    (e = .dash → keyerStep theConfig .idle .keyboard true k txq =
      ⟨{ k with curSym := .dash, lastSym := .dash, kd := BitVec.ofNat 32 (3 * k.period.toNat), ku := 0,
                nextSym := .idle, prevIn := .idle, kbPos := k.kbPos + 1 }, txq, []⟩) ∧
    ∀ p ∈ [(Sym.elemDelay, 1), (Sym.charDelay, 3), (Sym.wordDelay, 7)], ∀ q ∈ gapTable,
      e = p.1 → k.lastSym = q.1 →
        keyerStep theConfig .idle .keyboard true k txq =
          ⟨{ k with curSym := e, lastSym := e, kd := 0,
                    ku := BitVec.ofNat 32 ((p.2 - q.2) * k.period.toNat),
                    nextSym := .idle, prevIn := .idle, kbPos := k.kbPos + 1 }, txq, []⟩

/-- Between characters KEYBOARD takes one byte of the queue. A space is a word delay; any other byte is
folded to upper case and looked up: without a code it is consumed with no echo and nothing starts, with
one it is spelled into `KB_SEQ`, each element followed by an inter-element delay and the whole by an
inter-character delay. What can be sent is echoed as it is, and its first symbol starts its interval
(44_tx_keyer.md R243, R244, R248, R252, R254, R255). -/
def Obligations.KeyboardFetchesOneByteBetweenCharacters : Prop :=
  ∀ (k : Keyer) (c : Byte) (rest : List Byte), ¬k.kbPos < k.kbLen →
    let u : Byte := if 0x61 ≤ c.toNat ∧ c.toNat ≤ 0x7A then c - 0x20#8 else c
    let out := keyerStep theConfig .idle .keyboard true k (c :: rest)
    (c = 0x20#8 → ∀ q ∈ gapTable, k.lastSym = q.1 → out =
      ⟨{ k with kbSeq := .wordDelay :: k.kbSeq.drop 1, kbLen := 1, kbPos := 1, curSym := .wordDelay,
                lastSym := .wordDelay, kd := 0, ku := BitVec.ofNat 32 ((7 - q.2) * k.period.toNat),
                nextSym := .idle, prevIn := .idle }, rest, [.con .tx [c]]⟩) ∧
    (c ≠ 0x20#8 → txRom theConfig u = none → out =
      ⟨{ k with curSym := .idle, nextSym := .idle, prevIn := .idle }, rest, []⟩) ∧
    ∀ code, c ≠ 0x20#8 → txRom theConfig u = some code →
      (code.head? = some .dot ∨ code.head? = some .dash) ∧
      let first := if code.head? = some .dot then Sym.dot else .dash
      let units := if code.head? = some .dot then 1 else 3
      out =
        ⟨{ k with kbSeq := codeSymbols code ++ k.kbSeq.drop (codeSymbols code).length
                  kbLen := (codeSymbols code).length
                  kbPos := 1
                  curSym := first
                  lastSym := first
                  kd := BitVec.ofNat 32 (units * k.period.toNat)
                  ku := 0
                  nextSym := .idle
                  prevIn := .idle }, rest, [.con .tx [c]]⟩

/-- Two consecutive delay markers, of 1, 3 or 7 dot lengths, after an element make the longer one's
silence: delays do not double-count (44_tx_keyer.md R255). -/
def Obligations.DelayMarkersDoNotDoubleCount : Prop :=
  ∀ p ∈ [(Sym.elemDelay, 1), (Sym.charDelay, 3), (Sym.wordDelay, 7)],
    ∀ q ∈ [(Sym.elemDelay, 1), (Sym.charDelay, 3), (Sym.wordDelay, 7)],
    ∀ k : Keyer, k.lastSym ∈ [Sym.idle, .dot, .dash, .squeeze, .down] → 7 * k.period.toNat < 2 ^ 32 →
      let k1 := startDelay p.1 k
      let k2 := startDelay q.1 k1
      k1.ku.toNat = p.2 * k.period.toNat ∧
        k1.ku.toNat + k2.ku.toNat = max p.2 q.2 * k.period.toNat ∧ k1.kd = 0 ∧ k2.kd = 0

/-- The round trip of the two tables: the code of every character of the TX table is a key of the RX table
and stands there for that character (40_morse_tables.md R144). -/
def Obligations.TxAndRxTablesRoundTrip : Prop :=
  ∀ (c : Byte) (code : List TxElem), txRom theConfig c = some code →
    rxRom theConfig (code.filterMap markOfElem) = some [c] ∧ (code.filterMap markOfElem).length = code.length

/-- TXS takes at most the head byte of the host's queue, and only when the keyer is fully idle in
KEYBOARD mode with no key latched and no character in progress; it appends at most one event, the echo
of that byte (45_tx_sample.md R293, 70_reset R402). -/
def Obligations.TxsPopsAtMostOneByte : Prop :=
  ∀ s t : State, exec .txs s = .next t →
    (t.txq = s.txq ∧ t.events = s.events) ∨
      ∃ c, s.txq = c :: t.txq ∧ (t.events = s.events ∨ t.events = s.events ++ [.con .tx [c]]) ∧
        s.keyer.kd = 0 ∧ s.keyer.ku = 0 ∧ s.sh.key = .idle ∧ ¬s.keyer.kbPos < s.keyer.kbLen ∧
        (s.sh.bytes ≠ 0 ∨ s.sh.mode = .keyboard)

/-! ### The whole machine -/

/-- Every step keeps the array lengths, the legal configuration writes and the invariants of R48 and R261,
on the machine the host runs and on a block of any configuration within its constraints
(10_state.md R48, 44_tx_keyer.md R261, 00_scope.md R7). -/
def Obligations.EveryStepKeepsTheInvariant : Prop :=
  (∀ s t : State, Invariant theConfig s → step s = .next t → Invariant theConfig t) ∧
  ∀ (C : Config) (s t : State), C.ok = true → Invariant C s → stepWith C s = .next t → Invariant C t

/-- The power-on state meets the invariant, at the reference configuration and at any other
(10_state.md R47). The array lengths at power-on are the model's choice (log entry 2). -/
def Obligations.ResetMeetsTheInvariant : Prop :=
  Invariant theConfig State.reset ∧ ∀ C : Config, Invariant C (State.resetWith C)

/-- What power-on reset leaves, as the spec states it: `INITED = 0`, `CFG_W = 0`, `EVENTS` empty, so
that RDSTAT 0x34 reads 0 (10_state.md R47, 70_reset R390, 46_control.md R327). -/
def Obligations.PowerOnIsUninitialised : Prop :=
  State.reset.inited = false ∧ State.reset.cfg.written = 0 ∧ State.reset.events = [] ∧
    exec (.rdstat 0x34) State.reset = .next { State.reset with results := [⟨.ok, 0⟩] }

/-- RXB and TXS are independent: in either order they reach the same registers and ports, and their
events differ at most in order (70_reset_and_hazards.md R398). -/
def Obligations.RxbAndTxsCommute : Prop :=
  ∀ (count : BitVec 16) (x : List Word) (s : State), ∃ rx tx rxtx txrx : State,
    exec (.rxb count x) s = .next rx ∧ exec .txs rx = .next rxtx ∧
    exec .txs s = .next tx ∧ exec (.rxb count x) tx = .next txrx ∧
    registers rxtx = registers txrx ∧
    ∃ er et, rxtx.events = s.events ++ er ++ et ∧ txrx.events = s.events ++ et ++ er

/-- A configuration write reaches the hot path only through POLL or INIT: TXS and RXB do the same
whatever the `CFG_*` registers hold (10_state.md R35, 20_memory.md R89). -/
def Obligations.HotPathNeverReadsConfiguration : Prop :=
  ∀ (i : Instr) (s t : State) (cfg : CfgRegs), i = .txs ∨ (∃ c x, i = .rxb c x) →
    exec i s = .next t → exec i { s with cfg := cfg } = .next { t with cfg := cfg }

/-- Nothing but INIT and RXB writes the decoder, nothing but INIT, POLL and TXS the keyer, and nothing
but INIT and TXS the oscillator and envelope: no reset on a transition (60_exceptions.md R380,
70_reset R398). -/
def Obligations.NoTransitionResetsAnything : Prop :=
  ∀ (i : Instr) (s t : State), exec i s = .next t →
    ((∀ c x, i ≠ .rxb c x) → i ≠ .init → t.dec = s.dec) ∧
    (i ≠ .txs → i ≠ .init → t.osc = s.osc ∧ t.keyer = { s.keyer with period := t.keyer.period }) ∧
    ((∀ o b, i ≠ .poll o b) → i ≠ .init → t.keyer.period = s.keyer.period ∧ t.sh = s.sh)

/-- Only INIT sets `INITED` and nothing clears it; only WCFG writes the configuration registers
(10_state.md R33, R34). -/
def Obligations.OnlyInitStartsAndOnlyWcfgConfigures : Prop :=
  ∀ (i : Instr) (s t : State), exec i s = .next t →
    (s.inited = true → t.inited = true) ∧ (i ≠ .init → t.inited = s.inited) ∧
    (t.cfg ≠ s.cfg → ∃ v, i = .wcfgWpm v ∨ i = .wcfgPitch v ∨ i = .wcfgCwDelay v ∨ i = .wcfgMode v)

/-- No command writes the host's ports: `KEY_IN`, `MS_NOW` and the input stay, `TXQ` is touched by TXS
only, and `EVENTS` is only appended to, by INIT, WCFG, RDSTAT and ABORT not at all (10_state.md R45,
70_reset R391). -/
def Obligations.HostPortsBelongToTheHost : Prop :=
  ∀ (i : Instr) (s t : State), exec i s = .next t →
    t.keyIn = s.keyIn ∧ t.msNow = s.msNow ∧ t.input = s.input ∧ (i ≠ .txs → t.txq = s.txq) ∧
    ∃ es, t.events = s.events ++ es ∧
      (i ≠ .txs → (∀ c x, i ≠ .rxb c x) → (∀ o b, i ≠ .poll o b) → es = [])

/-- Repeating a WCFG or an RDSTAT changes no register (20_memory.md R85). -/
def Obligations.WcfgAndRdstatAreIdempotent : Prop :=
  ∀ (i : Instr) (s t u : State),
    (∃ v, i = .wcfgWpm v ∨ i = .wcfgPitch v ∨ i = .wcfgCwDelay v ∨ i = .wcfgMode v) ∨ (∃ x, i = .rdstat x) →
    exec i s = .next t → exec i t = .next u → registers u = registers t

/-! ### The order of a tick, the letter's marks, KEYBOARD without text -/

/-- TICK, the order of its steps for the winning bin and its magnitude `m`: streak, `LAST_MAG <- m`, levels,
threshold against the levels and the streak just written, denoiser, segmenter; and the registers it
leaves. The filter history, the bins and the tuning are not its business (41_rx_detector.md R162). -/
def Obligations.TickRunsItsStepsInOrder : Prop :=
  ∀ (samples : List Int) (d : Decoder),
    let b := (selectBin theConfig d.bins samples).1
    let m := (selectBin theConfig d.bins samples).2
    let d1 := { streakUpdate theConfig b d with lastMag := m }
    let d2 := levelUpdate theConfig m d1
    let d3 := { d2 with sigState := thresholdMet m d2.highLevel d2.noiseFloor d2.streak }
    let t := (tick theConfig samples d).1
    tick theConfig samples d = Machine.segment theConfig m (denoise d3) ∧
      t.winBin = b ∧ t.streak = (streakUpdate theConfig b d).streak ∧ t.lastMag = m ∧
      t.highLevel = (levelUpdate theConfig m d).highLevel ∧
      t.noiseFloor = (levelUpdate theConfig m d).noiseFloor ∧
      t.sigState = thresholdMet m t.highLevel t.noiseFloor t.streak ∧
      t.prevMark = d.mark ∧ t.hist.toNat = (2 * d.hist.toNat + t.sigState.toNat) % 32 ∧
      t.mark = decide (3 ≤ ((List.range 5).filter (fun i => t.hist.toNat.testBit i)).length) ∧
      t.lpfHist = d.lpfHist ∧ t.bins = d.bins ∧ t.pitch = d.pitch ∧ t.wpm = d.wpm

/-- The matcher takes the letter's marks in order against the dash length the marks before left: a mark of
at most a sixth of it is noise, one of more than half of it is a dash and adapts it to the mean
`(3·old + observed) div 4` if that lies within a factor of two of the theoretical length, any other is a
dot; gaps are passed over (43_rx_segment_match.md R220, R221, R224). -/
def Obligations.LetterMarksAreClassifiedInOrder : Prop :=
  ∀ (wpm : BitVec 16) (x : RxSymbol) (xs : List RxSymbol) (dashLen : BitVec 32),
    matchMarks theConfig wpm [] dashLen = ([], dashLen) ∧
    (x.isMark = false →
      matchMarks theConfig wpm (x :: xs) dashLen = matchMarks theConfig wpm xs dashLen) ∧
    (x.isMark = true →
      (6 * x.ticks.toNat ≤ dashLen.toNat →
        matchMarks theConfig wpm (x :: xs) dashLen = matchMarks theConfig wpm xs dashLen) ∧
      (dashLen.toNat < 6 * x.ticks.toNat → 2 * x.ticks.toNat ≤ dashLen.toNat →
        matchMarks theConfig wpm (x :: xs) dashLen =
          (.dot :: (matchMarks theConfig wpm xs dashLen).1, (matchMarks theConfig wpm xs dashLen).2)) ∧
      (dashLen.toNat < 2 * x.ticks.toNat →
        let init := 216000 / (640 * wpm.toNat)
        let mean := (3 * dashLen.toNat + x.ticks.toNat) / 4
        let new := if init ≤ 2 * mean ∧ mean ≤ 2 * init then BitVec.ofNat 32 mean else dashLen
        matchMarks theConfig wpm (x :: xs) dashLen =
          (.dash :: (matchMarks theConfig wpm xs new).1, (matchMarks theConfig wpm xs new).2)))

/-- KEYBOARD with a key closed is an automatic keyer without memory that leaves text and queue alone, a
squeeze being a dot; with the key open and no text it idles (44_tx_keyer.md R243, R252, R248). -/
def Obligations.KeyboardKeysByHandAndIdlesWithoutText : Prop :=
  ∀ (key : Key) (k : Keyer) (txq : List Byte),
    (key = .dot ∨ key = .squeeze → keyerStep theConfig key .keyboard true k txq =
      ⟨{ k with curSym := .dot, lastSym := .dot, kd := k.period, ku := k.period, nextSym := .idle,
                prevIn := key }, txq, []⟩) ∧
    (key = .dash → keyerStep theConfig key .keyboard true k txq =
      ⟨{ k with curSym := .dash, lastSym := .dash, kd := BitVec.ofNat 32 (3 * k.period.toNat),
                ku := k.period, nextSym := .idle, prevIn := key }, txq, []⟩) ∧
    (key = .idle → ¬k.kbPos < k.kbLen → keyerStep theConfig key .keyboard true k [] =
      ⟨{ k with curSym := .idle, nextSym := .idle, prevIn := .idle }, [], []⟩)
end

