-- ==== Sys2Proof/Laws/Configured.lean ====
section
/-! SUPPORT. The host's machine is the configured machine at the reference configuration. -/

namespace Sys2Proof.Machine

/-- `exec` is the reference instance. -/
theorem exec_eq_execWith (i : Instr) (s : State) : exec i s = execWith theConfig i s := by
  cases i <;> rfl

/-- `step` is the reference instance. -/
theorem step_eq_stepWith (s : State) : step s = stepWith theConfig s := by
  unfold step stepWith
  cases fetch s with
  | idle s' => rfl
  | illegal s' => rfl
  | command i s' => exact exec_eq_execWith i s'

/-- `core` is the reference instance. -/
theorem core_eq_coreWith : Sys2Proof.core = coreWith theConfig := by
  show ({ State := State, Fault := Fault, Refusal := Refusal, step := step, reset := State.reset } : Host.Core) =
    { State := State, Fault := Fault, Refusal := Refusal, step := stepWith theConfig,
      reset := State.resetWith theConfig }
  rw [show step = stepWith theConfig from funext step_eq_stepWith]
  rfl

/-- A bin's frequency is a 16-bit pitch and at most 100 Hz (41_rx_detector.md R165, R166). -/
theorem tunedBin_freq (C : Config) (b : Bin) (h : IsTunedBin C b) : -100 ≤ b.freq ∧ b.freq ≤ 65635 := by
  obtain ⟨pitch, h⟩ := h
  have := pitch.isLt
  rcases h with rfl | rfl | rfl | rfl | rfl <;> simp only [binInit, binTuned] <;> omega

/-- The output is `+0.0` at envelope 0 in every configuration (45_tx_sample.md R298). -/
theorem outputSample_silent (C : Config) (phase : BitVec 32) : outputSample C phase 0 = 0 := rfl

end Sys2Proof.Machine
end

