-- ==== Sys2Proof/Laws/Decode.lean ====
section
/-! SUPPORT. What the decoder's field readers and the payload reader say of the encoder's words. -/

namespace Sys2Proof

/-- Reading a field of a word built from fields: the bits of the other fields fall away. -/
theorem opField_commandWord (op sel : BitVec 4) (f : Bool) (imm : BitVec 16) :
    opField (commandWord op sel f imm) = op := by
  unfold opField commandWord
  apply BitVec.eq_of_getLsbD_eq
  intro i hi
  simp only [BitVec.getLsbD_extractLsb', BitVec.getLsbD_append]
  repeat' split
  all_goals first | omega | (rw [decide_eq_true hi, Bool.true_and]; congr 1; omega)

theorem selField_commandWord (op sel : BitVec 4) (f : Bool) (imm : BitVec 16) :
    selField (commandWord op sel f imm) = sel := by
  unfold selField commandWord
  apply BitVec.eq_of_getLsbD_eq
  intro i hi
  simp only [BitVec.getLsbD_extractLsb', BitVec.getLsbD_append]
  repeat' split
  all_goals first | omega | (rw [decide_eq_true hi, Bool.true_and]; congr 1; omega)

theorem rsvField_commandWord (op sel : BitVec 4) (f : Bool) (imm : BitVec 16) :
    rsvField (commandWord op sel f imm) = 0 := by
  unfold rsvField commandWord
  apply BitVec.eq_of_getLsbD_eq
  intro i hi
  simp only [BitVec.getLsbD_extractLsb', BitVec.getLsbD_append]
  repeat' split
  all_goals first | omega | simp

theorem flagField_commandWord (op sel : BitVec 4) (f : Bool) (imm : BitVec 16) :
    flagField (commandWord op sel f imm) = f := by
  unfold flagField commandWord
  simp only [BitVec.getLsbD_append]
  simp

theorem immField_commandWord (op sel : BitVec 4) (f : Bool) (imm : BitVec 16) :
    immField (commandWord op sel f imm) = imm := by
  unfold immField commandWord
  apply BitVec.eq_of_getLsbD_eq
  intro i hi
  simp only [BitVec.getLsbD_extractLsb', BitVec.getLsbD_append]
  repeat' split
  all_goals first | omega | simp [hi]

/-- A word is its fields put together. -/
theorem commandWord_fields (w : Word) (hr : rsvField w = 0) :
    commandWord (opField w) (selField w) (flagField w) (immField w) = w := by
  apply BitVec.eq_of_getLsbD_eq
  intro i hi
  have hrsv : ∀ j, j < 7 → w.getLsbD (17 + j) = false := by
    intro j hj
    have := congrArg (fun v => v.getLsbD j) hr
    simpa [rsvField, BitVec.getLsbD_extractLsb', hj] using this
  unfold commandWord opField selField flagField immField
  simp only [BitVec.getLsbD_extractLsb', BitVec.getLsbD_append]
  repeat' split
  · simp [show i < 16 by omega]
  · have : i = 16 := by omega
    subst this; simp
  · rename_i h1 h2 h3
    rw [show i = 17 + (i - 17) by omega, hrsv (i - 17) (by omega)]; simp
  · rename_i h1 h2 h3 h4
    rw [decide_eq_true h4, Bool.true_and]; congr 1; omega
  · rename_i h1 h2 h3 h4
    rw [decide_eq_true (by omega), Bool.true_and]; congr 1; omega

/-- The payload reader takes exactly the words that are there. -/
theorem takeWords_append (n : Nat) : ∀ (taken ws rest : List Word), ws.length = n →
    takeWords n taken (ws ++ rest) = some (taken.reverse ++ ws) := by
  induction n with
  | zero => intro taken ws rest h; simp [List.length_eq_zero_iff.mp h, takeWords]
  | succ n ih =>
    intro taken ws rest h
    cases ws with
    | nil => simp at h
    | cons w ws => simp [takeWords, ih (w :: taken) ws rest (by simpa using h)]

/-- What the payload reader takes is the first `n` words. -/
theorem takeWords_some (n : Nat) : ∀ (taken ws p : List Word), takeWords n taken ws = some p →
    ∃ q, p = taken.reverse ++ q ∧ q.length = n ∧ ws.take n = q := by
  induction n with
  | zero => intro taken ws p h; simp [takeWords] at h; exact ⟨[], by simp [h]⟩
  | succ n ih =>
    intro taken ws p h
    cases ws with
    | nil => simp [takeWords] at h
    | cons w ws =>
      obtain ⟨q, hq, hl, ht⟩ := ih _ _ _ h
      exact ⟨w :: q, by simp [hq], by simp [hl], by simp [ht]⟩

/-- A legal word decodes to the command of its `OP`. -/
theorem decodeCommand_of_legal (w : Word) (payload : List Word) (h : illegalEncoding w = none) :
    decodeCommand w payload = commandOf w payload := by simp [decodeCommand, h]

end Sys2Proof
end

