-- ==== Sys2Proof/Laws/State.lean ====
section
/-! SUPPORT. One lemma per field per named update of the state, true by rfl, so that no proof unfolds a
record update. -/

namespace Sys2Proof.Machine

/-! ### Updates of the whole state -/

@[simp] theorem respond_inited (st : Status) (v : Word) (s : State) :
    (respond st v s).inited = s.inited := rfl
@[simp] theorem respond_cfg (st : Status) (v : Word) (s : State) :
    (respond st v s).cfg = s.cfg := rfl
@[simp] theorem respond_sh (st : Status) (v : Word) (s : State) :
    (respond st v s).sh = s.sh := rfl
@[simp] theorem respond_txUntil (st : Status) (v : Word) (s : State) :
    (respond st v s).txUntil = s.txUntil := rfl
@[simp] theorem respond_dec (st : Status) (v : Word) (s : State) :
    (respond st v s).dec = s.dec := rfl
@[simp] theorem respond_keyer (st : Status) (v : Word) (s : State) :
    (respond st v s).keyer = s.keyer := rfl
@[simp] theorem respond_osc (st : Status) (v : Word) (s : State) :
    (respond st v s).osc = s.osc := rfl
@[simp] theorem respond_keyIn (st : Status) (v : Word) (s : State) :
    (respond st v s).keyIn = s.keyIn := rfl
@[simp] theorem respond_msNow (st : Status) (v : Word) (s : State) :
    (respond st v s).msNow = s.msNow := rfl
@[simp] theorem respond_txq (st : Status) (v : Word) (s : State) :
    (respond st v s).txq = s.txq := rfl
@[simp] theorem respond_events (st : Status) (v : Word) (s : State) :
    (respond st v s).events = s.events := rfl
@[simp] theorem respond_results (st : Status) (v : Word) (s : State) :
    (respond st v s).results = s.results ++ [⟨st, v⟩] := rfl
@[simp] theorem respond_input (st : Status) (v : Word) (s : State) :
    (respond st v s).input = s.input := rfl

@[simp] theorem emit_inited (es : List Event) (s : State) :
    (emit es s).inited = s.inited := rfl
@[simp] theorem emit_cfg (es : List Event) (s : State) :
    (emit es s).cfg = s.cfg := rfl
@[simp] theorem emit_sh (es : List Event) (s : State) :
    (emit es s).sh = s.sh := rfl
@[simp] theorem emit_txUntil (es : List Event) (s : State) :
    (emit es s).txUntil = s.txUntil := rfl
@[simp] theorem emit_dec (es : List Event) (s : State) :
    (emit es s).dec = s.dec := rfl
@[simp] theorem emit_keyer (es : List Event) (s : State) :
    (emit es s).keyer = s.keyer := rfl
@[simp] theorem emit_osc (es : List Event) (s : State) :
    (emit es s).osc = s.osc := rfl
@[simp] theorem emit_keyIn (es : List Event) (s : State) :
    (emit es s).keyIn = s.keyIn := rfl
@[simp] theorem emit_msNow (es : List Event) (s : State) :
    (emit es s).msNow = s.msNow := rfl
@[simp] theorem emit_txq (es : List Event) (s : State) :
    (emit es s).txq = s.txq := rfl
@[simp] theorem emit_events (es : List Event) (s : State) :
    (emit es s).events = s.events ++ es := rfl
@[simp] theorem emit_results (es : List Event) (s : State) :
    (emit es s).results = s.results := rfl
@[simp] theorem emit_input (es : List Event) (s : State) :
    (emit es s).input = s.input := rfl

@[simp] theorem consume_inited (n : Nat) (s : State) :
    (consume n s).inited = s.inited := rfl
@[simp] theorem consume_cfg (n : Nat) (s : State) :
    (consume n s).cfg = s.cfg := rfl
@[simp] theorem consume_sh (n : Nat) (s : State) :
    (consume n s).sh = s.sh := rfl
@[simp] theorem consume_txUntil (n : Nat) (s : State) :
    (consume n s).txUntil = s.txUntil := rfl
@[simp] theorem consume_dec (n : Nat) (s : State) :
    (consume n s).dec = s.dec := rfl
@[simp] theorem consume_keyer (n : Nat) (s : State) :
    (consume n s).keyer = s.keyer := rfl
@[simp] theorem consume_osc (n : Nat) (s : State) :
    (consume n s).osc = s.osc := rfl
@[simp] theorem consume_keyIn (n : Nat) (s : State) :
    (consume n s).keyIn = s.keyIn := rfl
@[simp] theorem consume_msNow (n : Nat) (s : State) :
    (consume n s).msNow = s.msNow := rfl
@[simp] theorem consume_txq (n : Nat) (s : State) :
    (consume n s).txq = s.txq := rfl
@[simp] theorem consume_events (n : Nat) (s : State) :
    (consume n s).events = s.events := rfl
@[simp] theorem consume_results (n : Nat) (s : State) :
    (consume n s).results = s.results := rfl
@[simp] theorem consume_input (n : Nat) (s : State) :
    (consume n s).input = s.input.drop n := rfl

@[simp] theorem placeWords_inited (ws : List Word) (s : State) :
    (placeWords ws s).inited = s.inited := rfl
@[simp] theorem placeWords_cfg (ws : List Word) (s : State) :
    (placeWords ws s).cfg = s.cfg := rfl
@[simp] theorem placeWords_sh (ws : List Word) (s : State) :
    (placeWords ws s).sh = s.sh := rfl
@[simp] theorem placeWords_txUntil (ws : List Word) (s : State) :
    (placeWords ws s).txUntil = s.txUntil := rfl
@[simp] theorem placeWords_dec (ws : List Word) (s : State) :
    (placeWords ws s).dec = s.dec := rfl
@[simp] theorem placeWords_keyer (ws : List Word) (s : State) :
    (placeWords ws s).keyer = s.keyer := rfl
@[simp] theorem placeWords_osc (ws : List Word) (s : State) :
    (placeWords ws s).osc = s.osc := rfl
@[simp] theorem placeWords_keyIn (ws : List Word) (s : State) :
    (placeWords ws s).keyIn = s.keyIn := rfl
@[simp] theorem placeWords_msNow (ws : List Word) (s : State) :
    (placeWords ws s).msNow = s.msNow := rfl
@[simp] theorem placeWords_txq (ws : List Word) (s : State) :
    (placeWords ws s).txq = s.txq := rfl
@[simp] theorem placeWords_events (ws : List Word) (s : State) :
    (placeWords ws s).events = s.events := rfl
@[simp] theorem placeWords_results (ws : List Word) (s : State) :
    (placeWords ws s).results = s.results := rfl
@[simp] theorem placeWords_input (ws : List Word) (s : State) :
    (placeWords ws s).input = ws.map HostItem.word ++ s.input := rfl

@[simp] theorem writeConfig_inited (i : Nat) (cfg : CfgRegs) (s : State) :
    (writeConfig i cfg s).inited = s.inited := rfl
@[simp] theorem writeConfig_cfg (i : Nat) (cfg : CfgRegs) (s : State) :
    (writeConfig i cfg s).cfg = { cfg with written := s.cfg.written ||| (1#4 <<< i) } := rfl
@[simp] theorem writeConfig_sh (i : Nat) (cfg : CfgRegs) (s : State) :
    (writeConfig i cfg s).sh = s.sh := rfl
@[simp] theorem writeConfig_txUntil (i : Nat) (cfg : CfgRegs) (s : State) :
    (writeConfig i cfg s).txUntil = s.txUntil := rfl
@[simp] theorem writeConfig_dec (i : Nat) (cfg : CfgRegs) (s : State) :
    (writeConfig i cfg s).dec = s.dec := rfl
@[simp] theorem writeConfig_keyer (i : Nat) (cfg : CfgRegs) (s : State) :
    (writeConfig i cfg s).keyer = s.keyer := rfl
@[simp] theorem writeConfig_osc (i : Nat) (cfg : CfgRegs) (s : State) :
    (writeConfig i cfg s).osc = s.osc := rfl
@[simp] theorem writeConfig_keyIn (i : Nat) (cfg : CfgRegs) (s : State) :
    (writeConfig i cfg s).keyIn = s.keyIn := rfl
@[simp] theorem writeConfig_msNow (i : Nat) (cfg : CfgRegs) (s : State) :
    (writeConfig i cfg s).msNow = s.msNow := rfl
@[simp] theorem writeConfig_txq (i : Nat) (cfg : CfgRegs) (s : State) :
    (writeConfig i cfg s).txq = s.txq := rfl
@[simp] theorem writeConfig_events (i : Nat) (cfg : CfgRegs) (s : State) :
    (writeConfig i cfg s).events = s.events := rfl
@[simp] theorem writeConfig_results (i : Nat) (cfg : CfgRegs) (s : State) :
    (writeConfig i cfg s).results = s.results := rfl
@[simp] theorem writeConfig_input (i : Nat) (cfg : CfgRegs) (s : State) :
    (writeConfig i cfg s).input = s.input := rfl

@[simp] theorem pollLatch_inited (C : Config) (b : BitVec 16) (s : State) :
    (pollLatch C b s).inited = s.inited := rfl
@[simp] theorem pollLatch_cfg (C : Config) (b : BitVec 16) (s : State) :
    (pollLatch C b s).cfg = s.cfg := rfl
@[simp] theorem pollLatch_sh (C : Config) (b : BitVec 16) (s : State) :
    (pollLatch C b s).sh = ⟨s.cfg.wpm, s.cfg.pitch, s.cfg.cwDelay, s.cfg.mode, s.keyIn, b⟩ := rfl
@[simp] theorem pollLatch_txUntil (C : Config) (b : BitVec 16) (s : State) :
    (pollLatch C b s).txUntil = s.txUntil := rfl
@[simp] theorem pollLatch_dec (C : Config) (b : BitVec 16) (s : State) :
    (pollLatch C b s).dec = s.dec := rfl
@[simp] theorem pollLatch_keyer (C : Config) (b : BitVec 16) (s : State) :
    (pollLatch C b s).keyer = if s.cfg.wpm ≠ s.sh.wpm then { s.keyer with period := periodOf C s.cfg.wpm.toNat } else s.keyer := rfl
@[simp] theorem pollLatch_osc (C : Config) (b : BitVec 16) (s : State) :
    (pollLatch C b s).osc = s.osc := rfl
@[simp] theorem pollLatch_keyIn (C : Config) (b : BitVec 16) (s : State) :
    (pollLatch C b s).keyIn = s.keyIn := rfl
@[simp] theorem pollLatch_msNow (C : Config) (b : BitVec 16) (s : State) :
    (pollLatch C b s).msNow = s.msNow := rfl
@[simp] theorem pollLatch_txq (C : Config) (b : BitVec 16) (s : State) :
    (pollLatch C b s).txq = s.txq := rfl
@[simp] theorem pollLatch_events (C : Config) (b : BitVec 16) (s : State) :
    (pollLatch C b s).events = s.events := rfl
@[simp] theorem pollLatch_results (C : Config) (b : BitVec 16) (s : State) :
    (pollLatch C b s).results = s.results := rfl
@[simp] theorem pollLatch_input (C : Config) (b : BitVec 16) (s : State) :
    (pollLatch C b s).input = s.input := rfl

@[simp] theorem initState_inited (C : Config) (s : State) :
    (initState C s).inited = true := rfl
@[simp] theorem initState_cfg (C : Config) (s : State) :
    (initState C s).cfg = s.cfg := rfl
@[simp] theorem initState_sh (C : Config) (s : State) :
    (initState C s).sh = ⟨s.cfg.wpm, s.cfg.pitch, s.cfg.cwDelay, s.cfg.mode, .idle, 0⟩ := rfl
@[simp] theorem initState_txUntil (C : Config) (s : State) :
    (initState C s).txUntil = 0 := rfl
@[simp] theorem initState_dec (C : Config) (s : State) :
    (initState C s).dec = decoderInit C s.cfg s.dec := rfl
@[simp] theorem initState_keyer (C : Config) (s : State) :
    (initState C s).keyer = keyerInit C s.cfg s.keyer := rfl
@[simp] theorem initState_osc (C : Config) (s : State) :
    (initState C s).osc = ⟨0, s.cfg.pitch, incOf C s.cfg.pitch, 0⟩ := rfl
@[simp] theorem initState_keyIn (C : Config) (s : State) :
    (initState C s).keyIn = s.keyIn := rfl
@[simp] theorem initState_msNow (C : Config) (s : State) :
    (initState C s).msNow = s.msNow := rfl
@[simp] theorem initState_txq (C : Config) (s : State) :
    (initState C s).txq = s.txq := rfl
@[simp] theorem initState_events (C : Config) (s : State) :
    (initState C s).events = s.events := rfl
@[simp] theorem initState_results (C : Config) (s : State) :
    (initState C s).results = s.results := rfl
@[simp] theorem initState_input (C : Config) (s : State) :
    (initState C s).input = s.input := rfl

@[simp] theorem txState_inited (C : Config) (s : State) :
    (txState C s).inited = s.inited := rfl
@[simp] theorem txState_cfg (C : Config) (s : State) :
    (txState C s).cfg = s.cfg := rfl
@[simp] theorem txState_sh (C : Config) (s : State) :
    (txState C s).sh = s.sh := rfl
@[simp] theorem txState_txUntil (C : Config) (s : State) :
    (txState C s).txUntil = deadline s ((keyerPart C s).keyer.kd ≠ 0) (advanceKeyer (keyerPart C s).keyer) := rfl
@[simp] theorem txState_dec (C : Config) (s : State) :
    (txState C s).dec = s.dec := rfl
@[simp] theorem txState_keyer (C : Config) (s : State) :
    (txState C s).keyer = advanceKeyer (keyerPart C s).keyer := rfl
@[simp] theorem txState_osc (C : Config) (s : State) :
    (txState C s).osc = { retuneOsc C s.sh.pitch s.osc with
      phase := (retuneOsc C s.sh.pitch s.osc).phase + (retuneOsc C s.sh.pitch s.osc).inc
      envR := advanceEnv C ((keyerPart C s).keyer.kd ≠ 0) (retuneOsc C s.sh.pitch s.osc).envR } := rfl
@[simp] theorem txState_keyIn (C : Config) (s : State) :
    (txState C s).keyIn = s.keyIn := rfl
@[simp] theorem txState_msNow (C : Config) (s : State) :
    (txState C s).msNow = s.msNow := rfl
@[simp] theorem txState_txq (C : Config) (s : State) :
    (txState C s).txq = (keyerPart C s).txq := rfl
@[simp] theorem txState_events (C : Config) (s : State) :
    (txState C s).events = s.events ++ (keyerPart C s).events := rfl
@[simp] theorem txState_results (C : Config) (s : State) :
    (txState C s).results = s.results := rfl
@[simp] theorem txState_input (C : Config) (s : State) :
    (txState C s).input = s.input := rfl

/-! ### Updates of the keyer -/

@[simp] theorem startInterval_curSym (e : Sym) (kd ku : Nat) (k : Keyer) :
    (startInterval e kd ku k).curSym = e := rfl
@[simp] theorem startInterval_nextSym (e : Sym) (kd ku : Nat) (k : Keyer) :
    (startInterval e kd ku k).nextSym = k.nextSym := rfl
@[simp] theorem startInterval_lastSym (e : Sym) (kd ku : Nat) (k : Keyer) :
    (startInterval e kd ku k).lastSym = e := rfl
@[simp] theorem startInterval_prevIn (e : Sym) (kd ku : Nat) (k : Keyer) :
    (startInterval e kd ku k).prevIn = k.prevIn := rfl
@[simp] theorem startInterval_ultLast (e : Sym) (kd ku : Nat) (k : Keyer) :
    (startInterval e kd ku k).ultLast = k.ultLast := rfl
@[simp] theorem startInterval_kd (e : Sym) (kd ku : Nat) (k : Keyer) :
    (startInterval e kd ku k).kd = BitVec.ofNat 32 kd := rfl
@[simp] theorem startInterval_ku (e : Sym) (kd ku : Nat) (k : Keyer) :
    (startInterval e kd ku k).ku = BitVec.ofNat 32 ku := rfl
@[simp] theorem startInterval_period (e : Sym) (kd ku : Nat) (k : Keyer) :
    (startInterval e kd ku k).period = k.period := rfl
@[simp] theorem startInterval_kbSeq (e : Sym) (kd ku : Nat) (k : Keyer) :
    (startInterval e kd ku k).kbSeq = k.kbSeq := rfl
@[simp] theorem startInterval_kbLen (e : Sym) (kd ku : Nat) (k : Keyer) :
    (startInterval e kd ku k).kbLen = k.kbLen := rfl
@[simp] theorem startInterval_kbPos (e : Sym) (kd ku : Nat) (k : Keyer) :
    (startInterval e kd ku k).kbPos = k.kbPos := rfl

@[simp] theorem goIdle_curSym (k : Keyer) :
    (goIdle k).curSym = .idle := rfl
@[simp] theorem goIdle_nextSym (k : Keyer) :
    (goIdle k).nextSym = k.nextSym := rfl
@[simp] theorem goIdle_lastSym (k : Keyer) :
    (goIdle k).lastSym = k.lastSym := rfl
@[simp] theorem goIdle_prevIn (k : Keyer) :
    (goIdle k).prevIn = k.prevIn := rfl
@[simp] theorem goIdle_ultLast (k : Keyer) :
    (goIdle k).ultLast = k.ultLast := rfl
@[simp] theorem goIdle_kd (k : Keyer) :
    (goIdle k).kd = k.kd := rfl
@[simp] theorem goIdle_ku (k : Keyer) :
    (goIdle k).ku = k.ku := rfl
@[simp] theorem goIdle_period (k : Keyer) :
    (goIdle k).period = k.period := rfl
@[simp] theorem goIdle_kbSeq (k : Keyer) :
    (goIdle k).kbSeq = k.kbSeq := rfl
@[simp] theorem goIdle_kbLen (k : Keyer) :
    (goIdle k).kbLen = k.kbLen := rfl
@[simp] theorem goIdle_kbPos (k : Keyer) :
    (goIdle k).kbPos = k.kbPos := rfl

@[simp] theorem clearNext_curSym (k : Keyer) :
    (clearNext k).curSym = k.curSym := rfl
@[simp] theorem clearNext_nextSym (k : Keyer) :
    (clearNext k).nextSym = .idle := rfl
@[simp] theorem clearNext_lastSym (k : Keyer) :
    (clearNext k).lastSym = k.lastSym := rfl
@[simp] theorem clearNext_prevIn (k : Keyer) :
    (clearNext k).prevIn = k.prevIn := rfl
@[simp] theorem clearNext_ultLast (k : Keyer) :
    (clearNext k).ultLast = k.ultLast := rfl
@[simp] theorem clearNext_kd (k : Keyer) :
    (clearNext k).kd = k.kd := rfl
@[simp] theorem clearNext_ku (k : Keyer) :
    (clearNext k).ku = k.ku := rfl
@[simp] theorem clearNext_period (k : Keyer) :
    (clearNext k).period = k.period := rfl
@[simp] theorem clearNext_kbSeq (k : Keyer) :
    (clearNext k).kbSeq = k.kbSeq := rfl
@[simp] theorem clearNext_kbLen (k : Keyer) :
    (clearNext k).kbLen = k.kbLen := rfl
@[simp] theorem clearNext_kbPos (k : Keyer) :
    (clearNext k).kbPos = k.kbPos := rfl

@[simp] theorem loadSequence_curSym (l : List Sym) (k : Keyer) :
    (loadSequence l k).curSym = k.curSym := rfl
@[simp] theorem loadSequence_nextSym (l : List Sym) (k : Keyer) :
    (loadSequence l k).nextSym = k.nextSym := rfl
@[simp] theorem loadSequence_lastSym (l : List Sym) (k : Keyer) :
    (loadSequence l k).lastSym = k.lastSym := rfl
@[simp] theorem loadSequence_prevIn (l : List Sym) (k : Keyer) :
    (loadSequence l k).prevIn = k.prevIn := rfl
@[simp] theorem loadSequence_ultLast (l : List Sym) (k : Keyer) :
    (loadSequence l k).ultLast = k.ultLast := rfl
@[simp] theorem loadSequence_kd (l : List Sym) (k : Keyer) :
    (loadSequence l k).kd = k.kd := rfl
@[simp] theorem loadSequence_ku (l : List Sym) (k : Keyer) :
    (loadSequence l k).ku = k.ku := rfl
@[simp] theorem loadSequence_period (l : List Sym) (k : Keyer) :
    (loadSequence l k).period = k.period := rfl
@[simp] theorem loadSequence_kbSeq (l : List Sym) (k : Keyer) :
    (loadSequence l k).kbSeq = l ++ k.kbSeq.drop l.length := rfl
@[simp] theorem loadSequence_kbLen (l : List Sym) (k : Keyer) :
    (loadSequence l k).kbLen = l.length := rfl
@[simp] theorem loadSequence_kbPos (l : List Sym) (k : Keyer) :
    (loadSequence l k).kbPos = k.kbPos := rfl

/-! ### Updates of the decoder -/

@[simp] theorem pushSymbol_lpfHist (C : Config) (x : RxSymbol) (d : Decoder) :
    (pushSymbol C x d).lpfHist = d.lpfHist := rfl
@[simp] theorem pushSymbol_bins (C : Config) (x : RxSymbol) (d : Decoder) :
    (pushSymbol C x d).bins = d.bins := rfl
@[simp] theorem pushSymbol_pitch (C : Config) (x : RxSymbol) (d : Decoder) :
    (pushSymbol C x d).pitch = d.pitch := rfl
@[simp] theorem pushSymbol_wpm (C : Config) (x : RxSymbol) (d : Decoder) :
    (pushSymbol C x d).wpm = d.wpm := rfl
@[simp] theorem pushSymbol_dashLen (C : Config) (x : RxSymbol) (d : Decoder) :
    (pushSymbol C x d).dashLen = d.dashLen := rfl
@[simp] theorem pushSymbol_highLevel (C : Config) (x : RxSymbol) (d : Decoder) :
    (pushSymbol C x d).highLevel = d.highLevel := rfl
@[simp] theorem pushSymbol_noiseFloor (C : Config) (x : RxSymbol) (d : Decoder) :
    (pushSymbol C x d).noiseFloor = d.noiseFloor := rfl
@[simp] theorem pushSymbol_streak (C : Config) (x : RxSymbol) (d : Decoder) :
    (pushSymbol C x d).streak = d.streak := rfl
@[simp] theorem pushSymbol_winBin (C : Config) (x : RxSymbol) (d : Decoder) :
    (pushSymbol C x d).winBin = d.winBin := rfl
@[simp] theorem pushSymbol_lastMag (C : Config) (x : RxSymbol) (d : Decoder) :
    (pushSymbol C x d).lastMag = d.lastMag := rfl
@[simp] theorem pushSymbol_sigState (C : Config) (x : RxSymbol) (d : Decoder) :
    (pushSymbol C x d).sigState = d.sigState := rfl
@[simp] theorem pushSymbol_hist (C : Config) (x : RxSymbol) (d : Decoder) :
    (pushSymbol C x d).hist = d.hist := rfl
@[simp] theorem pushSymbol_mark (C : Config) (x : RxSymbol) (d : Decoder) :
    (pushSymbol C x d).mark = d.mark := rfl
@[simp] theorem pushSymbol_prevMark (C : Config) (x : RxSymbol) (d : Decoder) :
    (pushSymbol C x d).prevMark = d.prevMark := rfl
@[simp] theorem pushSymbol_wsFlag (C : Config) (x : RxSymbol) (d : Decoder) :
    (pushSymbol C x d).wsFlag = d.wsFlag := rfl
@[simp] theorem pushSymbol_ticks (C : Config) (x : RxSymbol) (d : Decoder) :
    (pushSymbol C x d).ticks = d.ticks := rfl
@[simp] theorem pushSymbol_sym (C : Config) (x : RxSymbol) (d : Decoder) :
    (pushSymbol C x d).sym = d.sym.set d.symWr x := rfl
@[simp] theorem pushSymbol_symWr (C : Config) (x : RxSymbol) (d : Decoder) :
    (pushSymbol C x d).symWr = (d.symWr + 1) % C.symCap := rfl

@[simp] theorem segmentEdge_lpfHist (C : Config) (m : BitVec 64) (d : Decoder) :
    (segmentEdge C m d).lpfHist = d.lpfHist := rfl
@[simp] theorem segmentEdge_bins (C : Config) (m : BitVec 64) (d : Decoder) :
    (segmentEdge C m d).bins = d.bins := rfl
@[simp] theorem segmentEdge_pitch (C : Config) (m : BitVec 64) (d : Decoder) :
    (segmentEdge C m d).pitch = d.pitch := rfl
@[simp] theorem segmentEdge_wpm (C : Config) (m : BitVec 64) (d : Decoder) :
    (segmentEdge C m d).wpm = d.wpm := rfl
@[simp] theorem segmentEdge_dashLen (C : Config) (m : BitVec 64) (d : Decoder) :
    (segmentEdge C m d).dashLen = d.dashLen := rfl
@[simp] theorem segmentEdge_highLevel (C : Config) (m : BitVec 64) (d : Decoder) :
    (segmentEdge C m d).highLevel = d.highLevel := rfl
@[simp] theorem segmentEdge_noiseFloor (C : Config) (m : BitVec 64) (d : Decoder) :
    (segmentEdge C m d).noiseFloor = d.noiseFloor := rfl
@[simp] theorem segmentEdge_streak (C : Config) (m : BitVec 64) (d : Decoder) :
    (segmentEdge C m d).streak = d.streak := rfl
@[simp] theorem segmentEdge_winBin (C : Config) (m : BitVec 64) (d : Decoder) :
    (segmentEdge C m d).winBin = d.winBin := rfl
@[simp] theorem segmentEdge_lastMag (C : Config) (m : BitVec 64) (d : Decoder) :
    (segmentEdge C m d).lastMag = d.lastMag := rfl
@[simp] theorem segmentEdge_sigState (C : Config) (m : BitVec 64) (d : Decoder) :
    (segmentEdge C m d).sigState = d.sigState := rfl
@[simp] theorem segmentEdge_hist (C : Config) (m : BitVec 64) (d : Decoder) :
    (segmentEdge C m d).hist = d.hist := rfl
@[simp] theorem segmentEdge_mark (C : Config) (m : BitVec 64) (d : Decoder) :
    (segmentEdge C m d).mark = d.mark := rfl
@[simp] theorem segmentEdge_prevMark (C : Config) (m : BitVec 64) (d : Decoder) :
    (segmentEdge C m d).prevMark = d.prevMark := rfl
@[simp] theorem segmentEdge_wsFlag (C : Config) (m : BitVec 64) (d : Decoder) :
    (segmentEdge C m d).wsFlag = d.wsFlag := rfl
@[simp] theorem segmentEdge_ticks (C : Config) (m : BitVec 64) (d : Decoder) :
    (segmentEdge C m d).ticks = 0 := rfl
@[simp] theorem segmentEdge_sym (C : Config) (m : BitVec 64) (d : Decoder) :
    (segmentEdge C m d).sym = d.sym.set d.symWr ⟨d.prevMark, m, d.ticks⟩ := rfl
@[simp] theorem segmentEdge_symWr (C : Config) (m : BitVec 64) (d : Decoder) :
    (segmentEdge C m d).symWr = (d.symWr + 1) % C.symCap := rfl

@[simp] theorem denoise_lpfHist (d : Decoder) :
    (denoise d).lpfHist = d.lpfHist := rfl
@[simp] theorem denoise_bins (d : Decoder) :
    (denoise d).bins = d.bins := rfl
@[simp] theorem denoise_pitch (d : Decoder) :
    (denoise d).pitch = d.pitch := rfl
@[simp] theorem denoise_wpm (d : Decoder) :
    (denoise d).wpm = d.wpm := rfl
@[simp] theorem denoise_dashLen (d : Decoder) :
    (denoise d).dashLen = d.dashLen := rfl
@[simp] theorem denoise_highLevel (d : Decoder) :
    (denoise d).highLevel = d.highLevel := rfl
@[simp] theorem denoise_noiseFloor (d : Decoder) :
    (denoise d).noiseFloor = d.noiseFloor := rfl
@[simp] theorem denoise_streak (d : Decoder) :
    (denoise d).streak = d.streak := rfl
@[simp] theorem denoise_winBin (d : Decoder) :
    (denoise d).winBin = d.winBin := rfl
@[simp] theorem denoise_lastMag (d : Decoder) :
    (denoise d).lastMag = d.lastMag := rfl
@[simp] theorem denoise_sigState (d : Decoder) :
    (denoise d).sigState = d.sigState := rfl
@[simp] theorem denoise_hist (d : Decoder) :
    (denoise d).hist = histPush d.hist d.sigState := rfl
@[simp] theorem denoise_mark (d : Decoder) :
    (denoise d).mark = decide (3 ≤ histCount (histPush d.hist d.sigState)) := rfl
@[simp] theorem denoise_prevMark (d : Decoder) :
    (denoise d).prevMark = d.mark := rfl
@[simp] theorem denoise_wsFlag (d : Decoder) :
    (denoise d).wsFlag = d.wsFlag := rfl
@[simp] theorem denoise_ticks (d : Decoder) :
    (denoise d).ticks = d.ticks := rfl
@[simp] theorem denoise_sym (d : Decoder) :
    (denoise d).sym = d.sym := rfl
@[simp] theorem denoise_symWr (d : Decoder) :
    (denoise d).symWr = d.symWr := rfl

@[simp] theorem levelUpdate_lpfHist (C : Config) (m : BitVec 64) (d : Decoder) :
    (levelUpdate C m d).lpfHist = d.lpfHist := rfl
@[simp] theorem levelUpdate_bins (C : Config) (m : BitVec 64) (d : Decoder) :
    (levelUpdate C m d).bins = d.bins := rfl
@[simp] theorem levelUpdate_pitch (C : Config) (m : BitVec 64) (d : Decoder) :
    (levelUpdate C m d).pitch = d.pitch := rfl
@[simp] theorem levelUpdate_wpm (C : Config) (m : BitVec 64) (d : Decoder) :
    (levelUpdate C m d).wpm = d.wpm := rfl
@[simp] theorem levelUpdate_dashLen (C : Config) (m : BitVec 64) (d : Decoder) :
    (levelUpdate C m d).dashLen = d.dashLen := rfl
@[simp] theorem levelUpdate_highLevel (C : Config) (m : BitVec 64) (d : Decoder) :
    (levelUpdate C m d).highLevel = peakUpdate C m d.highLevel := rfl
@[simp] theorem levelUpdate_noiseFloor (C : Config) (m : BitVec 64) (d : Decoder) :
    (levelUpdate C m d).noiseFloor = floorUpdate C m (peakUpdate C m d.highLevel) d.noiseFloor := rfl
@[simp] theorem levelUpdate_streak (C : Config) (m : BitVec 64) (d : Decoder) :
    (levelUpdate C m d).streak = d.streak := rfl
@[simp] theorem levelUpdate_winBin (C : Config) (m : BitVec 64) (d : Decoder) :
    (levelUpdate C m d).winBin = d.winBin := rfl
@[simp] theorem levelUpdate_lastMag (C : Config) (m : BitVec 64) (d : Decoder) :
    (levelUpdate C m d).lastMag = d.lastMag := rfl
@[simp] theorem levelUpdate_sigState (C : Config) (m : BitVec 64) (d : Decoder) :
    (levelUpdate C m d).sigState = d.sigState := rfl
@[simp] theorem levelUpdate_hist (C : Config) (m : BitVec 64) (d : Decoder) :
    (levelUpdate C m d).hist = d.hist := rfl
@[simp] theorem levelUpdate_mark (C : Config) (m : BitVec 64) (d : Decoder) :
    (levelUpdate C m d).mark = d.mark := rfl
@[simp] theorem levelUpdate_prevMark (C : Config) (m : BitVec 64) (d : Decoder) :
    (levelUpdate C m d).prevMark = d.prevMark := rfl
@[simp] theorem levelUpdate_wsFlag (C : Config) (m : BitVec 64) (d : Decoder) :
    (levelUpdate C m d).wsFlag = d.wsFlag := rfl
@[simp] theorem levelUpdate_ticks (C : Config) (m : BitVec 64) (d : Decoder) :
    (levelUpdate C m d).ticks = d.ticks := rfl
@[simp] theorem levelUpdate_sym (C : Config) (m : BitVec 64) (d : Decoder) :
    (levelUpdate C m d).sym = d.sym := rfl
@[simp] theorem levelUpdate_symWr (C : Config) (m : BitVec 64) (d : Decoder) :
    (levelUpdate C m d).symWr = d.symWr := rfl

@[simp] theorem streakUpdate_lpfHist (C : Config) (b : BitVec 3) (d : Decoder) :
    (streakUpdate C b d).lpfHist = d.lpfHist := rfl
@[simp] theorem streakUpdate_bins (C : Config) (b : BitVec 3) (d : Decoder) :
    (streakUpdate C b d).bins = d.bins := rfl
@[simp] theorem streakUpdate_pitch (C : Config) (b : BitVec 3) (d : Decoder) :
    (streakUpdate C b d).pitch = d.pitch := rfl
@[simp] theorem streakUpdate_wpm (C : Config) (b : BitVec 3) (d : Decoder) :
    (streakUpdate C b d).wpm = d.wpm := rfl
@[simp] theorem streakUpdate_dashLen (C : Config) (b : BitVec 3) (d : Decoder) :
    (streakUpdate C b d).dashLen = d.dashLen := rfl
@[simp] theorem streakUpdate_highLevel (C : Config) (b : BitVec 3) (d : Decoder) :
    (streakUpdate C b d).highLevel = d.highLevel := rfl
@[simp] theorem streakUpdate_noiseFloor (C : Config) (b : BitVec 3) (d : Decoder) :
    (streakUpdate C b d).noiseFloor = d.noiseFloor := rfl
@[simp] theorem streakUpdate_streak (C : Config) (b : BitVec 3) (d : Decoder) :
    (streakUpdate C b d).streak = if b = d.winBin then BitVec.ofNat 16 (min (d.streak.toNat + 1) C.streakMax) else 1 := rfl
@[simp] theorem streakUpdate_winBin (C : Config) (b : BitVec 3) (d : Decoder) :
    (streakUpdate C b d).winBin = b := rfl
@[simp] theorem streakUpdate_lastMag (C : Config) (b : BitVec 3) (d : Decoder) :
    (streakUpdate C b d).lastMag = d.lastMag := rfl
@[simp] theorem streakUpdate_sigState (C : Config) (b : BitVec 3) (d : Decoder) :
    (streakUpdate C b d).sigState = d.sigState := rfl
@[simp] theorem streakUpdate_hist (C : Config) (b : BitVec 3) (d : Decoder) :
    (streakUpdate C b d).hist = d.hist := rfl
@[simp] theorem streakUpdate_mark (C : Config) (b : BitVec 3) (d : Decoder) :
    (streakUpdate C b d).mark = d.mark := rfl
@[simp] theorem streakUpdate_prevMark (C : Config) (b : BitVec 3) (d : Decoder) :
    (streakUpdate C b d).prevMark = d.prevMark := rfl
@[simp] theorem streakUpdate_wsFlag (C : Config) (b : BitVec 3) (d : Decoder) :
    (streakUpdate C b d).wsFlag = d.wsFlag := rfl
@[simp] theorem streakUpdate_ticks (C : Config) (b : BitVec 3) (d : Decoder) :
    (streakUpdate C b d).ticks = d.ticks := rfl
@[simp] theorem streakUpdate_sym (C : Config) (b : BitVec 3) (d : Decoder) :
    (streakUpdate C b d).sym = d.sym := rfl
@[simp] theorem streakUpdate_symWr (C : Config) (b : BitVec 3) (d : Decoder) :
    (streakUpdate C b d).symWr = d.symWr := rfl

end Sys2Proof.Machine
end

