-- ==== Sys2Proof/Laws/Ops.lean ====
section
/-! SUPPORT. For each shared operation, one lemma that says everything it can do. -/

namespace Sys2Proof.Machine

/-! ### The reference values of 00_scope.md R7 -/

theorem theConfig_tickSamples : theConfig.tickSamples = 1024 := rfl
theorem theConfig_symCap : theConfig.symCap = 100 := rfl
theorem theConfig_streakMax : theConfig.streakMax = 65535 := rfl
theorem theConfig_envRamp : theConfig.envRamp = 480 := rfl
theorem theConfig_hlDecay : theConfig.hlDecay = 100 := rfl
theorem theConfig_nfDecay : theConfig.nfDecay = 100 := rfl
theorem theConfig_lpfTaps : theConfig.lpfTaps = [1, 1, 1, 1, 1, 1, 1, 1] := rfl
theorem theConfig_kbCap : theConfig.kbCap = 13 := by decide +kernel
theorem initDash_theConfig (w : Nat) : initDash theConfig w = 216000 / (640 * w) := rfl

/-! ### Answers, events, host actions -/

/-- A refusal is a next state: a result and nothing else. -/
theorem refuse_eq (st : Status) (s : State) :
    refuse st s = .next { s with results := s.results ++ [⟨st, 0⟩] } := rfl

/-- An accepted command answers OK with its value. -/
theorem accept_eq (v : Word) (s : State) :
    accept v s = .next { s with results := s.results ++ [⟨.ok, v⟩] } := rfl

/-- What `emit` does: it appends to `EVENTS`. -/
theorem emit_eq (es : List Event) (s : State) : emit es s = { s with events := s.events ++ es } := rfl

/-- With no input left the host has nothing to do. -/
theorem hostActions_nil (s : State) : hostActions [] s = { s with input := [] } := rfl

/-- A command word ends the host's actions. -/
theorem hostActions_word (w : Word) (rest : List HostItem) (s : State) :
    hostActions (.word w :: rest) s = { s with input := .word w :: rest } := rfl

/-- Any other host item is taken and passed over. -/
theorem hostActions_cons (a : HostItem) (rest : List HostItem) (s : State)
    (h : ∀ w, a ≠ .word w) : hostActions (a :: rest) s = hostActions rest (hostAction a s) := by
  cases a with
  | word w => exact absurd rfl (h w)
  | setKey _ => rfl
  | setNow _ => rfl
  | queueText _ => rfl
  | clearText => rfl
  | takeEvents _ => rfl

/-- A host action touches the host's ports only. -/
theorem hostAction_frame (a : HostItem) (s : State) :
    hostAction a s =
      { s with
        keyIn := (hostAction a s).keyIn
        msNow := (hostAction a s).msNow
        txq := (hostAction a s).txq
        events := (hostAction a s).events } := by cases a <;> rfl

/-- The host's actions touch the host's ports and the input only. -/
theorem hostActions_frame (items : List HostItem) : ∀ s : State,
    hostActions items s =
      { s with
        keyIn := (hostActions items s).keyIn
        msNow := (hostActions items s).msNow
        txq := (hostActions items s).txq
        events := (hostActions items s).events
        input := (hostActions items s).input } := by
  induction items with
  | nil => intro s; rfl
  | cons a rest ih =>
    intro s
    cases a with
    | word w => rfl
    | setKey k => exact ih (hostAction (.setKey k) s)
    | setNow t => exact ih (hostAction (.setNow t) s)
    | queueText b => exact ih (hostAction (.queueText b) s)
    | clearText => exact ih (hostAction .clearText s)
    | takeEvents n => exact ih (hostAction (.takeEvents n) s)

/-- The words of a list of words at the head of the input are read back, up to a host action. -/
theorem portWords_append (ws : List Word) (rest : List HostItem) :
    portWords (ws.map HostItem.word ++ rest) = ws ++ portWords rest := by
  induction ws with
  | nil => rfl
  | cons w ws ih => simp [portWords, ih]

/-- Consuming the words of a list leaves what follows them. -/
theorem drop_words (ws : List Word) (rest : List HostItem) :
    (ws.map HostItem.word ++ rest).drop ws.length = rest := by simp

/-- What a fetch answers: idle, an illegal word or a command, each consumed from the port. -/
theorem fetch_cases (s : State) :
    (decode (portWords (hostActions s.input s).input) = .incomplete ∧
      fetch s = .idle (hostActions s.input s)) ∨
    (∃ why n, decode (portWords (hostActions s.input s).input) = .illegal why n ∧
      fetch s = .illegal (consume n (hostActions s.input s))) ∨
    ∃ i n, decode (portWords (hostActions s.input s).input) = .command i n ∧
      fetch s = .command i (consume n (hostActions s.input s)) := by
  cases h : decode (portWords (hostActions s.input s).input) with
  | command i n => exact .inr (.inr ⟨i, n, rfl, by simp [fetch, h]⟩)
  | illegal why n => exact .inr (.inl ⟨why, n, rfl, by simp [fetch, h]⟩)
  | incomplete => exact .inl ⟨rfl, by simp [fetch, h]⟩

/-! ### The receiver -/

/-- Selection from bin `i` on keeps the best so far or takes a strictly larger one. -/
theorem selectFrom_bound (xs : List (BitVec 64)) : ∀ (i b : BitVec 3) (m : BitVec 64),
    m ≤ (selectFrom xs i b m).2 ∧ ∀ x ∈ xs, x ≤ (selectFrom xs i b m).2 := by
  induction xs with
  | nil => intro i b m; simp [selectFrom]
  | cons x xs ih =>
    intro i b m
    unfold selectFrom
    split
    · rename_i h
      refine ⟨BitVec.le_trans (BitVec.le_of_lt h) (ih _ _ _).1, ?_⟩
      intro y hy
      cases List.mem_cons.mp hy with
      | inl e => subst e; exact (ih _ _ _).1
      | inr e => exact (ih _ _ _).2 y e
    · rename_i h
      refine ⟨(ih _ _ _).1, ?_⟩
      intro y hy
      cases List.mem_cons.mp hy with
      | inl e => subst e; exact BitVec.le_trans (BitVec.not_lt.mp h) (ih _ _ _).1
      | inr e => exact (ih _ _ _).2 y e

/-- The winning bin is one of the five. -/
theorem selectBin_index (C : Config) (f : BinFile) (d : List Int) : (selectBin C f d).1.toNat < 5 := by
  simp only [selectBin, selectFrom]
  (repeat' split) <;> simp

/-- The word-space guard: silent when the last output was a word-space, else one word-space. -/
theorem emitWordSpace_cases (d : Decoder) :
    (d.wsFlag = true ∧ emitWordSpace d = (d, [])) ∨
    (d.wsFlag = false ∧ emitWordSpace d = ({ d with wsFlag := true }, [.con .rx [0x20#8]])) := by
  unfold emitWordSpace
  cases h : d.wsFlag <;> simp

/-- The dash length after an observed dash: kept, or the rounded mean when that is in range. -/
theorem adaptDash_cases (C : Config) (wpm : BitVec 16) (dashLen ticks : BitVec 32) :
    adaptDash C wpm dashLen ticks = dashLen ∨
    (initDash C wpm.toNat ≤ 2 * ((3 * dashLen.toNat + ticks.toNat) / 4) ∧
      (3 * dashLen.toNat + ticks.toNat) / 4 ≤ 2 * initDash C wpm.toNat ∧
      adaptDash C wpm dashLen ticks = BitVec.ofNat 32 ((3 * dashLen.toNat + ticks.toNat) / 4)) := by
  unfold adaptDash
  dsimp only
  split
  · rename_i h; exact .inr ⟨h.1, h.2, rfl⟩
  · exact .inl rfl

/-- A rounded mean of two 32-bit values is itself a 32-bit value. -/
theorem adaptDash_toNat (C : Config) (wpm : BitVec 16) (dashLen ticks : BitVec 32) :
    (adaptDash C wpm dashLen ticks).toNat = dashLen.toNat ∨
    (initDash C wpm.toNat ≤ 2 * ((3 * dashLen.toNat + ticks.toNat) / 4) ∧
      (3 * dashLen.toNat + ticks.toNat) / 4 ≤ 2 * initDash C wpm.toNat ∧
      (adaptDash C wpm dashLen ticks).toNat = (3 * dashLen.toNat + ticks.toNat) / 4) := by
  rcases adaptDash_cases C wpm dashLen ticks with h | ⟨h1, h2, h3⟩
  · exact .inl (by rw [h])
  · refine .inr ⟨h1, h2, ?_⟩
    rw [h3, BitVec.toNat_ofNat]
    have := dashLen.isLt
    have := ticks.isLt
    omega

/-- What closing a letter does: the buffer empties; either nothing is output, or one non-empty text. -/
theorem matchLetter_cases (C : Config) (d : Decoder) :
    matchLetter C d =
        ({ d with dashLen := (matchMarks C d.wpm (d.sym.take d.symWr) d.dashLen).2, symWr := 0 }, []) ∨
    ∃ text, text ≠ [] ∧ matchLetter C d =
        ({ d with
            dashLen := (matchMarks C d.wpm (d.sym.take d.symWr) d.dashLen).2
            symWr := 0
            wsFlag := false }, [.con .rx text]) := by
  unfold matchLetter
  dsimp only
  split
  · exact .inl rfl
  · rename_i h; exact .inr ⟨_, h, rfl⟩

/-- The segmenter writes only the tick counter, the symbol buffer, the dash length and the guard. -/
theorem emitWordSpace_frame (d : Decoder) :
    (emitWordSpace d).1 = { d with wsFlag := (emitWordSpace d).1.wsFlag } := by
  rcases emitWordSpace_cases d with ⟨_, h⟩ | ⟨_, h⟩ <;> rw [h]

theorem matchLetter_frame (C : Config) (d : Decoder) :
    (matchLetter C d).1 =
      { d with
        dashLen := (matchMarks C d.wpm (d.sym.take d.symWr) d.dashLen).2
        symWr := 0
        wsFlag := (matchLetter C d).1.wsFlag } := by
  rcases matchLetter_cases C d with h | ⟨t, _, h⟩ <;> rw [h]

/-- What closing a letter leaves. -/
theorem closeLetter_frame (C : Config) (m : BitVec 64) (d : Decoder) :
    (closeLetter C m d).1 =
      { d with
        ticks := 0
        sym := d.sym.set d.symWr ⟨false, m, d.ticks⟩
        symWr := 0
        dashLen := (closeLetter C m d).1.dashLen
        wsFlag := (closeLetter C m d).1.wsFlag } := by
  unfold closeLetter
  dsimp only
  split
  · rw [emitWordSpace_frame, matchLetter_frame]; rfl
  · rw [matchLetter_frame]; rfl

/-- What the segmenter can do on a tick, by the transition of `(PREV_MARK, MARK)`. -/
theorem segment_cases (C : Config) (m : BitVec 64) (d0 : Decoder) :
    let d := { d0 with ticks := BitVec.ofNat 32 (d0.ticks.toNat + 1) }
    (d0.prevMark ≠ d0.mark ∧ segment C m d0 = (segmentEdge C m d, [])) ∨
    (d0.prevMark = true ∧ d0.mark = true ∧ segment C m d0 = (segmentMark d, [])) ∨
    (d0.prevMark = false ∧ d0.mark = false ∧ hasMark d0 = true ∧ d.dashLen.toNat < 2 * d.ticks.toNat ∧
      segment C m d0 = closeLetter C m d) ∨
    (d0.prevMark = false ∧ d0.mark = false ∧ hasMark d0 = true ∧ ¬d.dashLen.toNat < 2 * d.ticks.toNat ∧
      segment C m d0 = (d, [])) ∨
    (d0.prevMark = false ∧ d0.mark = false ∧ hasMark d0 = false ∧ segment C m d0 = segmentSilence d) := by
  intro d
  have hm : hasMark d = hasMark d0 := rfl
  have hp : d.prevMark = d0.prevMark := rfl
  have hk : d.mark = d0.mark := rfl
  have hs : segment C m d0 = match d.prevMark, d.mark with
      | false, true => (segmentEdge C m d, [])
      | true, false => (segmentEdge C m d, [])
      | true, true => (segmentMark d, [])
      | false, false =>
        if hasMark d then
          if d.dashLen.toNat < 2 * d.ticks.toNat then closeLetter C m d else (d, [])
        else segmentSilence d := rfl
  rw [hs, hm, hp, hk]
  cases d0.prevMark <;> cases d0.mark
  · cases hasMark d0
    · exact .inr (.inr (.inr (.inr ⟨rfl, rfl, rfl, rfl⟩)))
    · by_cases hl : d.dashLen.toNat < 2 * d.ticks.toNat
      · exact .inr (.inr (.inl ⟨rfl, rfl, rfl, hl, by simp [hl]⟩))
      · exact .inr (.inr (.inr (.inl ⟨rfl, rfl, rfl, hl, by simp [hl]⟩)))
  · exact .inl ⟨by decide, rfl⟩
  · exact .inl ⟨by decide, rfl⟩
  · exact .inr (.inl ⟨rfl, rfl, rfl⟩)

/-! ### The keyer -/

/-- A started interval's counters, when they fit their registers. -/
theorem startInterval_counts (e : Sym) (kd ku : Nat) (k : Keyer) (h : kd < 2 ^ 32) (h' : ku < 2 ^ 32) :
    (startInterval e kd ku k).kd.toNat = kd ∧ (startInterval e kd ku k).ku.toNat = ku := by
  exact ⟨by rw [startInterval_kd, BitVec.toNat_ofNat, Nat.mod_eq_of_lt h],
    by rw [startInterval_ku, BitVec.toNat_ofNat, Nat.mod_eq_of_lt h']⟩

/-- A mode handler leaves the playback registers and the dot length alone. -/
theorem modeHandler_frame (mode : Mode) (key : Key) (idle fromKey : Bool) (sn : Sym) (k : Keyer) :
    let k' := modeHandler mode key idle fromKey sn k
    k'.kbSeq = k.kbSeq ∧ k'.kbLen = k.kbLen ∧ k'.kbPos = k.kbPos ∧ k'.period = k.period ∧
      k'.prevIn = k.prevIn := by
  cases mode <;> cases idle <;> cases fromKey <;> cases sn <;>
    simp only [modeHandler, straightHandler, bugHandler, ultimaticHandler, ultimaticEdges, iambicIdle,
      iambicABusy, iambicBBusy, keyboardHandler, keyboardFromKey, keyboardFromText, startElement] <;>
    (repeat' split) <;> exact ⟨rfl, rfl, rfl, rfl, rfl⟩

/-- SYMBOL_NOW touches only the playback registers; it takes at most the queue's head byte, with at most
that byte's echo, and only between characters, in KEYBOARD mode with the key open. -/
theorem symbolNow_cases (C : Config) (key : Key) (mode : Mode) (k : Keyer) (txq : List Byte) :
    let n := symbolNow C key mode k txq
    n.keyer = { k with kbSeq := n.keyer.kbSeq, kbLen := n.keyer.kbLen, kbPos := n.keyer.kbPos } ∧
    ((n.txq = txq ∧ n.events = [] ∧ n.keyer.kbSeq = k.kbSeq ∧ n.keyer.kbLen = k.kbLen) ∨
      ∃ c, txq = c :: n.txq ∧ key = .idle ∧ mode = .keyboard ∧ ¬k.kbPos < k.kbLen ∧
        (n.events = [] ∧ n.keyer = k ∨
          ∃ syms, spellByte C c = some syms ∧ n.events = [.con .tx [c]] ∧
            n.keyer = { loadSequence syms k with kbPos := 1 })) := by
  unfold symbolNow
  by_cases hkey : key = .idle
  · by_cases hmode : mode = .keyboard
    · simp only [hkey, hmode, symbolFromText]
      by_cases hpos : k.kbPos < k.kbLen
      · simp [hpos]
      · cases txq with
        | nil => simp [hpos]
        | cons c rest =>
          cases hs : spellByte C c with
          | none => simp [hpos, hs]
          | some syms => simp [hpos, hs, loadSequence]
    · simp [hkey, hmode]
  · simp [hkey]

/-- What a table lookup finds stands in the table under that key. -/
theorem tableLookup_mem {α β : Type} [DecidableEq α] (key : α) (v : β) : ∀ l : List (α × β),
    tableLookup key l = some v → (key, v) ∈ l := by
  intro l
  induction l with
  | nil => intro h; simp [tableLookup] at h
  | cons r l ih =>
    obtain ⟨k, v'⟩ := r
    intro h
    unfold tableLookup at h
    split at h
    · rename_i hk
      injection h with h
      simp [hk, h]
    · exact List.mem_cons_of_mem _ (ih h)

/-- A spelled code is never empty and takes at most two symbols per code symbol and one more. -/
theorem spellCode_length (code : List TxElem) :
    1 ≤ (spellCode code).length ∧ (spellCode code).length ≤ 2 * code.length + 1 := by
  induction code with
  | nil => simp [spellCode]
  | cons e es ih => cases e <;> simp [spellCode] <;> omega

/-- A spelled byte is never empty. -/
theorem spellByte_length_pos (C : Config) (c : Byte) (syms : List Sym) (h : spellByte C c = some syms) :
    1 ≤ syms.length := by
  unfold spellByte at h
  split at h
  · injection h with h; subst h; exact Nat.le_refl 1
  · obtain ⟨code, _, rfl⟩ := Option.map_eq_some_iff.mp h
    exact (spellCode_length code).1

/-- SYMBOL_NOW keeps the playback position within the playback length. -/
theorem symbolNow_kbPos (C : Config) (key : Key) (mode : Mode) (k : Keyer) (txq : List Byte)
    (h : k.kbPos ≤ k.kbLen) :
    (symbolNow C key mode k txq).keyer.kbPos ≤ (symbolNow C key mode k txq).keyer.kbLen := by
  by_cases hkey : key = .idle
  · by_cases hmode : mode = .keyboard
    · simp only [symbolNow, hkey, hmode, symbolFromText]
      by_cases hpos : k.kbPos < k.kbLen
      · simp [hpos]
      · cases txq with
        | nil => simp [hpos, h]
        | cons c rest =>
          cases hs : spellByte C c with
          | none => simpa [hpos, hs] using h
          | some syms => simpa [hpos, hs] using spellByte_length_pos C c syms hs
    · simpa [symbolNow, hkey, hmode] using h
  · simpa [symbolNow, hkey] using h

/-- The keyer part of TXS is one invocation, or nothing. -/
theorem keyerPart_cases (C : Config) (s : State) :
    keyerPart C s = ⟨s.keyer, s.txq, []⟩ ∨
    keyerPart C s =
      keyerStep C s.sh.key (activeMode s.sh s.keyer) (keyerIdle s.keyer) s.keyer s.txq := by
  unfold keyerPart
  dsimp only
  split
  · exact .inr rfl
  · exact .inl rfl

/-- The countdowns change the two counters only. -/
theorem advanceKeyer_frame (k : Keyer) :
    advanceKeyer k = { k with kd := (advanceKeyer k).kd, ku := (advanceKeyer k).ku } := by
  unfold advanceKeyer
  split
  · rfl
  · split <;> rfl

/-- The envelope's ramp position stays within the ramp. -/
theorem advanceEnv_le (C : Config) (keyed : Bool) (envR : BitVec 16) (h : envR.toNat ≤ C.envRamp) :
    (advanceEnv C keyed envR).toNat ≤ C.envRamp := by
  have := envR.isLt
  unfold advanceEnv
  split <;> rw [BitVec.toNat_ofNat]
  · exact Nat.le_trans (Nat.mod_le _ _) (Nat.min_le_right _ _)
  · exact Nat.le_trans (Nat.mod_le _ _) (by omega)

/-! ### Control -/

/-- POLL's decision: PTT on with the deadline armed, PTT off, or nothing. -/
theorem pttDecide_cases (txOn : Bool) (s : State) :
    (txOn = false ∧ (s.sh.key ≠ .idle ∨ s.sh.bytes ≠ 0) ∧
      pttDecide txOn s = emit [.pttOn] { s with txUntil := s.msNow + s.sh.cwDelay.setWidth 64 }) ∨
    (txOn = true ∧ s.txUntil < s.msNow ∧ pttDecide txOn s = emit [.pttOff] s) ∨
    pttDecide txOn s = s := by
  unfold pttDecide
  split
  · rename_i h; exact .inl ⟨h.1, h.2, rfl⟩
  · split
    · rename_i _ h; exact .inr (.inl ⟨h.1, h.2, rfl⟩)
    · exact .inr (.inr rfl)

/-- A configuration write's frame. -/
theorem writeConfig_eq (i : Nat) (cfg : CfgRegs) (s : State) :
    writeConfig i cfg s = { s with cfg := { cfg with written := s.cfg.written ||| (1#4 <<< i) } } := rfl

end Sys2Proof.Machine
end

