-- ==== Sys2Proof/Laws/PerInstr.lean ====
section
/-! SUPPORT. Statements for all commands, proved command by command: `EncodeLength` says that every
command's encoding is one command word followed by as many payload words as its `OP` says
(30_encoding.md R101) and that the command word is legal (R106). -/

namespace Sys2Proof.Laws

/-- The command's encoding is a legal command word and its payload, whose length the word itself tells. -/
def EncodeLength.Statement (i : Instr) : Prop :=
  i.wf = true → ∃ w payload, encode i = w :: payload ∧ illegalEncoding w = none ∧
    payload.length = payloadLength w

/-- A command word whose fields R106 allows is legal. -/
theorem encodeLength_of_fields (op sel : BitVec 4) (f : Bool) (imm : BitVec 16)
    (h : illegalEncoding (commandWord op sel f imm) = none) (payload : List Word)
    (hl : payload.length = if op = 4 then imm.toNat else 0) :
    ∃ w ws, commandWord op sel f imm :: payload = w :: ws ∧ illegalEncoding w = none ∧
      ws.length = payloadLength w :=
  ⟨_, payload, rfl, h, by rw [hl, payloadLength, opField_commandWord, immField_commandWord]⟩

theorem EncodeLength.init : EncodeLength.Statement .init :=
  fun _ => encodeLength_of_fields 1 0 false 0 (by decide) [] rfl

theorem EncodeLength.poll (txIsOn : Bool) (bytes : BitVec 16) :
    EncodeLength.Statement (.poll txIsOn bytes) :=
  fun _ => encodeLength_of_fields 2 0 txIsOn bytes
    (by simp [illegalEncoding, opField_commandWord, selField_commandWord, rsvField_commandWord]) [] rfl

theorem EncodeLength.txs : EncodeLength.Statement .txs :=
  fun _ => encodeLength_of_fields 3 0 false 0 (by decide) [] rfl

theorem EncodeLength.rxb (count : BitVec 16) (samples : List Word) :
    EncodeLength.Statement (.rxb count samples) :=
  fun h => encodeLength_of_fields 4 0 false count
    (by simp [illegalEncoding, opField_commandWord, selField_commandWord, rsvField_commandWord,
      flagField_commandWord]) samples (by simpa [Instr.wf] using h)

theorem EncodeLength.abort : EncodeLength.Statement .abort :=
  fun _ => encodeLength_of_fields 5 0 false 0 (by decide) [] rfl

theorem EncodeLength.wcfgWpm (v : BitVec 16) : EncodeLength.Statement (.wcfgWpm v) :=
  fun _ => encodeLength_of_fields 6 0 false v
    (by simp [illegalEncoding, opField_commandWord, selField_commandWord, rsvField_commandWord,
      flagField_commandWord]) [] rfl

theorem EncodeLength.wcfgPitch (v : BitVec 16) : EncodeLength.Statement (.wcfgPitch v) :=
  fun _ => encodeLength_of_fields 6 1 false v
    (by simp [illegalEncoding, opField_commandWord, selField_commandWord, rsvField_commandWord,
      flagField_commandWord]) [] rfl

theorem EncodeLength.wcfgCwDelay (v : BitVec 16) : EncodeLength.Statement (.wcfgCwDelay v) :=
  fun _ => encodeLength_of_fields 6 2 false v
    (by simp [illegalEncoding, opField_commandWord, selField_commandWord, rsvField_commandWord,
      flagField_commandWord]) [] rfl

theorem EncodeLength.wcfgMode (v : BitVec 16) : EncodeLength.Statement (.wcfgMode v) :=
  fun _ => encodeLength_of_fields 6 3 false v
    (by simp [illegalEncoding, opField_commandWord, selField_commandWord, rsvField_commandWord,
      flagField_commandWord]) [] rfl

theorem EncodeLength.rdstat (index : BitVec 8) : EncodeLength.Statement (.rdstat index) :=
  fun _ => encodeLength_of_fields 7 0 false (index.setWidth 16)
    (by
      have h : (index.setWidth 16).extractLsb' 8 8 = 0#8 := by
        apply BitVec.eq_of_getLsbD_eq
        intro i hi
        simp [BitVec.getLsbD_extractLsb', BitVec.getLsbD_setWidth]
      simp [illegalEncoding, opField_commandWord, selField_commandWord, rsvField_commandWord,
        flagField_commandWord, immField_commandWord, h]) [] rfl

end Sys2Proof.Laws
end

