-- ==== Sys2Proof/Tests/Slice0.lean ====
section
/-! SUPPORT. The model's own tests: the expected values come from 95_test_vectors.md and from the
worked examples of the rules, each test names its source. The witnesses at the end show, for each
statement with hypotheses, a concrete input that meets them all. -/

namespace Sys2Proof.Tests

open Sys2Proof Sys2Proof.Machine Sys2Proof.Safety

/-! ### Small states -/

/-- The reference boot's configuration: 20 wpm, 700 Hz, 300 ms, IAMBIC_B (70_reset R393). -/
def bootCfg : CfgRegs := ⟨20, 700, 300, .iambicB, 0xF⟩

/-- The machine after the reference boot. -/
def booted : State := initState theConfig { State.reset with cfg := bootCfg }

/-- The last result an outcome leaves on the result port. -/
def answer : Host.Outcome State Fault Refusal → Option Result
  | .next s => s.results.getLast?
  | .fault _ => none
  | .refused _ => none

/-- A register of the state an outcome leaves. -/
def after {α : Type} (read : State → α) : Host.Outcome State Fault Refusal → Option α
  | .next s => some (read s)
  | .fault _ => none
  | .refused _ => none

/-- The events an outcome leaves. -/
def eventsAfter (o : Host.Outcome State Fault Refusal) : Option (List Event) := after (·.events) o

/-! ### Tables and configuration (00_scope R7, 40_morse_tables R141-R143) -/

theorem test_config_meets_its_constraints : theConfig.ok = true := by decide +kernel
theorem test_table_sizes :
    referenceTxTable.length = 49 ∧ referenceRxTable.length = 56 ∧ theConfig.lMax = 6 ∧
      theConfig.kbCap = 13 ∧ theConfig.tickSamples = 1024 := by decide +kernel
theorem test_idiom_lookup :
    rxRom theConfig [.dot, .dot, .dash, .dot, .dash, .dot] = some [0x55, 0x52] := by decide

/-! ### Well-formedness: the one check, and a term it refuses -/

theorem test_wf_accepts_exact_payload : (Instr.rxb 2 [1, 2]).wf = true := by decide
theorem test_wf_refuses_short_payload : (Instr.rxb 2 [1]).wf = false := by decide
theorem test_wf_refuses_long_payload : (Instr.rxb 0 [1]).wf = false := by decide

/-! ### Decoding: words written out from 30_encoding R105 and 95_test_vectors §2.1 -/

theorem test_decode_init : decode [0x10000000] = .command .init 1 := by decide
theorem test_decode_poll : decode [0x20010005] = .command (.poll true 5) 1 := by decide
theorem test_decode_poll_receiving : decode [0x2000FFFF] = .command (.poll false 0xFFFF) 1 := by decide
theorem test_decode_txs : decode [0x30000000] = .command .txs 1 := by decide
theorem test_decode_rxb : decode [0x40000002, 5, 0xFFFFFFFF, 9] = .command (.rxb 2 [5, 0xFFFFFFFF]) 3 := by
  decide
theorem test_decode_rxb_incomplete : decode [0x40000002, 5] = .incomplete := by decide
theorem test_decode_abort : decode [0x50000000] = .command .abort 1 := by decide
theorem test_decode_wcfg_wpm : decode [0x60000014] = .command (.wcfgWpm 20) 1 := by decide
theorem test_decode_wcfg_pitch : decode [0x610002BC] = .command (.wcfgPitch 700) 1 := by decide
theorem test_decode_wcfg_cw_delay : decode [0x6200012C] = .command (.wcfgCwDelay 300) 1 := by decide
theorem test_decode_wcfg_mode : decode [0x63000005] = .command (.wcfgMode 5) 1 := by decide
theorem test_decode_rdstat : decode [0x700000FF] = .command (.rdstat 0xFF) 1 := by decide
theorem test_decode_all_zero_word : decode [0x00000000] = .illegal .opcode 1 := by decide
theorem test_decode_reserved_bit : decode [0x20020000] = .illegal .reserved 1 := by decide
theorem test_decode_select : decode [0x31000000] = .illegal .select 1 := by decide
theorem test_decode_config_select : decode [0x64000000] = .illegal .configSelect 1 := by decide
theorem test_decode_flag_discards_payload : decode [0x40010002, 1, 2, 3] = .illegal .flag 3 := by decide
theorem test_decode_immediate : decode [0x5000FFFF] = .illegal .immediate 1 := by decide
theorem test_decode_status_index : decode [0x70000100] = .illegal .statusIndex 1 := by decide
theorem test_decode_high_opcode : decode [0x80000000] = .illegal .opcode 1 := by decide
theorem test_decode_bytes_little_endian :
    decodeBytes [0xBC, 0x02, 0x00, 0x61] = .command (.wcfgPitch 700) 1 := by decide
theorem test_assemble_config_by_name :
    assembleLine ['W', 'C', 'F', 'G', ' ', 'M', 'O', 'D', 'E', ',', ' ', 'B', 'U', 'G'] =
      some (.wcfgMode 1) := by decide

/-! ### One step of each command -/

/-- 95 §2.3: `DASH_LEN = 16`, `PERIOD = 5760`, `OSC_INC = 0x01DDDDDE`, `WIN_BIN = 7`. -/
theorem test_init_reference_boot :
    after (fun s => (s.dec.dashLen, s.keyer.period, s.osc.inc, s.dec.winBin))
      (exec .init { State.reset with cfg := bootCfg }) = some (16, 5760, 0x01DDDDDE, 7) := by decide
/-- 95 §2.2. -/
theorem test_init_unwritten : answer (exec .init State.reset) = some ⟨.errUnwritten, 0⟩ := by decide

/-- R324's example: at `MS_NOW = 1000` with the key closed PTT goes on and the deadline is 1500. -/
theorem test_poll_ptt_on :
    after (fun s => (s.events, s.txUntil))
      (exec (.poll false 0)
        { booted with cfg := { bootCfg with cwDelay := 500 }, keyIn := .dot, msNow := 1000 }) =
      some ([.pttOn], 1500) := by decide
/-- R324: equality with the deadline does not drop PTT, one millisecond later does. -/
theorem test_poll_ptt_off_is_strict :
    eventsAfter (exec (.poll true 0) { booted with txUntil := 1510, msNow := 1510 }) = some [] ∧
    eventsAfter (exec (.poll true 0) { booted with txUntil := 1510, msNow := 1511 }) = some [.pttOff] := by
  decide

/-- 95 §2.3: the TXS after the poll of a new pitch moves the phase by `0x0199999A`. -/
theorem test_txs_retunes_without_a_phase_jump :
    after (fun s => (s.osc.freq, s.osc.inc, s.osc.phase))
      (exec .txs { booted with sh := { booted.sh with pitch := 600 } }) =
      some (600, 0x0199999A, 0x0199999A) := by decide
/-- R298: with a closed key the phase is still 0 on the first sample, so the sample is `+0.0`; the dot
has `PERIOD − 1` samples left and the envelope is at 1. -/
theorem test_txs_starts_a_dot :
    after (fun s => (s.keyer.kd, s.keyer.ku, s.osc.envR))
      (exec .txs { booted with sh := { booted.sh with key := .dot } }) = some (5759, 5760, 1) := by decide

/-- R160's example: 1000 is no whole number of ticks. -/
theorem test_rxb_blocksize : answer (exec (.rxb 1000 []) booted) = some ⟨.errBlocksize, 0⟩ := by decide
/-- R160: count 0 is accepted and retunes only. -/
theorem test_rxb_zero_retunes :
    after (fun s => (s.dec.wpm, s.dec.dashLen, s.dec.streak))
      (exec (.rxb 0 []) { booted with sh := { booted.sh with wpm := 12 } }) = some (12, 28, 0) := by decide

/-- R328. -/
theorem test_abort_keeps_the_queue :
    after (·.txq) (exec .abort { booted with txq := [0x45] }) = some [0x45] := by decide
/-- 95 §2.2. -/
theorem test_abort_before_init : answer (exec .abort State.reset) = some ⟨.errNotInit, 0⟩ := by decide

/-- R326's examples. -/
theorem test_wcfg_wpm_zero : answer (exec (.wcfgWpm 0) State.reset) = some ⟨.errRange, 0⟩ := by decide
theorem test_wcfg_wpm_writes :
    after (fun s => (s.cfg.wpm, s.cfg.written)) (exec (.wcfgWpm 25) State.reset) = some (25, 1) := by decide
theorem test_wcfg_pitch_is_latched_later :
    after (fun s => (s.cfg.pitch, s.sh.pitch)) (exec (.wcfgPitch 600) booted) = some (600, 700) := by decide
theorem test_wcfg_cw_delay_writes :
    after (fun s => (s.cfg.cwDelay, s.cfg.written)) (exec (.wcfgCwDelay 0) State.reset) = some (0, 4) := by decide
theorem test_wcfg_mode_six :
    after (fun s => (s.cfg.mode, s.results)) (exec (.wcfgMode 6) booted) =
      some (.iambicB, [⟨.errRange, 0⟩]) := by decide
theorem test_wcfg_mode_five :
    after (·.cfg.mode) (exec (.wcfgMode 5) booted) = some .keyboard := by decide

/-- 95 §2.3: `DEC_FLAGS = 8`, and index 0x34 reads 0x1F after the boot. -/
theorem test_rdstat_values :
    answer (exec (.rdstat 0x08) booted) = some ⟨.ok, 8⟩ ∧
    answer (exec (.rdstat 0x34) booted) = some ⟨.ok, 0x1F⟩ := by decide
/-- 95 §2.2: the range check comes first. -/
theorem test_rdstat_error_order :
    answer (exec (.rdstat 0xFF) State.reset) = some ⟨.errRange, 0⟩ ∧
    answer (exec (.rdstat 0x00) State.reset) = some ⟨.errNotInit, 0⟩ ∧
    answer (exec (.rdstat 0x31) State.reset) = some ⟨.errUnwritten, 0⟩ := by decide

/-- R320, R373: the host's action comes before the command it precedes; the next one waits. -/
theorem test_step_takes_host_actions_then_one_command :
    after (fun s => (s.msNow, s.results, s.input))
      (step { State.reset with input := [.setNow 7, .word 0x70000034, .setNow 8] }) =
      some (7, [⟨.ok, 0⟩], [.setNow 8]) := by decide
/-- R106: an illegal word is answered before any other check. -/
theorem test_step_illegal_word :
    after (fun s => (s.results, s.input)) (step { State.reset with input := [.word 0x70000100, .word 0] }) =
      some ([⟨.errIllegal, 0⟩], [.word 0]) := by decide

/-! ### The receiver's parts (95 §1.2, §1.4, §2.4-§2.6) -/

/-- 95 §2.4, the second and first decimation examples. -/
theorem test_decimate_floors :
    (decimate theConfig [8, 8, 8, 8, 8, 8, 8, 9, 0xFFFFFFFF, 0, 0, 0, 0, 0, 0, 0] [0, 0, 0, 0, 0, 0, 0]).1 =
      [8, -1] := by decide
/-- 95 §2.4: `ω = π/2` at the centre bin of pitch 3000, magnitude 1414. -/
theorem test_goertzel_centre_bin :
    theConfig.numerics.goertzel (binTuned theConfig 3000)
      ((List.replicate 32 [1000, 1000, -1000, -1000]).flatten) = 1414 := by decide +kernel
/-- 95 §1.5, first row: detected on the second tick of the streak, not on the first. -/
theorem test_two_tier_threshold :
    let d0 := { booted.dec with highLevel := 10000, noiseFloor := 100 }
    let d1 := (tickWith theConfig 2 2575 d0).1
    let d2 := (tickWith theConfig 2 2575 d1).1
    (d1.streak, d1.highLevel, d1.noiseFloor, d1.sigState) = (1, 9925, 124, false) ∧
      (d2.streak, d2.highLevel, d2.noiseFloor, d2.sigState) = (2, 9851, 148, true) := by decide
/-- 95 §2.5: the denoiser's example sequence. -/
theorem test_denoiser_example :
    denoiseRun [true, false, true, true, false, false, true, false, false, false] booted.dec =
      [false, false, false, true, true, false, true, false, false, false] := by decide
/-- 95 §1.2: marks of 2, 3, 8 and 9 ticks at a dash length of 16. -/
theorem test_mark_classes :
    classifyMark 16 2 = none ∧ classifyMark 16 3 = some .dot ∧ classifyMark 16 8 = some .dot ∧
      classifyMark 16 9 = some .dash ∧ classifyMark 18 3 = none := by decide
/-- 95 §2.6: marks 3, 9, 3, 3 are `L`, and the dash adapts the dash length to 14. -/
theorem test_letter_match :
    let d := { booted.dec with
      sym := [⟨true, 0, 3⟩, ⟨true, 0, 9⟩, ⟨true, 0, 3⟩, ⟨true, 0, 3⟩], symWr := 4 }
    (matchLetter theConfig d).2 = [.con .rx [0x4C]] ∧ (matchLetter theConfig d).1.dashLen = 14 := by decide

/-! ### The sender's parts (95 §2.7, R255, R298) -/

/-- R254's example: `A` spells dot, dash and the character delay. -/
theorem test_spell_a :
    spellByte theConfig 0x61 = some [.dot, .elemDelay, .dash, .elemDelay, .charDelay] := by decide
/-- R298: a quarter turn at full envelope gives exactly 0.125. -/
theorem test_output_quarter_turn :
    outputSample theConfig 0x40000000 480 = 0x3E000000 := by decide +kernel
/-- 95 §2.7: `PERIOD_OF`. -/
theorem test_period_of :
    periodOf theConfig 20 = 5760 ∧ periodOf theConfig 65535 = 1 ∧ periodOf testConfig 30 = 4 := by decide

/-! ### The test configuration of 95_test_vectors, and the numerics' constraints -/

/-- The test configuration's boot: 30 wpm at pitch 25. -/
def testBoot : State :=
  { State.resetWith testConfig with cfg := ⟨30, 25, 300, .bug, 0xF⟩, input := [.word 0x10000000] }
/-- 95's configurations: `PERIOD = 4`, `OSC_INC = 0x40000000`. -/
theorem test_configured_step_runs_the_test_configuration :
    after (fun s => (s.keyer.period, s.osc.inc)) (stepWith testConfig testBoot) = some (4, 0x40000000) := by
  decide
/-- 95's configurations: a full-envelope sample at the four quarter turns. -/
theorem test_configured_output_cycle :
    [0#32, 0x40000000#32, 0x80000000#32, 0xC0000000#32].map (fun p => outputSample testConfig p 2) =
      [0x00000000, 0x3E000000, 0x238D3132, 0xBE000000] := by decide +kernel
/-- R295: the reference envelope starts at 0, ends at 1 and rises at every step. -/
theorem test_reference_envelope_is_legal : EnvelopeLegal theConfig := by
  refine ⟨by decide +kernel, by decide +kernel, ?_⟩
  show ∀ r : Nat, r < 480 → _
  decide +kernel

/-! ### Witnesses: every statement's hypotheses are met together by some input -/

theorem test_witness_DecodeEncodeRoundTrip :
    (Instr.rxb 2 [1, 2]).wf = true ∧ (Instr.rxb 0 []).wf = true ∧ (Instr.poll true 0xFFFF).wf = true := by
  decide
theorem test_witness_DecodedWordsAreTheCommandsEncoding :
    decode [0x40000001, 7, 8] = .command (.rxb 1 [7]) 2 := by decide
theorem test_witness_StepRunsTheDecodedCommand :
    let s := { State.reset with input := [.setKey .dot, .word 0x30000000] }
    hostActions s.input s = { State.reset with keyIn := .dot, input := [.word 0x30000000] } ∧
      decode (portWords [HostItem.word 0x30000000]) = .command .txs 1 := ⟨rfl, by decide⟩
theorem test_witness_HostActionsAreSeenByTheNextCommand :
    (∀ a ∈ [HostItem.setKey .dash], ∀ w, a ≠ HostItem.word w) ∧ Instr.txs.wf = true ∧
      ({ State.reset with input := [HostItem.setKey .dash] ++ (issue .txs ++ [.setNow 3]) } : State).input =
        [HostItem.setKey .dash] ++ (issue .txs ++ [.setNow 3]) := by
  refine ⟨?_, rfl, rfl⟩
  intro a ha w
  rw [List.mem_singleton.mp ha]
  exact fun h => HostItem.noConfusion h
theorem test_witness_IllegalWordIsRefusedWithItsPayload :
    decodeCommand 0x40010001 [5] = .error .flag ∧ [(5 : Word)].length = payloadLength 0x40010001 ∧
      decodeCommand 0 [] = .error .opcode ∧ ([] : List Word).length = payloadLength 0 := ⟨rfl, rfl, rfl, rfl⟩
theorem test_witness_IdleBlockHoldsItsState : State.reset.input = [] := rfl
theorem test_witness_RefusedCommandChangesNothing :
    answer (exec .txs State.reset) = some ⟨.errNotInit, 0⟩ ∧
      answer (exec (.rdstat 0x34) State.reset) = some ⟨.ok, 0⟩ := by decide
theorem test_witness_HotPathRefusedBeforeInit : State.reset.inited = false := rfl
theorem test_witness_InitGivesEveryRegisterItsValue :
    bootCfg.written = 0xF#4 ∧ State.reset.cfg.written ≠ 0xF#4 ∧ (0xE#4 : BitVec 4) ≠ 0xF#4 := by decide
theorem test_witness_PollLatchesAndDecidesPtt : booted.inited = true := rfl
theorem test_witness_WcfgWritesOneRegisterAndItsBit :
    (1 : BitVec 16) ≠ 0 ∧ (0xFFFF : BitVec 16) ≠ 0 := by decide
theorem test_witness_WcfgRefusesIllegalValues : 5 < (6 : BitVec 16).toNat := by decide
theorem test_witness_RdstatReadsTheStatusMap :
    booted.inited = true ∧ (0x00, 16) ∈ statusMap booted ∧ (0x27, 0) ∈ statusMap booted := by decide
theorem test_witness_RdstatReadsConfigurationWhenWritten :
    booted.cfg.written.getLsbD (0 : Fin 4) = true ∧ booted.cfg.written.getLsbD (3 : Fin 4) = true ∧
      State.reset.cfg.written.getLsbD (0 : Fin 4) = false ∧
      State.reset.cfg.written.getLsbD (3 : Fin 4) = false := by decide
/-- A map index whose range the statement names. -/
def outsideMap (index : BitVec 8) : Bool :=
  0x0B ≤ index.toNat && index.toNat ≤ 0x0F || 0x1E ≤ index.toNat && index.toNat ≤ 0x1F ||
    0x28 ≤ index.toNat && index.toNat ≤ 0x2F || 0x35 ≤ index.toNat
theorem test_witness_RdstatOutsideTheMapIsRangeError :
    [0x0B#8, 0x0F#8, 0x1E#8, 0x1F#8, 0x28#8, 0x2F#8, 0x35#8, 0xFF#8].all outsideMap = true ∧
      [0x0A#8, 0x10#8, 0x1D#8, 0x20#8, 0x27#8, 0x30#8, 0x34#8].any outsideMap = false := by decide
theorem test_witness_AbortIsANoOp : booted.inited = true ∧ State.reset.inited = false := ⟨rfl, rfl⟩
theorem test_witness_RxbRunsWholeTicksOnly :
    booted.inited = true ∧ (0 : BitVec 16).toNat % 1024 = 0 ∧ (64512 : BitVec 16).toNat % 1024 = 0 ∧
      (1023 : BitVec 16).toNat % 1024 ≠ 0 ∧ (65535 : BitVec 16).toNat % 1024 ≠ 0 := by decide
theorem test_witness_RxbSplitsAtTickBoundaries :
    booted.inited = true ∧ (1024 : BitVec 16).toNat % 1024 = 0 ∧
      (1024 : BitVec 16).toNat + (63488 : BitVec 16).toNat < 65536 ∧
      (List.replicate 1024 (0 : Word)).length = (1024 : BitVec 16).toNat :=
  ⟨rfl, rfl, by decide, List.length_replicate⟩
theorem test_witness_DecimateIsTheMeanOfEachGroup :
    (∀ g ∈ [([8, 8, 8, 8, 8, 8, 8, 9] : List Word)], g.length = 8) ∧
      ([0, 0, 0, 0, 0, 0, 0] : List Word).length = 7 := by decide
theorem test_witness_ThresholdIsTwoTiered :
    let m : BitVec 64 := 235
    let n : BitVec 64 := 459
    let high : BitVec 64 := 1000
    let floor : BitVec 64 := 100
    (2 ≤ (2 : BitVec 16).toNat ∧ (1 : BitVec 16).toNat < 2) ∧
      floor.toNat ≤ high.toNat ∧
      100 * floor.toNat + 15 * (high.toNat - floor.toNat) ≤ 100 * m.toNat ∧
      10 * m.toNat < 10 * floor.toNat + 4 * (high.toNat - floor.toNat) ∧
      100 * floor.toNat + 15 * (high.toNat - floor.toNat) ≤ 100 * n.toNat ∧
      10 * n.toNat < 10 * floor.toNat + 4 * (high.toNat - floor.toNat) := by decide
theorem test_witness_DenoiserIsTheMajorityOfFive :
    3 ≤ 3 ∧ booted.dec.hist = 0 ∧ 2 ≤ 2 ∧ ({ booted.dec with hist := 31 } : Decoder).hist = 31 := by decide
/-- Decoder registers on which the segmenter's clauses meet. -/
def segmenting (ticks : BitVec 32) (prevMark mark : Bool) (sym : List RxSymbol) : Decoder :=
  { booted.dec with ticks := ticks, prevMark := prevMark, mark := mark, sym := sym, symWr := sym.length }
theorem test_witness_SegmenterRecordsRunsAndClampsLongMarks :
    let d := segmenting 0xFFFFFFFE true true []
    let e := segmenting 48 false true []
    (d.ticks.toNat + 1 < 2 ^ 32 ∧ d.prevMark = true ∧ d.mark = true) ∧
      (e.ticks.toNat + 1 < 2 ^ 32 ∧ e.prevMark ≠ e.mark) := by decide
theorem test_witness_SilenceClosesLettersAndEmitsWordSpaces :
    let open_ := fun (d : Decoder) => (d.sym.take d.symWr).any (fun x => x.isMark)
    let d := segmenting 7 false false [⟨true, 0, 3⟩]
    let e := segmenting 8 false false [⟨true, 0, 3⟩]
    let f := segmenting 23 false false []
    let g := segmenting 24 false false []
    [d, e, f, g].all (fun x => x.ticks.toNat + 1 < 2 ^ 32 && !x.prevMark && !x.mark) = true ∧
      (open_ d = true ∧ 2 * (d.ticks.toNat + 1) ≤ d.dashLen.toNat) ∧
      (open_ e = true ∧ e.dashLen.toNat < 2 * (e.ticks.toNat + 1)) ∧
      (open_ f = false ∧ 2 * (f.ticks.toNat + 1) ≤ 3 * f.dashLen.toNat) ∧
      (open_ g = false ∧ 3 * g.dashLen.toNat < 2 * (g.ticks.toNat + 1)) := by decide
theorem test_witness_AdaptationStaysWithinAFactorOfTwo :
    216000 / (640 * (20 : BitVec 16).toNat) ≤ 2 * (8 : BitVec 32).toNat ∧
      (32 : BitVec 32).toNat ≤ 2 * (216000 / (640 * (20 : BitVec 16).toNat)) := by decide
theorem test_witness_AdaptationConvergesOnTheSendersSpeed :
    let init := 216000 / (640 * (20 : BitVec 16).toNat)
    let low : BitVec 32 := 8
    let high : BitVec 32 := 32
    init ≤ 2 * low.toNat ∧ low.toNat ≤ 2 * init ∧ init ≤ 2 * high.toNat ∧ high.toNat ≤ 2 * init ∧
      low.toNat + 4 ≤ high.toNat ∧ high.toNat ≤ low.toNat + 24 ∧ low.toNat ≤ high.toNat + 24 := by decide
theorem test_witness_WordSpacesNeverRepeat : ∃ t, exec (.rxb 0 []) booted = .next t := ⟨_, rfl⟩
theorem test_witness_TxsProducesOneSample : booted.inited = true := rfl
theorem test_witness_IambicAlternatesWhileSqueezed :
    memoryElement booted.keyer.nextSym = true ∧ memoryElement .dot = true ∧ memoryElement .dash = true :=
  ⟨rfl, rfl, rfl⟩
theorem test_witness_KeyboardPlaysTheCharacterInProgress :
    let k := loadSequence [.dot, .dash, .elemDelay, .charDelay, .wordDelay] booted.keyer
    k.kbPos < k.kbLen ∧ k.kbSeq[0]? = some .dot ∧ k.kbSeq[1]? = some .dash ∧
      k.kbSeq[2]? = some .elemDelay ∧ k.kbSeq[3]? = some .charDelay ∧ k.kbSeq[4]? = some .wordDelay ∧
      (k.lastSym, 0) ∈ gapTable := by decide
theorem test_witness_KeyboardFetchesOneByteBetweenCharacters :
    ¬booted.keyer.kbPos < booted.keyer.kbLen ∧ (booted.keyer.lastSym, 0) ∈ gapTable ∧
      txRom theConfig 0x23 = none ∧ txRom theConfig (0x7A - 0x20) = some [.dash, .dash, .dot, .dot] ∧
      txRom theConfig 0x7B = none ∧ txRom theConfig 0x45 = some [.dot] := by decide
theorem test_witness_DelayMarkersDoNotDoubleCount :
    booted.keyer.lastSym ∈ [Sym.idle, .dot, .dash, .squeeze, .down] ∧
      7 * booted.keyer.period.toNat < 2 ^ 32 := by decide
theorem test_witness_TxAndRxTablesRoundTrip :
    txRom theConfig 0x45 = some [.dot] ∧
      txRom theConfig 0x40 = some [.dot, .dash, .dash, .dot, .dash, .dot] := by decide
theorem test_witness_LetterMarksAreClassifiedInOrder :
    let dashLen : BitVec 32 := 16
    let noise : BitVec 32 := 2
    let dot : BitVec 32 := 8
    let dash : BitVec 32 := 9
    6 * noise.toNat ≤ dashLen.toNat ∧ (dashLen.toNat < 6 * dot.toNat ∧ 2 * dot.toNat ≤ dashLen.toNat) ∧
      dashLen.toNat < 2 * dash.toNat := by decide
theorem test_witness_KeyboardKeysByHandAndIdlesWithoutText :
    ¬booted.keyer.kbPos < booted.keyer.kbLen := by decide
theorem test_witness_TxsPopsAtMostOneByte :
    ∃ t, exec .txs { booted with sh := { booted.sh with bytes := 1 }, txq := [0x45] } = .next t ∧
      t.txq = [] ∧ t.events = [.con .tx [0x45]] := ⟨_, rfl, by decide, by decide⟩
theorem booted_meets_invariant : Invariant theConfig booted :=
  ⟨⟨List.length_replicate, List.length_replicate, by decide +kernel⟩, fun _ => by decide,
    fun _ => ⟨by decide, by decide, by decide, by decide, by decide, .inr (by decide)⟩,
    fun _ => ⟨by decide, by decide +kernel, by decide, by decide⟩, fun _ => by decide⟩
theorem test_witness_EveryStepKeepsTheInvariant :
    theConfig.ok = true ∧ testConfig.ok = true ∧ Invariant theConfig booted ∧
      (∃ t, step booted = .next t) ∧ ∃ t, stepWith theConfig booted = .next t :=
  ⟨by decide +kernel, by decide +kernel, booted_meets_invariant, ⟨_, rfl⟩, ⟨_, rfl⟩⟩
theorem test_witness_HotPathNeverReadsConfiguration :
    (∃ t, exec .txs State.reset = .next t) ∧ ∃ t, exec (.rxb 0 []) booted = .next t := ⟨⟨_, rfl⟩, ⟨_, rfl⟩⟩
theorem test_witness_NoTransitionResetsAnything :
    ∃ t, exec (.poll false 1) booted = .next t ∧ t.events = [.pttOn] := ⟨_, rfl, by decide⟩
theorem test_witness_OnlyInitStartsAndOnlyWcfgConfigures :
    ∃ t, exec (.wcfgWpm 25) booted = .next t ∧ t.cfg ≠ booted.cfg ∧ t.inited = true :=
  ⟨_, rfl, by decide, rfl⟩
theorem test_witness_HostPortsBelongToTheHost : ∃ t, exec .abort booted = .next t := ⟨_, rfl⟩
theorem test_witness_WcfgAndRdstatAreIdempotent :
    ∃ t u, exec (.wcfgMode 6) booted = .next t ∧ exec (.wcfgMode 6) t = .next u := ⟨_, _, rfl, rfl⟩

end Sys2Proof.Tests
end

section
/-! PROOFS. What one command and one step can answer, said once: every command is refused with a
result and nothing else, or accepted with the registers its rule writes. -/

namespace Sys2Proof.Machine

/-- The value and the registers of an accepted command on a block of configuration `C`, with the check
it has passed (46_control.md R321-R328, 41_rx_detector.md R160, 45_tx_sample.md R290). The answer is not
on the result port yet. -/
inductive Accepted (C : Config) (s : State) : Instr → Word → State → Prop
  | init (written : s.cfg.written = 0xF) : Accepted C s .init 0 (initState C s)
  | poll (inited : s.inited = true) (txOn : Bool) (bytes : BitVec 16) :
      Accepted C s (.poll txOn bytes) 0 (pttDecide txOn (pollLatch C bytes s))
  | txs (inited : s.inited = true) : Accepted C s .txs (txValue C s) (txState C s)
  | rxb (inited : s.inited = true) (count : BitVec 16) (x : List Word)
      (whole : count.toNat % C.tickSamples = 0) :
      Accepted C s (.rxb count x) 0
        (emit (receive C s.sh count x s.dec).2 { s with dec := (receive C s.sh count x s.dec).1 })
  | abort (inited : s.inited = true) : Accepted C s .abort 0 s
  | wcfgWpm (v : BitVec 16) (nonzero : v ≠ 0) :
      Accepted C s (.wcfgWpm v) 0 (writeConfig 0 { s.cfg with wpm := v } s)
  | wcfgPitch (v : BitVec 16) : Accepted C s (.wcfgPitch v) 0 (writeConfig 1 { s.cfg with pitch := v } s)
  | wcfgCwDelay (v : BitVec 16) :
      Accepted C s (.wcfgCwDelay v) 0 (writeConfig 2 { s.cfg with cwDelay := v } s)
  | wcfgMode (v : BitVec 16) (m : Mode) (named : modeOfValue v = some m) :
      Accepted C s (.wcfgMode v) 0 (writeConfig 3 { s.cfg with mode := m } s)
  | rdstat (index : BitVec 8) (v : Word) (mapped : statusValue s index = some v) :
      Accepted C s (.rdstat index) v s

/-- The answer of a command: an error and nothing else, or OK on the registers it leaves. -/
def Answers (C : Config) (i : Instr) (s t : State) : Prop :=
  (∃ st, st ≠ .ok ∧ t = respond st 0 s) ∨ ∃ v u, Accepted C s i v u ∧ t = respond .ok v u

theorem answers_of_refuse {C : Config} {i : Instr} {s t : State} {st : Status} (hst : st ≠ .ok)
    (h : refuse st s = .next t) : Answers C i s t := by
  injection h with h
  exact .inl ⟨st, hst, h.symm⟩

theorem answers_of_accept {C : Config} {i : Instr} {s t u : State} {v : Word} (hu : Accepted C s i v u)
    (h : accept v u = .next t) : Answers C i s t := by
  injection h with h
  exact .inr ⟨v, u, hu, h.symm⟩

/-- Everything a command can do, in any configuration. -/
theorem execWith_answers {C : Config} {i : Instr} {s t : State} (h : execWith C i s = .next t) :
    Answers C i s t := by
  cases i with
  | init =>
    simp only [execWith, initCommand] at h
    split at h
    · exact answers_of_refuse (by decide) h
    · next hw => exact answers_of_accept (.init (not_not.mp hw)) h
  | poll txOn bytes =>
    simp only [execWith, pollCommand] at h
    split at h
    · exact answers_of_refuse (by decide) h
    · next hi => exact answers_of_accept (.poll (Bool.eq_true_of_not_eq_false hi) txOn bytes) h
  | txs =>
    simp only [execWith, txsCommand] at h
    split at h
    · exact answers_of_refuse (by decide) h
    · next hi => exact answers_of_accept (.txs (Bool.eq_true_of_not_eq_false hi)) h
  | rxb count x =>
    simp only [execWith, rxbCommand] at h
    split at h
    · exact answers_of_refuse (by decide) h
    · next hi =>
      split at h
      · exact answers_of_refuse (by decide) h
      · next hw =>
        exact answers_of_accept (.rxb (Bool.eq_true_of_not_eq_false hi) count x (not_not.mp hw)) h
  | abort =>
    simp only [execWith, execAbort] at h
    split at h
    · exact answers_of_refuse (by decide) h
    · next hi => exact answers_of_accept (.abort (Bool.eq_true_of_not_eq_false hi)) h
  | wcfgWpm v =>
    simp only [execWith, execWcfgWpm] at h
    split at h
    · exact answers_of_refuse (by decide) h
    · next hv => exact answers_of_accept (.wcfgWpm v hv) h
  | wcfgPitch v => exact answers_of_accept (.wcfgPitch v) h
  | wcfgCwDelay v => exact answers_of_accept (.wcfgCwDelay v) h
  | wcfgMode v =>
    simp only [execWith, execWcfgMode] at h
    split at h
    · exact answers_of_refuse (by decide) h
    · next m hm => exact answers_of_accept (.wcfgMode v m hm) h
  | rdstat index =>
    simp only [execWith, execRdstat] at h
    split at h
    · exact answers_of_refuse (by decide) h
    · next v hv =>
      split at h
      · exact answers_of_refuse (by decide) h
      · split at h
        · exact answers_of_refuse (by decide) h
        · exact answers_of_accept (.rdstat index v hv) h

/-- Everything a command of the host's machine can do. -/
theorem exec_answers {i : Instr} {s t : State} (h : exec i s = .next t) : Answers theConfig i s t :=
  execWith_answers (exec_eq_execWith i s ▸ h)

/-- Everything a step can do once the host's actions are taken: nothing, the answer to an illegal word, or
a command on the port without its words. -/
theorem stepWith_cases {C : Config} {s t : State} (h : stepWith C s = .next t) :
    t = hostActions s.input s ∨
      ∃ n, t = respond .errIllegal 0 (consume n (hostActions s.input s)) ∨
        ∃ i, execWith C i (consume n (hostActions s.input s)) = .next t := by
  unfold stepWith at h
  rcases fetch_cases s with ⟨_, hf⟩ | ⟨_, n, _, hf⟩ | ⟨i, n, _, hf⟩ <;> rw [hf] at h
  · injection h with h
    exact .inl h.symm
  · injection h with h
    exact .inr ⟨n, .inl h.symm⟩
  · exact .inr ⟨n, .inr ⟨i, h⟩⟩

/-- POLL's decision writes the deadline and appends to `EVENTS`, nothing else (R324). -/
theorem pttDecide_frame (txOn : Bool) (s : State) :
    ∃ es, pttDecide txOn s = { s with txUntil := (pttDecide txOn s).txUntil, events := s.events ++ es } := by
  rcases pttDecide_cases txOn s with ⟨_, _, h⟩ | ⟨_, _, h⟩ | h
  · exact ⟨[.pttOn], by rw [h]; rfl⟩
  · exact ⟨[.pttOff], by rw [h]; rfl⟩
  · exact ⟨[], by rw [h, List.append_nil]⟩

/-! ### Commands before the first INIT -/

/-- POLL, TXS, RXB and ABORT are refused before INIT, RXB whatever its count (60_exceptions.md R362, R363). -/
theorem execPoll_not_inited {s : State} (h : s.inited = false) (txOn : Bool) (bytes : BitVec 16) :
    execPoll txOn bytes s = refuse .errNotInit s := if_pos h

theorem execTxs_not_inited {s : State} (h : s.inited = false) : execTxs s = refuse .errNotInit s := if_pos h

theorem execRxb_not_inited {s : State} (h : s.inited = false) (count : BitVec 16) (x : List Word) :
    execRxb count x s = refuse .errNotInit s := if_pos h

theorem execAbort_not_inited {s : State} (h : s.inited = false) : execAbort s = refuse .errNotInit s := if_pos h

/-- RDSTAT of a mapped index of the block's own registers is refused before INIT (46_control.md R327). -/
theorem execRdstat_not_inited {s : State} (h : s.inited = false) {index : BitVec 8}
    (mapped : (statusValue s index).isSome = true) (low : index.toNat < 0x30) :
    execRdstat index s = refuse .errNotInit s := by
  obtain ⟨v, hv⟩ := Option.isSome_iff_exists.mp mapped
  unfold execRdstat
  rw [hv]
  exact if_pos ⟨low, h⟩

/-- The indices of the status map are mapped and below 0x30. -/
theorem statusMap_mapped (s : State) :
    ∀ p ∈ Safety.statusMap s, (statusValue s p.1).isSome = true ∧ p.1.toNat < 0x30 := by
  simp [Safety.statusMap, statusValue]

end Sys2Proof.Machine

namespace Sys2Proof.Proofs

open Sys2Proof.Machine Sys2Proof.Safety

/-- Settles O13: the `INITED` check comes before every other check of these commands. -/
theorem hotPathRefusedBeforeInit : Obligations.HotPathRefusedBeforeInit := by
  intro s txOn v x h
  refine ⟨execPoll_not_inited h txOn v, execTxs_not_inited h, execRxb_not_inited h v x,
    execAbort_not_inited h, fun p hp => ?_⟩
  obtain ⟨mapped, low⟩ := statusMap_mapped s p hp
  exact execRdstat_not_inited h mapped low

/-- Settles O51. -/
theorem powerOnIsUninitialised : Obligations.PowerOnIsUninitialised := ⟨rfl, rfl, rfl, rfl⟩

/-- Settles O55: of the accepted commands only INIT writes `INITED` and only WCFG writes `CFG_*`. -/
theorem onlyInitStartsAndOnlyWcfgConfigures : Obligations.OnlyInitStartsAndOnlyWcfgConfigures := by
  intro i s t h
  rcases exec_answers h with ⟨st, _, rfl⟩ | ⟨v, u, hu, rfl⟩
  · simp
  · cases hu with
    | poll _ txOn bytes =>
      obtain ⟨es, hp⟩ := pttDecide_frame txOn (pollLatch theConfig bytes s)
      rw [hp]
      simp
    | _ => simp

/-- Settles O56: an accepted POLL, TXS or RXB appends to `EVENTS`, TXS takes from `TXQ`, and no other
command touches a port. -/
theorem hostPortsBelongToTheHost : Obligations.HostPortsBelongToTheHost := by
  intro i s t h
  rcases exec_answers h with ⟨st, _, rfl⟩ | ⟨v, u, hu, rfl⟩
  · simp
  · cases hu with
    | poll _ txOn bytes =>
      obtain ⟨es, hp⟩ := pttDecide_frame txOn (pollLatch theConfig bytes s)
      rw [hp]
      simp
    | _ => simp

end Sys2Proof.Proofs
end

section
/-! PROOFS. The hot path and the configuration registers (10_state.md R35). -/

namespace Sys2Proof.Machine

/-! ### Accepted commands of the hot path -/

theorem execTxs_inited {s : State} (h : s.inited = true) :
    execTxs s = accept (txValue theConfig s) (txState theConfig s) := if_neg (by simp [h])

theorem execRxb_inited {s : State} (h : s.inited = true) (count : BitVec 16) (x : List Word) :
    execRxb count x s =
      if count.toNat % theConfig.tickSamples ≠ 0 then refuse .errBlocksize s
      else accept 0 (emit (receive theConfig s.sh count x s.dec).2
        { s with dec := (receive theConfig s.sh count x s.dec).1 }) := if_neg (by simp [h])

/-! ### Writing `CFG_*` before or after -/

/-- TXS does not read `CFG_*`. -/
theorem execTxs_with_cfg {s t : State} (h : execTxs s = .next t) (cfg : CfgRegs) :
    execTxs { s with cfg := cfg } = .next { t with cfg := cfg } := by
  rcases Bool.eq_false_or_eq_true s.inited with hi | hi
  · rw [execTxs_inited hi] at h
    injection h with h
    subst h
    exact execTxs_inited (s := { s with cfg := cfg }) hi
  · rw [execTxs_not_inited hi] at h
    injection h with h
    subst h
    exact execTxs_not_inited (s := { s with cfg := cfg }) hi

/-- RXB does not read `CFG_*`. -/
theorem execRxb_with_cfg {count : BitVec 16} {x : List Word} {s t : State}
    (h : execRxb count x s = .next t) (cfg : CfgRegs) :
    execRxb count x { s with cfg := cfg } = .next { t with cfg := cfg } := by
  rcases Bool.eq_false_or_eq_true s.inited with hi | hi
  · rw [execRxb_inited hi] at h
    rw [execRxb_inited (s := { s with cfg := cfg }) hi]
    split at h
    · next hc =>
      injection h with h
      subst h
      exact if_pos hc
    · next hc =>
      injection h with h
      subst h
      exact if_neg hc
  · rw [execRxb_not_inited hi] at h
    injection h with h
    subst h
    exact execRxb_not_inited (s := { s with cfg := cfg }) hi count x

end Sys2Proof.Machine

namespace Sys2Proof.Proofs

open Sys2Proof.Machine

/-- Settles O53. -/
theorem hotPathNeverReadsConfiguration : Obligations.HotPathNeverReadsConfiguration := by
  rintro i s t cfg (rfl | ⟨count, x, rfl⟩) h
  · exact execTxs_with_cfg h cfg
  · exact execRxb_with_cfg h cfg

end Sys2Proof.Proofs
end

section
/-! PROOFS. The receiver keeps the decoder's clauses of 10_state.md R48 and its array lengths, operation by
operation in the order of a tick (41_rx_detector.md R162). -/

namespace Sys2Proof.Machine

open Sys2Proof.Safety

/-! ### What the constraints of 00_scope.md R7 give -/

theorem nfDecay_pos_of_ok {C : Config} (h : C.ok = true) : 1 ≤ C.nfDecay := by
  simp only [Config.ok, Bool.and_eq_true, decide_eq_true_eq] at h
  omega

theorem streakMax_bounds_of_ok {C : Config} (h : C.ok = true) : 2 ≤ C.streakMax ∧ C.streakMax < 2 ^ 16 := by
  simp only [Config.ok, Bool.and_eq_true, decide_eq_true_eq] at h
  omega

theorem symCap_bound_of_ok {C : Config} (h : C.ok = true) : 2 ≤ C.symCap := by
  simp only [Config.ok, Bool.and_eq_true, decide_eq_true_eq] at h
  omega

theorem fsD_bound_of_ok {C : Config} (h : C.ok = true) : 18 * C.fsD < 2 ^ 29 * 5 * C.n := by
  simp only [Config.ok, Bool.and_eq_true, decide_eq_true_eq] at h
  omega

/-- The theoretical dash length fits its register with room for the factor of two of R224; at `w = 0` it
is 0. -/
theorem initDash_lt {C : Config} (h : C.ok = true) (w : Nat) : initDash C w < 2 ^ 29 := by
  have hfs := fsD_bound_of_ok h
  unfold initDash
  rcases Nat.eq_zero_or_pos w with rfl | hw
  · simp
  · refine Nat.div_lt_of_lt_mul (Nat.lt_of_lt_of_le hfs ?_)
    calc 2 ^ 29 * 5 * C.n = 5 * C.n * 1 * 2 ^ 29 := by ring
      _ ≤ 5 * C.n * w * 2 ^ 29 := by gcongr; omega

/-! ### The dash length -/

/-- The dash length is within a factor of two of the theoretical one (R48, 43_rx_segment_match.md R224). -/
def DashInRange (C : Config) (wpm : BitVec 16) (dashLen : BitVec 32) : Prop :=
  initDash C wpm.toNat ≤ 2 * dashLen.toNat ∧ dashLen.toNat ≤ 2 * initDash C wpm.toNat

/-- The length INIT and a WPM change load is in range (R223). -/
theorem dashInRange_initDash {C : Config} (h : C.ok = true) (wpm : BitVec 16) :
    DashInRange C wpm (BitVec.ofNat 32 (initDash C wpm.toNat)) := by
  have hlt := initDash_lt h wpm.toNat
  unfold DashInRange
  rw [BitVec.toNat_ofNat, Nat.mod_eq_of_lt (by omega)]
  omega

theorem adaptDash_keeps_range {C : Config} {wpm : BitVec 16} {dashLen : BitVec 32} (ticks : BitVec 32)
    (h : DashInRange C wpm dashLen) : DashInRange C wpm (adaptDash C wpm dashLen ticks) := by
  rcases adaptDash_toNat C wpm dashLen ticks with kept | ⟨low, high, mean⟩
  · unfold DashInRange
    rw [kept]
    exact h
  · unfold DashInRange
    rw [mean]
    exact ⟨low, high⟩

/-- Every dash of a letter adapts the length, and none takes it out of range (R220). -/
theorem matchMarks_keeps_range (C : Config) (wpm : BitVec 16) (xs : List RxSymbol) :
    ∀ dashLen, DashInRange C wpm dashLen → DashInRange C wpm (matchMarks C wpm xs dashLen).2 := by
  induction xs with
  | nil => exact fun _ h => h
  | cons x xs ih =>
    intro dashLen h
    unfold matchMarks
    split
    · split
      · exact ih _ h
      · exact ih _ h
      · exact ih _ (adaptDash_keeps_range x.ticks h)
    · exact ih _ h

/-! ### The decoder -/

/-- The decoder's part of the machine's invariant: the clauses of R48 and the two array lengths of R37 and
R41. -/
structure DecoderSound (C : Config) (d : Decoder) : Prop extends DecoderInvariant C d where
  lpfHist : d.lpfHist.length = C.lpfTaps.length - 1
  sym : d.sym.length = C.symCap

/-- The dash length is in the range of R224. -/
theorem DecoderSound.dashInRange {C : Config} {d : Decoder} (h : DecoderSound C d) :
    DashInRange C d.wpm d.dashLen := ⟨h.dashLow, h.dashHigh⟩

end Sys2Proof.Machine
end

section
/-! PROOFS. The receiver's operations keep `DecoderSound`; each proof names the clauses its operation
touches. -/

namespace Sys2Proof.Machine

open Sys2Proof.Safety

variable {C : Config} {d : Decoder}

/-! ### The front end (41_rx_detector.md) -/

theorem retunePitch_keeps_sound (pitch : BitVec 16) (h : DecoderSound C d) :
    DecoderSound C (retunePitch C pitch d) := by
  unfold retunePitch
  split
  · exact { h with }
  · exact h

/-- A WPM change moves the theoretical length and restarts the dash length at it (R161, R223). -/
theorem retuneWpm_keeps_sound (hC : C.ok = true) (wpm : BitVec 16) (h : DecoderSound C d) :
    DecoderSound C (retuneWpm C wpm d) := by
  unfold retuneWpm
  split
  · obtain ⟨low, high⟩ := dashInRange_initDash hC wpm
    exact { h with dashLow := low, dashHigh := high }
  · exact h

theorem firShift_length {hist : List Word} (x : Word) (h : hist.length = C.lpfTaps.length - 1) :
    (firShift C x hist).length = C.lpfTaps.length - 1 := by
  simp [firShift, h]

/-- The filter history keeps its length over any number of samples (R163, R37). -/
theorem decimateFrom_hist_length (xs : List Word) : ∀ (j : Nat) (hist : List Word) (out : List Int),
    hist.length = C.lpfTaps.length - 1 → (decimateFrom C xs j hist out).2.length = C.lpfTaps.length - 1 := by
  induction xs with
  | nil => exact fun _ _ _ h => h
  | cons x xs ih =>
    intro j hist out h
    unfold decimateFrom
    dsimp only
    split
    · exact ih _ _ _ (firShift_length x h)
    · exact ih _ _ _ (firShift_length x h)

/-- `STREAK` saturates at `STREAK_MAX` and `WIN_BIN` is one of the five bins (R172, R171). -/
theorem streakUpdate_keeps_sound (hC : C.ok = true) {b : BitVec 3} (hb : b.toNat < 5)
    (h : DecoderSound C d) : DecoderSound C (streakUpdate C b d) := by
  obtain ⟨hmin, hmax⟩ := streakMax_bounds_of_ok hC
  have hstreak : (streakUpdate C b d).streak.toNat ≤ C.streakMax := by
    rw [streakUpdate_streak]
    split
    · rw [BitVec.toNat_ofNat, Nat.mod_eq_of_lt (by omega)]
      exact Nat.min_le_right _ _
    · change 1 ≤ C.streakMax
      omega
  exact { h with streakMax := hstreak, winBin := .inl hb }

/-! ### Levels (42_rx_levels.md) -/

/-- A weighted mean of two 64-bit values is a 64-bit value (R193). -/
theorem levelStep_lt {k : Nat} (hk : 1 ≤ k) (m level : BitVec 64) : levelStep k m level < 2 ^ 64 := by
  refine Nat.div_lt_of_lt_mul ?_
  have hl : (k - 1) * level.toNat ≤ (k - 1) * 2 ^ 64 := Nat.mul_le_mul_left _ level.isLt.le
  have hm := m.isLt
  obtain ⟨j, rfl⟩ := Nat.exists_eq_add_of_le' hk
  rw [Nat.add_sub_cancel] at hl ⊢
  omega

/-- The noise floor is clamped to `NF_MIN` (R193). -/
theorem floorUpdate_min (hC : C.ok = true) (m high : BitVec 64) {floor : BitVec 64}
    (h : nfMin ≤ floor.toNat) : nfMin ≤ (floorUpdate C m high floor).toNat := by
  unfold floorUpdate
  split
  · have hlt := levelStep_lt (nfDecay_pos_of_ok hC) m floor
    have hmin : nfMin < 2 ^ 64 := by decide
    rw [BitVec.toNat_ofNat, Nat.mod_eq_of_lt (Nat.max_lt.mpr ⟨hlt, hmin⟩)]
    exact Nat.le_max_right _ _
  · exact h

theorem levelUpdate_keeps_sound (hC : C.ok = true) (m : BitVec 64) (h : DecoderSound C d) :
    DecoderSound C (levelUpdate C m d) := { h with floorMin := floorUpdate_min hC m _ h.floorMin }

theorem denoise_keeps_sound (h : DecoderSound C d) : DecoderSound C (denoise d) := { h with }

/-! ### The segmenter and the matcher (43_rx_segment_match.md) -/

/-- The write index wraps below `SYM_CAP` and the buffer keeps its length (R211). -/
theorem pushSymbol_keeps_sound (hC : C.ok = true) (x : RxSymbol) (h : DecoderSound C d) :
    DecoderSound C (pushSymbol C x d) :=
  { h with
    symIndex := Nat.mod_lt _ (Nat.lt_of_lt_of_le Nat.two_pos (symCap_bound_of_ok hC))
    sym := by rw [pushSymbol_sym, List.length_set, h.sym] }

theorem segmentEdge_keeps_sound (hC : C.ok = true) (m : BitVec 64) (h : DecoderSound C d) :
    DecoderSound C (segmentEdge C m d) := { pushSymbol_keeps_sound hC _ h with }

theorem segmentMark_keeps_sound (h : DecoderSound C d) : DecoderSound C (segmentMark d) := by
  unfold segmentMark
  split
  · exact { h with }
  · exact h

theorem emitWordSpace_keeps_sound (h : DecoderSound C d) : DecoderSound C (emitWordSpace d).1 := by
  rw [emitWordSpace_frame]
  exact { h with }

theorem segmentSilence_keeps_sound (h : DecoderSound C d) : DecoderSound C (segmentSilence d).1 := by
  unfold segmentSilence
  split
  · exact { emitWordSpace_keeps_sound h with }
  · exact h

/-- The matcher empties the buffer and leaves an adapted dash length (R220). -/
theorem matchLetter_keeps_sound (hC : C.ok = true) (h : DecoderSound C d) :
    DecoderSound C (matchLetter C d).1 := by
  obtain ⟨low, high⟩ := matchMarks_keeps_range C d.wpm (d.sym.take d.symWr) d.dashLen h.dashInRange
  have hcap : 0 < C.symCap := Nat.lt_of_lt_of_le Nat.two_pos (symCap_bound_of_ok hC)
  rw [matchLetter_frame]
  exact { h with dashLow := low, dashHigh := high, symIndex := hcap }

theorem closeLetter_keeps_sound (hC : C.ok = true) (m : BitVec 64) (h : DecoderSound C d) :
    DecoderSound C (closeLetter C m d).1 := by
  have matched := matchLetter_keeps_sound hC (pushSymbol_keeps_sound hC ⟨false, m, d.ticks⟩ h)
  unfold closeLetter
  dsimp only
  split
  · exact { emitWordSpace_keeps_sound matched with }
  · exact { matched with }

/-- SEGMENT in each of its five transitions (R210). -/
theorem segment_keeps_sound (hC : C.ok = true) (m : BitVec 64) (h : DecoderSound C d) :
    DecoderSound C (segment C m d).1 := by
  have counted : DecoderSound C { d with ticks := BitVec.ofNat 32 (d.ticks.toNat + 1) } := { h with }
  rcases segment_cases C m d with
    ⟨_, edge⟩ | ⟨_, _, mark⟩ | ⟨_, _, _, _, close⟩ | ⟨_, _, _, _, wait⟩ | ⟨_, _, _, silence⟩
  · rw [edge]; exact segmentEdge_keeps_sound hC m counted
  · rw [mark]; exact segmentMark_keeps_sound counted
  · rw [close]; exact closeLetter_keeps_sound hC m counted
  · rw [wait]; exact counted
  · rw [silence]; exact segmentSilence_keeps_sound counted

/-! ### The tick and the block loop (R160, R162) -/

theorem tickWith_keeps_sound (hC : C.ok = true) {b : BitVec 3} (hb : b.toNat < 5) (m : BitVec 64)
    (h : DecoderSound C d) : DecoderSound C (tickWith C b m d).1 := by
  have streaked : DecoderSound C { streakUpdate C b d with lastMag := m } :=
    { streakUpdate_keeps_sound hC hb h with }
  have levelled := levelUpdate_keeps_sound hC m streaked
  exact segment_keeps_sound hC m (denoise_keeps_sound { levelled with })

theorem tickInput_keeps_sound (hC : C.ok = true) (x : List Word) (h : DecoderSound C d) :
    DecoderSound C (tickInput C x d).1 := by
  have filtered : DecoderSound C { d with lpfHist := (decimate C x d.lpfHist).2 } :=
    { h with lpfHist := decimateFrom_hist_length x 0 d.lpfHist [] h.lpfHist }
  exact tickWith_keeps_sound hC (selectBin_index C d.bins _) _ filtered

theorem rxTicks_keeps_sound (hC : C.ok = true) (t : Nat) :
    ∀ (x : List Word) (d : Decoder) (es : List Event), DecoderSound C d →
      DecoderSound C (rxTicks C t x d es).1 := by
  induction t with
  | zero => exact fun _ _ _ h => h
  | succ t ih => exact fun x _ _ h => ih _ _ _ (tickInput_keeps_sound hC (x.take C.tickSamples) h)

/-- The work of an accepted RXB: RETUNE, then the ticks (R160, R161). -/
theorem receive_keeps_sound (hC : C.ok = true) (sh : Shadow) (count : BitVec 16) (x : List Word)
    (h : DecoderSound C d) : DecoderSound C (receive C sh count x d).1 :=
  rxTicks_keeps_sound hC _ _ _ _ (retuneWpm_keeps_sound hC sh.wpm (retunePitch_keeps_sound sh.pitch h))

/-! ### INIT (46_control.md R321) -/

/-- INIT gives every clause, whatever the registers held; the symbol buffer keeps its length. -/
theorem decoderInit_sound (hC : C.ok = true) (cfg : CfgRegs) (hsym : d.sym.length = C.symCap) :
    DecoderSound C (decoderInit C cfg d) := by
  obtain ⟨low, high⟩ := dashInRange_initDash hC cfg.wpm
  exact
    { floorMin := Nat.le_refl nfMin
      dashLow := low
      dashHigh := high
      symIndex := Nat.lt_of_lt_of_le Nat.two_pos (symCap_bound_of_ok hC)
      streakMax := Nat.zero_le _
      winBin := .inr rfl
      lpfHist := List.length_replicate
      sym := hsym }

end Sys2Proof.Machine
end

section
/-! PROOFS. The keyer keeps the clauses of 10_state.md R48 and 44_tx_keyer.md R261 and the length of its
playback buffer. -/

namespace Sys2Proof.Machine

open Sys2Proof.Safety

/-! ### Symbol and memory: R261 -/

/-- `CUR_SYM` is no squeeze and `NEXT_SYM` is IDLE, DOT or DASH (R261). -/
structure SymbolsLegal (k : Keyer) : Prop where
  curSym : k.curSym ≠ .squeeze
  nextSym : memoryElement k.nextSym = true

variable {k : Keyer}

theorem startInterval_legal {e : Sym} (he : e ≠ .squeeze) (kd ku : Nat) (h : SymbolsLegal k) :
    SymbolsLegal (startInterval e kd ku k) := ⟨he, h.nextSym⟩

theorem goIdle_legal (h : SymbolsLegal k) : SymbolsLegal (goIdle k) := ⟨Sym.noConfusion, h.nextSym⟩

theorem clearNext_legal (h : SymbolsLegal k) : SymbolsLegal (clearNext k) := ⟨h.curSym, rfl⟩

theorem startDot_legal (h : SymbolsLegal k) : SymbolsLegal (startDot k) :=
  startInterval_legal Sym.noConfusion _ _ h

theorem startDash_legal (h : SymbolsLegal k) : SymbolsLegal (startDash k) :=
  startInterval_legal Sym.noConfusion _ _ h

theorem startDown_legal (h : SymbolsLegal k) : SymbolsLegal (startDown k) :=
  startInterval_legal Sym.noConfusion _ _ h

theorem startElement_legal (e : Sym) (h : SymbolsLegal k) : SymbolsLegal (startElement e k) := by
  unfold startElement
  split
  · exact startDot_legal h
  · exact startDash_legal h
  · exact goIdle_legal h

theorem straightHandler_legal (sn : Sym) (h : SymbolsLegal k) : SymbolsLegal (straightHandler sn k) := by
  unfold straightHandler
  split
  · exact clearNext_legal (goIdle_legal h)
  · exact clearNext_legal (startDown_legal h)

theorem bugHandler_legal (sn : Sym) (h : SymbolsLegal k) : SymbolsLegal (bugHandler sn k) := by
  refine clearNext_legal ?_
  split
  · exact startDot_legal h
  · exact startDown_legal h
  · exact startDown_legal h
  · exact goIdle_legal h

theorem ultimaticEdges_legal (key : Key) (h : SymbolsLegal k) : SymbolsLegal (ultimaticEdges key k) := by
  unfold ultimaticEdges
  split
  · exact { h with }
  · split
    · exact { h with }
    · exact h

theorem ultimaticHandler_legal (key : Key) (idle : Bool) (sn : Sym) (h : SymbolsLegal k) :
    SymbolsLegal (ultimaticHandler key idle sn k) := by
  have edges := ultimaticEdges_legal key h
  unfold ultimaticHandler
  dsimp only
  split
  · exact startElement_legal _ (clearNext_legal edges)
  · exact edges

theorem iambicIdle_legal (sn : Sym) (h : SymbolsLegal k) : SymbolsLegal (iambicIdle sn k) := by
  unfold iambicIdle
  split
  · exact clearNext_legal (startDot_legal h)
  · exact clearNext_legal (startDash_legal h)
  · exact startElement_legal _ h

/-- The busy branches of IAMBIC_A and IAMBIC_B remember a dot or a dash (R258, R259). -/
theorem iambicABusy_legal (key : Key) (h : SymbolsLegal k) : SymbolsLegal (iambicABusy key k) := by
  unfold iambicABusy
  split
  · exact { h with nextSym := rfl }
  · split
    · exact { h with nextSym := rfl }
    · exact h

theorem iambicBBusy_legal (key : Key) (h : SymbolsLegal k) : SymbolsLegal (iambicBBusy key k) := by
  unfold iambicBBusy
  split
  · exact { h with nextSym := rfl }
  · split
    · exact { h with nextSym := rfl }
    · exact h

theorem keyboardFromKey_legal (sn : Sym) (h : SymbolsLegal k) : SymbolsLegal (keyboardFromKey sn k) := by
  unfold keyboardFromKey
  split
  · exact startDot_legal h
  · exact startDot_legal h
  · exact startDash_legal h
  · exact goIdle_legal h

theorem keyboardFromText_legal (sn : Sym) (h : SymbolsLegal k) : SymbolsLegal (keyboardFromText sn k) := by
  unfold keyboardFromText
  split
  · exact startInterval_legal Sym.noConfusion _ _ h
  · exact startInterval_legal Sym.noConfusion _ _ h
  · exact startInterval_legal Sym.noConfusion _ _ h
  · exact startInterval_legal Sym.noConfusion _ _ h
  · exact startInterval_legal Sym.noConfusion _ _ h
  · exact goIdle_legal h

theorem keyboardHandler_legal (fromKey : Bool) (sn : Sym) (h : SymbolsLegal k) :
    SymbolsLegal (keyboardHandler fromKey sn k) := by
  unfold keyboardHandler
  split
  · exact clearNext_legal (keyboardFromKey_legal sn h)
  · exact clearNext_legal (keyboardFromText_legal sn h)

/-- The handler of every mode keeps R261, whatever symbol it is given. -/
theorem modeHandler_legal (mode : Mode) (key : Key) (idle fromKey : Bool) (sn : Sym) (h : SymbolsLegal k) :
    SymbolsLegal (modeHandler mode key idle fromKey sn k) := by
  cases mode with
  | straight => exact straightHandler_legal sn h
  | bug => exact bugHandler_legal sn h
  | ultimatic => exact ultimaticHandler_legal key idle sn h
  | iambicA =>
    cases idle with
    | true => exact iambicIdle_legal sn h
    | false => exact iambicABusy_legal key h
  | iambicB =>
    cases idle with
    | true => exact iambicIdle_legal sn h
    | false => exact iambicBBusy_legal key h
  | keyboard => exact keyboardHandler_legal fromKey sn h

/-! ### The playback buffer: R43, R253 -/

/-- `L_MAX` bounds every code of the table (00_scope.md R7). -/
theorem code_length_le_lMax {C : Config} {c : Byte} {code : List TxElem} (h : txRom C c = some code) :
    code.length ≤ C.lMax := by
  have hmem : code.length ∈ C.txTable.map (·.2.length) :=
    List.mem_map_of_mem (tableLookup_mem c code C.txTable h)
  rw [Config.lMax, List.foldl_eq_foldr]
  exact List.le_max_of_le hmem le_rfl

/-- A spelled byte fits the playback buffer (R253, R254). -/
theorem spellByte_length_le_kbCap {C : Config} {c : Byte} {syms : List Sym} (h : spellByte C c = some syms) :
    syms.length ≤ C.kbCap := by
  unfold spellByte at h
  split at h
  · injection h with h
    subst h
    exact Nat.le_add_left 1 _
  · obtain ⟨code, hcode, rfl⟩ := Option.map_eq_some_iff.mp h
    have hspell := (spellCode_length code).2
    have hmax := code_length_le_lMax hcode
    unfold Config.kbCap
    omega

/-- The keyer's part of the machine's invariant: the clauses of R48 and R261 and the array length of R43. -/
structure KeyerSound (C : Config) (k : Keyer) : Prop extends KeyerInvariant C k where
  kbSeq : k.kbSeq.length = C.kbCap

variable {C : Config}

theorem KeyerSound.legal (h : KeyerSound C k) : SymbolsLegal k := ⟨h.curSym, h.nextSym⟩

/-- KB_LOAD overwrites the front of the buffer and takes up the playback at its second symbol (R254). -/
theorem loadSequence_keeps_sound {c : Byte} {syms : List Sym} (hs : spellByte C c = some syms)
    (h : KeyerSound C k) : KeyerSound C { loadSequence syms k with kbPos := 1 } := by
  have hle := spellByte_length_le_kbCap hs
  have hseq : (loadSequence syms k).kbSeq.length = C.kbCap := by
    rw [loadSequence_kbSeq, List.length_append, List.length_drop, h.kbSeq]
    omega
  exact { h with kbPos := spellByte_length_pos C c syms hs, kbLen := hle, kbSeq := hseq }

/-- SYMBOL_NOW advances the playback, loads a character or does neither (R243). -/
theorem symbolNow_keeps_sound (key : Key) (mode : Mode) (txq : List Byte) (h : KeyerSound C k) :
    KeyerSound C (symbolNow C key mode k txq).keyer := by
  obtain ⟨frame, same | ⟨c, _, _, _, _, ⟨_, unsent⟩ | ⟨syms, hs, _, loaded⟩⟩⟩ :=
    symbolNow_cases C key mode k txq
  · obtain ⟨_, _, hseq, hlen⟩ := same
    have hpos := symbolNow_kbPos C key mode k txq h.kbPos
    have hcur := congrArg Keyer.curSym frame
    have hnext := congrArg Keyer.nextSym frame
    exact
      { kbPos := hpos
        kbLen := hlen ▸ h.kbLen
        curSym := hcur ▸ h.curSym
        nextSym := hnext ▸ h.nextSym
        kbSeq := hseq ▸ h.kbSeq }
  · rw [unsent]; exact h
  · rw [loaded]; exact loadSequence_keeps_sound hs h

theorem modeHandler_keeps_sound (mode : Mode) (key : Key) (idle fromKey : Bool) (sn : Sym)
    (h : KeyerSound C k) : KeyerSound C (modeHandler mode key idle fromKey sn k) := by
  obtain ⟨hseq, hlen, hpos, _, _⟩ := modeHandler_frame mode key idle fromKey sn k
  obtain ⟨hcur, hnext⟩ := modeHandler_legal mode key idle fromKey sn h.legal
  exact
    { kbPos := by rw [hpos, hlen]; exact h.kbPos
      kbLen := by rw [hlen]; exact h.kbLen
      curSym := hcur
      nextSym := hnext
      kbSeq := by rw [hseq]; exact h.kbSeq }

/-- One invocation: symbol, handler, then `PREV_IN` (R240). -/
theorem keyerStep_keeps_sound (key : Key) (mode : Mode) (idle : Bool) (txq : List Byte)
    (h : KeyerSound C k) : KeyerSound C (keyerStep C key mode idle k txq).keyer :=
  { modeHandler_keeps_sound mode key idle _ _ (symbolNow_keeps_sound key mode txq h) with }

/-- TXS's keyer part and countdowns (45_tx_sample.md R291, R294). -/
theorem txKeyer_keeps_sound {s : State} (h : KeyerSound C s.keyer) :
    KeyerSound C (advanceKeyer (keyerPart C s).keyer) := by
  have part : KeyerSound C (keyerPart C s).keyer := by
    rcases keyerPart_cases C s with hp | hp
    · rw [hp]; exact h
    · rw [hp]; exact keyerStep_keeps_sound _ _ _ _ h
  rw [advanceKeyer_frame]
  exact { part with }

/-- INIT gives every clause, whatever the registers held; the playback buffer keeps its length (R321). -/
theorem keyerInit_sound (cfg : CfgRegs) (hseq : k.kbSeq.length = C.kbCap) :
    KeyerSound C (keyerInit C cfg k) where
  kbPos := Nat.le_refl 0
  kbLen := Nat.zero_le _
  curSym := Sym.noConfusion
  nextSym := rfl
  kbSeq := hseq

end Sys2Proof.Machine
end

section
/-! PROOFS. The machine's invariant holds at power-on and every step keeps it: the host's actions touch
no register of the block, a refusal touches none, and each accepted command keeps it by the lemmas on the
decoder and the keyer. -/

namespace Sys2Proof.Machine

open Sys2Proof.Safety

variable {C : Config} {s t : State}

/-! ### The invariant, taken apart and put together -/

theorem decoderSound_of_invariant (h : Invariant C s) (inited : s.inited = true) : DecoderSound C s.dec :=
  { h.decoder inited with lpfHist := h.arrays.lpfHist, sym := h.arrays.sym }

theorem keyerSound_of_invariant (h : Invariant C s) (inited : s.inited = true) : KeyerSound C s.keyer :=
  { h.keyer inited with kbSeq := h.arrays.kbSeq }

/-- The invariant of a machine that is initialised, from its parts. -/
theorem invariant_of_sound (cfgWpm : s.cfg.written.getLsbD 0 = true → s.cfg.wpm ≠ 0)
    (dec : DecoderSound C s.dec) (keyer : KeyerSound C s.keyer) (ramp : s.osc.envR.toNat ≤ C.envRamp) :
    Invariant C s where
  arrays := ⟨dec.lpfHist, dec.sym, keyer.kbSeq⟩
  cfgWpm := cfgWpm
  decoder _ := dec.toDecoderInvariant
  keyer _ := keyer.toKeyerInvariant
  ramp _ := ramp

/-- The invariant speaks of the block's registers only: a state with the same ones and legal configuration
writes has it too. -/
theorem invariant_of_same_registers (h : Invariant C s) (inited : t.inited = s.inited)
    (cfgWpm : t.cfg.written.getLsbD 0 = true → t.cfg.wpm ≠ 0) (dec : t.dec = s.dec)
    (keyer : t.keyer = s.keyer) (osc : t.osc = s.osc) : Invariant C t where
  arrays := ⟨dec ▸ h.arrays.lpfHist, dec ▸ h.arrays.sym, keyer ▸ h.arrays.kbSeq⟩
  cfgWpm := cfgWpm
  decoder on := dec ▸ h.decoder (inited ▸ on)
  keyer on := keyer ▸ h.keyer (inited ▸ on)
  ramp on := osc ▸ h.ramp (inited ▸ on)

/-! ### Power-on -/

/-- The power-on state of any configuration: the arrays have their lengths, nothing is written and
`INITED = 0` (10_state.md R47). -/
theorem invariant_resetWith (C : Config) : Invariant C (State.resetWith C) where
  arrays := ⟨List.length_replicate, List.length_replicate, List.length_replicate⟩
  cfgWpm written := absurd written (by simp [State.resetWith])
  decoder inited := absurd inited Bool.false_ne_true
  keyer inited := absurd inited Bool.false_ne_true
  ramp inited := absurd inited Bool.false_ne_true

/-! ### Answers and the host -/

theorem respond_keeps_invariant (st : Status) (v : Word) (h : Invariant C s) : Invariant C (respond st v s) :=
  invariant_of_same_registers h rfl h.cfgWpm rfl rfl rfl

theorem consume_keeps_invariant (n : Nat) (h : Invariant C s) : Invariant C (consume n s) :=
  invariant_of_same_registers h rfl h.cfgWpm rfl rfl rfl

/-- The host writes its own ports only (60_exceptions.md R373). -/
theorem hostActions_keeps_invariant (items : List HostItem) (h : Invariant C s) :
    Invariant C (hostActions items s) := by
  rw [hostActions_frame]
  exact invariant_of_same_registers h rfl h.cfgWpm rfl rfl rfl

/-! ### The commands -/

/-- INIT needs no invariant but the array lengths and the legal `CFG_WPM` (R321). -/
theorem initState_keeps_invariant (hC : C.ok = true) (h : Invariant C s) : Invariant C (initState C s) :=
  invariant_of_sound h.cfgWpm (decoderInit_sound hC s.cfg h.arrays.sym)
    (keyerInit_sound s.cfg h.arrays.kbSeq) (Nat.zero_le _)

theorem emit_keeps_invariant (es : List Event) (h : Invariant C s) : Invariant C (emit es s) :=
  invariant_of_same_registers h rfl h.cfgWpm rfl rfl rfl

/-- POLL writes `PERIOD` of the keyer and nothing else the invariant speaks of (R322). -/
theorem pollLatch_keeps_invariant (bytes : BitVec 16) (h : Invariant C s) (inited : s.inited = true) :
    Invariant C (pollLatch C bytes s) := by
  have keyer : KeyerSound C (pollLatch C bytes s).keyer := by
    have kept := keyerSound_of_invariant h inited
    rw [pollLatch_keyer]
    split
    · exact { kept with }
    · exact kept
  exact invariant_of_sound h.cfgWpm (decoderSound_of_invariant (s := s) h inited) keyer (h.ramp inited)

theorem pttDecide_keeps_invariant (txOn : Bool) (h : Invariant C s) : Invariant C (pttDecide txOn s) := by
  obtain ⟨es, frame⟩ := pttDecide_frame txOn s
  rw [frame]
  exact invariant_of_same_registers h rfl h.cfgWpm rfl rfl rfl

/-- The oscillator's retune leaves the envelope alone (45_tx_sample.md R297). -/
theorem retuneOsc_envR (C : Config) (pitch : BitVec 16) (o : Osc) : (retuneOsc C pitch o).envR = o.envR := by
  unfold retuneOsc
  split <;> rfl

theorem txState_keeps_invariant (h : Invariant C s) (inited : s.inited = true) : Invariant C (txState C s) := by
  have ramp : (retuneOsc C s.sh.pitch s.osc).envR.toNat ≤ C.envRamp := by
    rw [retuneOsc_envR]
    exact h.ramp inited
  exact invariant_of_sound h.cfgWpm (decoderSound_of_invariant (s := s) h inited)
    (txKeyer_keeps_sound (keyerSound_of_invariant h inited)) (advanceEnv_le C _ _ ramp)

theorem receive_keeps_invariant (hC : C.ok = true) (count : BitVec 16) (x : List Word) (h : Invariant C s)
    (inited : s.inited = true) :
    Invariant C { s with dec := (receive C s.sh count x s.dec).1 } :=
  invariant_of_sound h.cfgWpm (receive_keeps_sound hC s.sh count x (decoderSound_of_invariant h inited))
    (keyerSound_of_invariant (s := s) h inited) (h.ramp inited)

/-- A configuration write that leaves `CFG_WPM` legal (10_state.md R33). -/
theorem writeConfig_keeps_invariant (i : Nat) (cfg : CfgRegs) (h : Invariant C s)
    (legal : (s.cfg.written ||| 1#4 <<< i).getLsbD 0 = true → cfg.wpm ≠ 0) :
    Invariant C (writeConfig i cfg s) :=
  invariant_of_same_registers h rfl legal rfl rfl rfl

/-- A write of another register does not mark `CFG_WPM` written (46_control.md R326). -/
theorem written_wpm_bit (w : BitVec 4) {i : Nat} (hi : i ≠ 0) :
    (w ||| 1#4 <<< i).getLsbD 0 = w.getLsbD 0 := by
  simp [Nat.pos_of_ne_zero hi]

/-- Every accepted command keeps the invariant. -/
theorem accepted_keeps_invariant (hC : C.ok = true) {i : Instr} {v : Word} (h : Invariant C s)
    (ht : Accepted C s i v t) : Invariant C t := by
  cases ht with
  | init => exact initState_keeps_invariant hC h
  | poll inited txOn bytes => exact pttDecide_keeps_invariant txOn (pollLatch_keeps_invariant bytes h inited)
  | txs inited => exact txState_keeps_invariant h inited
  | rxb inited count x => exact emit_keeps_invariant _ (receive_keeps_invariant hC count x h inited)
  | abort => exact h
  | wcfgWpm v nonzero => exact writeConfig_keeps_invariant 0 _ h fun _ => nonzero
  | wcfgPitch v =>
    exact writeConfig_keeps_invariant 1 _ h fun w => h.cfgWpm (written_wpm_bit _ (Nat.succ_ne_zero _) ▸ w)
  | wcfgCwDelay v =>
    exact writeConfig_keeps_invariant 2 _ h fun w => h.cfgWpm (written_wpm_bit _ (Nat.succ_ne_zero _) ▸ w)
  | wcfgMode v m =>
    exact writeConfig_keeps_invariant 3 _ h fun w => h.cfgWpm (written_wpm_bit _ (Nat.succ_ne_zero _) ▸ w)
  | rdstat => exact h

theorem execWith_keeps_invariant (hC : C.ok = true) {i : Instr} (h : Invariant C s)
    (ht : execWith C i s = .next t) : Invariant C t := by
  rcases execWith_answers ht with ⟨st, _, rfl⟩ | ⟨v, u, hu, rfl⟩
  · exact respond_keeps_invariant st 0 h
  · exact respond_keeps_invariant .ok v (accepted_keeps_invariant hC h hu)

theorem stepWith_keeps_invariant (hC : C.ok = true) (h : Invariant C s) (ht : stepWith C s = .next t) :
    Invariant C t := by
  have acted := hostActions_keeps_invariant s.input h
  rcases stepWith_cases ht with rfl | ⟨n, rfl | ⟨i, command⟩⟩
  · exact acted
  · exact respond_keeps_invariant _ _ (consume_keeps_invariant n acted)
  · exact execWith_keeps_invariant hC (consume_keeps_invariant n acted) command

/-- The reference values meet the constraint column of 00_scope.md R7. -/
theorem theConfig_ok : theConfig.ok = true := by decide +kernel

end Sys2Proof.Machine

namespace Sys2Proof.Proofs

open Sys2Proof.Machine Sys2Proof.Safety

/-- Settles O50. -/
theorem resetMeetsTheInvariant : Obligations.ResetMeetsTheInvariant :=
  ⟨invariant_resetWith theConfig, invariant_resetWith⟩

/-- Settles O49: the host's machine is the configured one at the reference configuration, whose values are
legal. -/
theorem everyStepKeepsTheInvariant : Obligations.EveryStepKeepsTheInvariant :=
  ⟨fun s _ h ht => stepWith_keeps_invariant theConfig_ok h (step_eq_stepWith s ▸ ht),
    fun _ _ _ hC h ht => stepWith_keeps_invariant hC h ht⟩

end Sys2Proof.Proofs
end

section
/-! PROOFS. The byte transport of 20_memory.md R82: cutting words into bytes and putting bytes together
into words. -/

namespace Sys2Proof

/-- The four bytes of a word, most significant on the left, put together again. -/
theorem append_bytesOfWord (w : Word) :
    w.extractLsb' 24 8 ++ w.extractLsb' 16 8 ++ w.extractLsb' 8 8 ++ w.extractLsb' 0 8 = w := by
  have upper : w.extractLsb' 24 8 ++ w.extractLsb' 16 8 = w.extractLsb' 16 16 :=
    BitVec.extractLsb'_append_extractLsb'_eq_extractLsb' rfl
  have middle : w.extractLsb' 16 16 ++ w.extractLsb' 8 8 = w.extractLsb' 8 24 :=
    BitVec.extractLsb'_append_extractLsb'_eq_extractLsb' rfl
  have lower : w.extractLsb' 8 24 ++ w.extractLsb' 0 8 = w.extractLsb' 0 32 :=
    BitVec.extractLsb'_append_extractLsb'_eq_extractLsb' rfl
  rw [upper, middle, lower, BitVec.extractLsb'_eq_self]

/-- The reader takes one word's bytes off the front of the transport. -/
theorem wordsOfBytes_bytesOfWord_append (w : Word) (bs : List Byte) :
    wordsOfBytes (bytesOfWord w ++ bs) = w :: wordsOfBytes bs :=
  congrArg (· :: wordsOfBytes bs) (append_bytesOfWord w)

theorem wordsOfBytes_bytesOfWords (ws : List Word) : wordsOfBytes (bytesOfWords ws) = ws := by
  induction ws with
  | nil => rfl
  | cons w ws ih =>
    calc wordsOfBytes (bytesOfWord w ++ bytesOfWords ws)
        = w :: wordsOfBytes (bytesOfWords ws) := wordsOfBytes_bytesOfWord_append w _
      _ = w :: ws := by rw [ih]

/-- The values of a word's bytes: its digits in base 256, least significant first. -/
theorem bytesOfWord_toNat (w : Word) :
    (bytesOfWord w).map BitVec.toNat =
      [w.toNat % 256, w.toNat / 256 % 256, w.toNat / 65536 % 256, w.toNat / 16777216] := by
  have top : w.toNat / 16777216 % 256 = w.toNat / 16777216 := by
    have := w.isLt
    omega
  simp [bytesOfWord, BitVec.extractLsb'_toNat, Nat.shiftRight_eq_div_pow, top]

end Sys2Proof

namespace Sys2Proof.Proofs

/-- Settles O6: one word's bytes are read back and have their values, and the list follows by induction. -/
theorem littleEndianTransportKeepsWords : Obligations.LittleEndianTransportKeepsWords := by
  intro w ws
  refine ⟨wordsOfBytes_bytesOfWords ws, ?_⟩
  rw [← bytesOfWord_toNat, ← List.map_append]
  rfl

end Sys2Proof.Proofs
end

section
/-! PROOFS. What a WCFG or an RDSTAT leaves in the registers, said by one function of the configuration
registers that a repetition does not change (20_memory.md R85, 46_control.md R326, R327). -/

namespace Sys2Proof.Machine

open Sys2Proof.Safety

/-- The commands that access a register by its index (46_control.md R326, R327). -/
def IndexedAccess (i : Instr) : Prop :=
  (∃ v, i = .wcfgWpm v ∨ i = .wcfgPitch v ∨ i = .wcfgCwDelay v ∨ i = .wcfgMode v) ∨ ∃ x, i = .rdstat x

/-- Bit `i` of `CFG_W` set (R326). -/
def markWritten (i : Nat) (cfg : CfgRegs) : CfgRegs := { cfg with written := cfg.written ||| (1#4 <<< i) }

/-- The configuration registers after a WCFG; a refused one and every other command leave them alone. -/
def cfgAfter : Instr → CfgRegs → CfgRegs
  | .wcfgWpm v, cfg => if v = 0 then cfg else markWritten 0 { cfg with wpm := v }
  | .wcfgPitch v, cfg => markWritten 1 { cfg with pitch := v }
  | .wcfgCwDelay v, cfg => markWritten 2 { cfg with cwDelay := v }
  | .wcfgMode v, cfg =>
    match modeOfValue v with
    | none => cfg
    | some m => markWritten 3 { cfg with mode := m }
  | _, cfg => cfg

/-- The same write twice is the write once: the value replaces itself and the bit of `CFG_W` is set. -/
theorem cfgAfter_idem (i : Instr) (cfg : CfgRegs) : cfgAfter i (cfgAfter i cfg) = cfgAfter i cfg := by
  cases i with
  | wcfgWpm v =>
    by_cases hv : v = 0
    · simp only [cfgAfter, if_pos hv]
    · simp only [cfgAfter, if_neg hv, markWritten, BitVec.or_assoc, BitVec.or_self]
  | wcfgPitch v => simp only [cfgAfter, markWritten, BitVec.or_assoc, BitVec.or_self]
  | wcfgCwDelay v => simp only [cfgAfter, markWritten, BitVec.or_assoc, BitVec.or_self]
  | wcfgMode v =>
    cases hm : modeOfValue v with
    | none => simp only [cfgAfter, hm]
    | some m => simp only [cfgAfter, hm, markWritten, BitVec.or_assoc, BitVec.or_self]
  | _ => rfl

/-- A command answered on `u`: the answer is on the result port, which is no register. -/
theorem registers_of_respond {st : Status} {v : Word} {u t : State}
    (h : Host.Outcome.next (respond st v u) = (.next t : Host.Outcome State Fault Refusal)) :
    registers t = registers u := by
  injection h with h
  rw [← h]
  rfl

/-- Everything a WCFG or an RDSTAT does to the registers. -/
theorem registers_of_indexedAccess {i : Instr} {s t : State} (hi : IndexedAccess i)
    (h : exec i s = .next t) : registers t = { registers s with cfg := cfgAfter i s.cfg } := by
  obtain ⟨v, rfl | rfl | rfl | rfl⟩ | ⟨x, rfl⟩ := hi
  · simp only [exec, execWcfgWpm] at h
    by_cases hv : v = 0
    · simp only [cfgAfter, if_pos hv] at h ⊢
      exact registers_of_respond (u := s) h
    · simp only [cfgAfter, if_neg hv] at h ⊢
      exact registers_of_respond h
  · exact registers_of_respond h
  · exact registers_of_respond h
  · simp only [exec, execWcfgMode] at h
    cases hm : modeOfValue v with
    | none =>
      simp only [cfgAfter, hm] at h ⊢
      exact registers_of_respond (u := s) h
    | some m =>
      simp only [cfgAfter, hm] at h ⊢
      exact registers_of_respond h
  · obtain ⟨st, _, rfl⟩ | ⟨v, u, ⟨⟩, rfl⟩ := exec_answers h
    · rfl
    · rfl

end Sys2Proof.Machine

namespace Sys2Proof.Proofs

open Sys2Proof.Machine Sys2Proof.Safety

/-- Settles O57: both executions write `cfgAfter`, which is idempotent. -/
theorem wcfgAndRdstatAreIdempotent : Obligations.WcfgAndRdstatAreIdempotent := by
  intro i s t u hi ht hu
  have first := registers_of_indexedAccess hi ht
  have second := registers_of_indexedAccess hi hu
  have cfg : t.cfg = cfgAfter i s.cfg := congrArg State.cfg first
  have kept : cfgAfter i t.cfg = t.cfg := by rw [cfg, cfgAfter_idem]
  rw [second, kept]
  rfl

end Sys2Proof.Proofs
end

section
/-! PROOFS. The decoder and the encoder of 30_encoding.md agree: an equation per row of the opcode table
says what the row's words decode to, the clauses of R106 leave no other word legal, and the mask and match
values of spec/opcode_table.json describe the same words. -/

namespace Sys2Proof

/-! ### Reading a row's words -/

/-- The fields of a word built from fields are those fields (R100). -/
theorem fields_commandWord (op sel : BitVec 4) (f : Bool) (imm : BitVec 16) :
    opField (commandWord op sel f imm) = op ∧ selField (commandWord op sel f imm) = sel ∧
      rsvField (commandWord op sel f imm) = 0 ∧ flagField (commandWord op sel f imm) = f ∧
      immField (commandWord op sel f imm) = imm :=
  ⟨opField_commandWord op sel f imm, selField_commandWord op sel f imm, rsvField_commandWord op sel f imm,
    flagField_commandWord op sel f imm, immField_commandWord op sel f imm⟩

/-- An 8-bit index in `IMM` leaves bits 15:8 zero and is read back from bits 7:0 (R106, R107). -/
theorem index_in_immediate (index : BitVec 8) :
    (index.setWidth 16).extractLsb' 8 8 = 0 ∧ (index.setWidth 16).extractLsb' 0 8 = index := by
  constructor
  · ext i hi
    simp
  · ext i hi
    simp [show i < 16 by omega, BitVec.getLsbD_eq_getElem hi]

/-- An `IMM` whose bits 15:8 are zero is its bits 7:0. -/
theorem immediate_of_index {imm : BitVec 16} (h : imm.extractLsb' 8 8 = 0) :
    (imm.extractLsb' 0 8).setWidth 16 = imm := by
  have high : imm.toNat / 256 % 256 = 0 := by
    simpa [BitVec.extractLsb'_toNat, Nat.shiftRight_eq_div_pow] using congrArg BitVec.toNat h
  apply BitVec.eq_of_toNat_eq
  simp only [BitVec.toNat_setWidth, BitVec.extractLsb'_toNat, Nat.shiftRight_zero]
  have := imm.isLt
  omega

/-! An equation per row: what its words decode to, for all operands (R105, R107). -/

section Rows
variable (payload : List Word)

theorem decodeCommand_init : decodeCommand (commandWord 1 0 false 0) payload = .ok .init := rfl

theorem decodeCommand_poll (txIsOn : Bool) (v : BitVec 16) :
    decodeCommand (commandWord 2 0 txIsOn v) payload = .ok (.poll txIsOn v) := by
  simp [decodeCommand, illegalEncoding, commandOf, fields_commandWord]

theorem decodeCommand_txs : decodeCommand (commandWord 3 0 false 0) payload = .ok .txs := rfl

theorem decodeCommand_rxb (count : BitVec 16) :
    decodeCommand (commandWord 4 0 false count) payload = .ok (.rxb count payload) := by
  simp [decodeCommand, illegalEncoding, commandOf, fields_commandWord]

theorem decodeCommand_abort : decodeCommand (commandWord 5 0 false 0) payload = .ok .abort := rfl

theorem decodeCommand_wcfgWpm (v : BitVec 16) :
    decodeCommand (commandWord 6 0 false v) payload = .ok (.wcfgWpm v) := by
  simp [decodeCommand, illegalEncoding, commandOf, fields_commandWord]

theorem decodeCommand_wcfgPitch (v : BitVec 16) :
    decodeCommand (commandWord 6 1 false v) payload = .ok (.wcfgPitch v) := by
  simp [decodeCommand, illegalEncoding, commandOf, fields_commandWord]

theorem decodeCommand_wcfgCwDelay (v : BitVec 16) :
    decodeCommand (commandWord 6 2 false v) payload = .ok (.wcfgCwDelay v) := by
  simp [decodeCommand, illegalEncoding, commandOf, fields_commandWord]

theorem decodeCommand_wcfgMode (v : BitVec 16) :
    decodeCommand (commandWord 6 3 false v) payload = .ok (.wcfgMode v) := by
  simp [decodeCommand, illegalEncoding, commandOf, fields_commandWord]

theorem decodeCommand_rdstat (index : BitVec 8) :
    decodeCommand (commandWord 7 0 false (index.setWidth 16)) payload = .ok (.rdstat index) := by
  simp [decodeCommand, illegalEncoding, commandOf, fields_commandWord, index_in_immediate]

end Rows

/-! ### The rows of the opcode table -/

/-- The command words of R105, a constructor for each row, with the operands of R107. -/
inductive TableRow : Word → Prop where
  | init : TableRow (commandWord 1 0 false 0)
  | poll (txIsOn : Bool) (v : BitVec 16) : TableRow (commandWord 2 0 txIsOn v)
  | txs : TableRow (commandWord 3 0 false 0)
  | rxb (count : BitVec 16) : TableRow (commandWord 4 0 false count)
  | abort : TableRow (commandWord 5 0 false 0)
  | wcfgWpm (v : BitVec 16) : TableRow (commandWord 6 0 false v)
  | wcfgPitch (v : BitVec 16) : TableRow (commandWord 6 1 false v)
  | wcfgCwDelay (v : BitVec 16) : TableRow (commandWord 6 2 false v)
  | wcfgMode (v : BitVec 16) : TableRow (commandWord 6 3 false v)
  | rdstat (index : BitVec 8) : TableRow (commandWord 7 0 false (index.setWidth 16))

/-- The clauses of R106, each denied. -/
structure LegalFields (w : Word) : Prop where
  opcode : opField w ≠ 0 ∧ opField w < 8
  reserved : rsvField w = 0
  select : opField w ≠ 6 → selField w = 0
  configSelect : opField w = 6 → selField w < 4
  flag : opField w ≠ 2 → flagField w = false
  immediate : opField w = 1 ∨ opField w = 3 ∨ opField w = 5 → immField w = 0
  statusIndex : opField w = 7 → (immField w).extractLsb' 8 8 = 0

/-- A clause answers only where it holds; else the next one decides. -/
theorem clause_eq_none_iff {c : Prop} [Decidable c] {why : Illegal} {later : Option Illegal} :
    (if c then some why else later) = none ↔ ¬c ∧ later = none := by
  split <;> simp [*]

/-- A word without an illegal clause passes every clause of R106. -/
theorem legalFields_of_legal {w : Word} (h : illegalEncoding w = none) : LegalFields w := by
  simp only [illegalEncoding, clause_eq_none_iff, not_or, not_and, BitVec.not_le, Decidable.not_not,
    Bool.not_eq_true] at h
  obtain ⟨opcode, reserved, select, configSelect, flag, immediate, statusIndex, -⟩ := h
  exact ⟨opcode, reserved, select, configSelect, flag, immediate, statusIndex⟩

/-- A legal word is put together from its fields, `RSV` being zero. -/
theorem LegalFields.word_eq {w : Word} {op sel : BitVec 4} {f : Bool} {imm : BitVec 16} (h : LegalFields w)
    (hop : opField w = op) (hsel : selField w = sel) (hf : flagField w = f) (himm : immField w = imm) :
    commandWord op sel f imm = w := by
  subst hop hsel hf himm
  exact commandWord_fields w h.reserved

/-- The operations of legal words (R105). -/
theorem LegalFields.op_cases {w : Word} (h : LegalFields w) :
    opField w = 1 ∨ opField w = 2 ∨ opField w = 3 ∨ opField w = 4 ∨ opField w = 5 ∨ opField w = 6 ∨
      opField w = 7 := by
  have := h.opcode
  bv_omega

/-- The configuration registers a legal WCFG selects (R105). -/
theorem LegalFields.sel_cases {w : Word} (h : LegalFields w) (op : opField w = 6) :
    selField w = 0 ∨ selField w = 1 ∨ selField w = 2 ∨ selField w = 3 := by
  have := h.configSelect op
  bv_omega

/-- A legal word is in a row: `OP` and, for WCFG, `SEL` name the row, and R106 fixes every field that is no
operand of it. -/
theorem LegalFields.tableRow {w : Word} (h : LegalFields w) : TableRow w := by
  rcases h.op_cases with op | op | op | op | op | op | op
  · exact h.word_eq op (h.select (by simp [op])) (h.flag (by simp [op])) (h.immediate (.inl op)) ▸ .init
  · exact h.word_eq op (h.select (by simp [op])) rfl rfl ▸ .poll _ _
  · exact h.word_eq op (h.select (by simp [op])) (h.flag (by simp [op])) (h.immediate (.inr (.inl op))) ▸ .txs
  · exact h.word_eq op (h.select (by simp [op])) (h.flag (by simp [op])) rfl ▸ .rxb _
  · exact h.word_eq op (h.select (by simp [op])) (h.flag (by simp [op])) (h.immediate (.inr (.inr op))) ▸ .abort
  · have flag := h.flag (by simp [op])
    rcases h.sel_cases op with sel | sel | sel | sel
    · exact h.word_eq op sel flag rfl ▸ .wcfgWpm _
    · exact h.word_eq op sel flag rfl ▸ .wcfgPitch _
    · exact h.word_eq op sel flag rfl ▸ .wcfgCwDelay _
    · exact h.word_eq op sel flag rfl ▸ .wcfgMode _
  · exact h.word_eq op (h.select (by simp [op])) (h.flag (by simp [op]))
      (immediate_of_index (h.statusIndex op)).symm ▸ .rdstat _

/-- The payload words a command word takes into its command: an RXB's, and no other's (R101). -/
def carriedPayload (w : Word) (payload : List Word) : List Word := if opField w = 4 then payload else []

theorem carriedPayload_commandWord (op sel : BitVec 4) (f : Bool) (imm : BitVec 16) (payload : List Word) :
    carriedPayload (commandWord op sel f imm) payload = if op = 4 then payload else [] := by
  rw [carriedPayload, opField_commandWord]

/-- A payload of the length R101 gives is carried whole. -/
theorem carriedPayload_of_length {w : Word} {payload : List Word} (h : payload.length = payloadLength w) :
    carriedPayload w payload = payload := by
  unfold payloadLength at h
  unfold carriedPayload
  split
  · rfl
  · next notRxb =>
    rw [if_neg notRxb] at h
    exact (List.length_eq_zero_iff.mp h).symm

/-- A word of a row begins the encoding of a command. -/
theorem TableRow.encodes {w : Word} (h : TableRow w) (payload : List Word) :
    ∃ i, encode i = w :: carriedPayload w payload := by
  cases h with
  | init => exact ⟨.init, by rw [carriedPayload_commandWord]; rfl⟩
  | poll txIsOn v => exact ⟨.poll txIsOn v, by rw [carriedPayload_commandWord]; rfl⟩
  | txs => exact ⟨.txs, by rw [carriedPayload_commandWord]; rfl⟩
  | rxb count => exact ⟨.rxb count payload, by rw [carriedPayload_commandWord]; rfl⟩
  | abort => exact ⟨.abort, by rw [carriedPayload_commandWord]; rfl⟩
  | wcfgWpm v => exact ⟨.wcfgWpm v, by rw [carriedPayload_commandWord]; rfl⟩
  | wcfgPitch v => exact ⟨.wcfgPitch v, by rw [carriedPayload_commandWord]; rfl⟩
  | wcfgCwDelay v => exact ⟨.wcfgCwDelay v, by rw [carriedPayload_commandWord]; rfl⟩
  | wcfgMode v => exact ⟨.wcfgMode v, by rw [carriedPayload_commandWord]; rfl⟩
  | rdstat index => exact ⟨.rdstat index, by rw [carriedPayload_commandWord]; rfl⟩

/-- The first word of an encoding decodes, with the payload it carries, to the command. -/
theorem decodeCommand_of_encode {i : Instr} {w : Word} {payload : List Word}
    (h : encode i = w :: carriedPayload w payload) : decodeCommand w payload = .ok i := by
  cases i with
  | init =>
    obtain ⟨rfl, -⟩ := List.cons.inj h
    exact decodeCommand_init payload
  | poll txIsOn v =>
    obtain ⟨rfl, -⟩ := List.cons.inj h
    exact decodeCommand_poll payload txIsOn v
  | txs =>
    obtain ⟨rfl, -⟩ := List.cons.inj h
    exact decodeCommand_txs payload
  | rxb count samples =>
    obtain ⟨rfl, carried⟩ := List.cons.inj h
    rw [carriedPayload_commandWord, if_pos rfl] at carried
    exact carried ▸ decodeCommand_rxb samples count
  | abort =>
    obtain ⟨rfl, -⟩ := List.cons.inj h
    exact decodeCommand_abort payload
  | wcfgWpm v =>
    obtain ⟨rfl, -⟩ := List.cons.inj h
    exact decodeCommand_wcfgWpm payload v
  | wcfgPitch v =>
    obtain ⟨rfl, -⟩ := List.cons.inj h
    exact decodeCommand_wcfgPitch payload v
  | wcfgCwDelay v =>
    obtain ⟨rfl, -⟩ := List.cons.inj h
    exact decodeCommand_wcfgCwDelay payload v
  | wcfgMode v =>
    obtain ⟨rfl, -⟩ := List.cons.inj h
    exact decodeCommand_wcfgMode payload v
  | rdstat index =>
    obtain ⟨rfl, -⟩ := List.cons.inj h
    exact decodeCommand_rdstat payload index

/-- Only words of a row decode. -/
theorem tableRow_of_decodeCommand {w : Word} {payload : List Word} {i : Instr}
    (h : decodeCommand w payload = .ok i) : TableRow w := by
  unfold decodeCommand at h
  split at h
  · cases h
  · next legal => exact (legalFields_of_legal legal).tableRow

/-- The decoder inverts the encoder: a word and its payload decode to a command exactly when they are the
command's encoding. -/
theorem decodeCommand_ok_iff {w : Word} {payload : List Word} {i : Instr} :
    decodeCommand w payload = .ok i ↔ encode i = w :: carriedPayload w payload := by
  constructor
  · intro h
    obtain ⟨j, encoded⟩ := (tableRow_of_decodeCommand h).encodes payload
    cases h.symm.trans (decodeCommand_of_encode encoded)
    exact encoded
  · exact decodeCommand_of_encode

/-- The decoder accepts the words of the rows and no others, whatever the payload. -/
theorem decodeCommand_accepts_iff (w : Word) (payload : List Word) :
    (∃ i, decodeCommand w payload = .ok i) ↔ TableRow w := by
  constructor
  · rintro ⟨i, h⟩
    exact tableRow_of_decodeCommand h
  · intro row
    obtain ⟨i, encoded⟩ := row.encodes payload
    exact ⟨i, decodeCommand_of_encode encoded⟩

/-! ### Operands put into a row's match value, and the row's mask -/

/-- A word matches a row whose mask leaves out the low `k` bits exactly when it is the row's match value
with some `k` bits in that place. -/
theorem masked_eq_iff {n : Nat} (k : Nat) {w c mask : BitVec n} (hmask : mask = BitVec.allOnes n <<< k)
    (hc : c &&& mask = c) : w &&& mask = c ↔ ∃ low : BitVec k, w = c ||| low.setWidth n := by
  subst hmask
  constructor
  · intro h
    refine ⟨w.setWidth k, ?_⟩
    rw [← h]
    ext i hi
    by_cases hk : i < k
    · simp [hk, BitVec.getLsbD_eq_getElem hi]
    · simp [hk]
  · rintro ⟨low, rfl⟩
    rw [← hc]
    ext i hi
    by_cases hk : i < k
    · simp [hk]
    · simp [hk, BitVec.getLsbD_of_ge low i (Nat.le_of_not_lt hk)]

/-- A 16-bit operand put in at bits 15:0 (R107). -/
theorem or_immediate (op sel : BitVec 4) (f : Bool) (v : BitVec 16) :
    commandWord op sel f 0 ||| v.setWidth 32 = commandWord op sel f v := by
  have low : v.setWidth 32 = 0#16 ++ v := BitVec.setWidth_eq_append (by decide)
  rw [low]
  unfold commandWord
  exact BitVec.or_append.trans (congrArg₂ (· ++ ·) BitVec.or_zero BitVec.zero_or)

/-- `F` and a 16-bit operand put in at bits 16:0. -/
theorem or_flag_immediate (op sel : BitVec 4) (f : Bool) (v : BitVec 16) :
    commandWord op sel false 0 ||| (BitVec.cons f v).setWidth 32 = commandWord op sel f v := by
  have low : (BitVec.cons f v).setWidth 32 = 0#15 ++ BitVec.ofBool f ++ v := by
    rw [BitVec.setWidth_eq_append (by decide), BitVec.append_assoc]
    rfl
  rw [low]
  unfold commandWord
  exact BitVec.or_append.trans (congrArg₂ (· ++ ·)
    (BitVec.or_append.trans (congrArg₂ (· ++ ·) BitVec.or_zero BitVec.zero_or)) BitVec.zero_or)

/-- An 8-bit index put in at bits 7:0. -/
theorem or_index (op sel : BitVec 4) (index : BitVec 8) :
    commandWord op sel false 0 ||| index.setWidth 32 = commandWord op sel false (index.setWidth 16) := by
  have widened : index.setWidth 32 = (index.setWidth 16).setWidth 32 := by
    apply BitVec.eq_of_toNat_eq
    simp only [BitVec.toNat_setWidth]
    have := index.isLt
    omega
  rw [widened, or_immediate]

/-- The words of a row whose only operand is `IMM`. -/
theorem matches_immediate_iff (op sel : BitVec 4) {w : Word} :
    w &&& 0xFFFF0000#32 = commandWord op sel false 0 ↔ ∃ v, w = commandWord op sel false v := by
  have unmasked : commandWord op sel false 0 &&& 0xFFFF0000#32 = commandWord op sel false 0 :=
    (BitVec.and_append (y₁ := 0#16) (y₂ := 0#16)).trans (congrArg (· ++ 0#16) BitVec.and_allOnes)
  exact (masked_eq_iff 16 rfl unmasked).trans (by simp only [or_immediate])

/-- The words of the POLL row. -/
theorem matches_poll_iff {w : Word} :
    w &&& 0xFFFE0000#32 = 0x20000000#32 ↔ ∃ f v, w = commandWord 2 0 f v := by
  refine (masked_eq_iff 17 rfl rfl).trans ⟨?_, ?_⟩
  · rintro ⟨low, rfl⟩
    refine ⟨low.msb, low.setWidth 16, ?_⟩
    rw [← or_flag_immediate, BitVec.cons_msb_setWidth]
    rfl
  · rintro ⟨f, v, rfl⟩
    exact ⟨BitVec.cons f v, (or_flag_immediate 2 0 f v).symm⟩

/-- The words of the RDSTAT row. -/
theorem matches_rdstat_iff {w : Word} :
    w &&& 0xFFFFFF00#32 = 0x70000000#32 ↔
      ∃ index : BitVec 8, w = commandWord 7 0 false (index.setWidth 16) := by
  refine (masked_eq_iff 8 rfl rfl).trans (exists_congr fun index => ?_)
  rw [← or_index]
  rfl

/-! ### Decoding a stream of words -/

section Stream
variable {w : Word} {payload : List Word}

/-- A command word with its payload decodes to its command, whatever follows. -/
theorem decode_of_ok {i : Instr} (length : payload.length = payloadLength w)
    (h : decodeCommand w payload = .ok i) (rest : List Word) :
    decode (w :: (payload ++ rest)) = .command i (1 + payloadLength w) := by
  simp [decode, takeWords_append _ [] payload rest length, h]

/-- An illegal word with its payload is found illegal, whatever follows. -/
theorem decode_of_error {why : Illegal} (length : payload.length = payloadLength w)
    (h : decodeCommand w payload = .error why) (rest : List Word) :
    decode (w :: (payload ++ rest)) = .illegal why (1 + payloadLength w) := by
  simp [decode, takeWords_append _ [] payload rest length, h]

end Stream

/-- A stream that decodes begins with a command word and a payload of the length the word tells. -/
theorem decode_command_inv {ws : List Word} {i : Instr} {n : Nat} (h : decode ws = .command i n) :
    ∃ w payload, ws.take n = w :: payload ∧ payload.length = payloadLength w ∧
      decodeCommand w payload = .ok i := by
  cases ws with
  | nil => cases h
  | cons w ws =>
    simp only [decode] at h
    split at h
    · cases h
    next payload taken =>
    split at h
    next decoded =>
      cases h
      obtain ⟨_, rfl, length, take⟩ := takeWords_some _ _ _ _ taken
      exact ⟨w, _, by rw [Nat.add_comm, List.take_succ_cons, take], length, decoded⟩
    · cases h

/-- A command whose encoding has the length its first word tells is well formed (R101). -/
theorem wf_of_encode {i : Instr} {w : Word} {payload : List Word} (h : encode i = w :: payload)
    (length : payload.length = payloadLength w) : i.wf = true := by
  cases i with
  | rxb count samples =>
    cases h
    rw [payloadLength, opField_commandWord, immField_commandWord, if_pos rfl] at length
    simp [Instr.wf, length]
  | _ => rfl

/-- Every well-formed command is encoded by a legal word and the payload it tells (R101, R106). -/
theorem encodeLength (i : Instr) : Laws.EncodeLength.Statement i := by
  cases i with
  | init => exact Laws.EncodeLength.init
  | poll txIsOn bytes => exact Laws.EncodeLength.poll txIsOn bytes
  | txs => exact Laws.EncodeLength.txs
  | rxb count samples => exact Laws.EncodeLength.rxb count samples
  | abort => exact Laws.EncodeLength.abort
  | wcfgWpm v => exact Laws.EncodeLength.wcfgWpm v
  | wcfgPitch v => exact Laws.EncodeLength.wcfgPitch v
  | wcfgCwDelay v => exact Laws.EncodeLength.wcfgCwDelay v
  | wcfgMode v => exact Laws.EncodeLength.wcfgMode v
  | rdstat index => exact Laws.EncodeLength.rdstat index

end Sys2Proof

namespace Sys2Proof.Machine

/-- With a word at the head of the input the host has nothing to do. -/
theorem hostActions_of_word {s : State} {w : Word} {rest : List HostItem} (h : s.input = .word w :: rest) :
    hostActions s.input s = s := by
  rw [h, hostActions_word, ← h]

/-- A step that finds an illegal word with its payload at the head of the port. -/
theorem step_illegal {s : State} {why : Illegal} {n : Nat}
    (h : decode (portWords (hostActions s.input s).input) = .illegal why n) :
    step s = refuse .errIllegal (consume n (hostActions s.input s)) := by
  simp [step, fetch, h, illegalCommand]

end Sys2Proof.Machine

namespace Sys2Proof.Proofs

open Sys2Proof.Machine

/-- Settles O1: a well-formed command's payload has the length its first word tells, and the word with that
payload decodes to the command. -/
theorem decodeEncodeRoundTrip : Obligations.DecodeEncodeRoundTrip := by
  intro i rest wf
  obtain ⟨w, payload, encoded, -, length⟩ := encodeLength i wf
  have decoded : decodeCommand w payload = .ok i :=
    decodeCommand_ok_iff.mpr (by rw [carriedPayload_of_length length, encoded])
  rw [encoded, List.cons_append, decode_of_ok length decoded, List.length_cons, length, Nat.add_comm]

/-- Settles O2: the payload that was taken has the length the first word tells, so it is carried whole. -/
theorem decodedWordsAreTheCommandsEncoding : Obligations.DecodedWordsAreTheCommandsEncoding := by
  intro ws i n h
  obtain ⟨w, payload, take, length, decoded⟩ := decode_command_inv h
  have encoded := decodeCommand_ok_iff.mp decoded
  rw [carriedPayload_of_length length] at encoded
  exact ⟨wf_of_encode encoded length, take.trans encoded.symm⟩

/-- Settles O4: each word is the row's match value with the operand put in. -/
theorem operandsSitInTheirFields : Obligations.OperandsSitInTheirFields := by
  intro v index payload
  refine ⟨?_, ?_, ?_, ?_, ?_, ?_, ?_, ?_⟩
  · exact or_immediate 2 0 false v ▸ decodeCommand_poll payload false v
  · exact or_immediate 2 0 true v ▸ decodeCommand_poll payload true v
  · exact or_immediate 4 0 false v ▸ decodeCommand_rxb payload v
  · exact or_immediate 6 0 false v ▸ decodeCommand_wcfgWpm payload v
  · exact or_immediate 6 1 false v ▸ decodeCommand_wcfgPitch payload v
  · exact or_immediate 6 2 false v ▸ decodeCommand_wcfgCwDelay payload v
  · exact or_immediate 6 3 false v ▸ decodeCommand_wcfgMode payload v
  · exact or_index 7 0 index ▸ decodeCommand_rdstat payload index

/-- Settles O3: the legal words are those of `TableRow`, and each row's mask and match value describe its
words. -/
theorem legalWordsAreTheOpcodeTableRows : Obligations.LegalWordsAreTheOpcodeTableRows := by
  intro w payload
  rw [decodeCommand_accepts_iff]
  constructor
  · intro row
    cases row with
    | init => exact .inl rfl
    | poll f v => exact .inr (.inl (matches_poll_iff.mpr ⟨f, v, rfl⟩))
    | txs => exact .inr (.inr (.inl rfl))
    | rxb v => exact .inr (.inr (.inr (.inl ((matches_immediate_iff 4 0).mpr ⟨v, rfl⟩))))
    | abort => exact .inr (.inr (.inr (.inr (.inl rfl))))
    | wcfgWpm v => exact .inr (.inr (.inr (.inr (.inr (.inl ((matches_immediate_iff 6 0).mpr ⟨v, rfl⟩))))))
    | wcfgPitch v =>
      exact .inr (.inr (.inr (.inr (.inr (.inr (.inl ((matches_immediate_iff 6 1).mpr ⟨v, rfl⟩)))))))
    | wcfgCwDelay v =>
      exact .inr (.inr (.inr (.inr (.inr (.inr (.inr (.inl ((matches_immediate_iff 6 2).mpr ⟨v, rfl⟩))))))))
    | wcfgMode v =>
      exact .inr (.inr (.inr (.inr (.inr (.inr (.inr (.inr (.inl
        ((matches_immediate_iff 6 3).mpr ⟨v, rfl⟩)))))))))
    | rdstat index =>
      exact .inr (.inr (.inr (.inr (.inr (.inr (.inr (.inr (.inr
        (matches_rdstat_iff.mpr ⟨index, rfl⟩)))))))))
  · rintro (rfl | poll | rfl | rxb | rfl | wpm | pitch | cwDelay | mode | rdstat)
    · exact .init
    · obtain ⟨f, v, rfl⟩ := matches_poll_iff.mp poll
      exact .poll f v
    · exact .txs
    · obtain ⟨v, rfl⟩ := (matches_immediate_iff 4 0).mp rxb
      exact .rxb v
    · exact .abort
    · obtain ⟨v, rfl⟩ := (matches_immediate_iff 6 0).mp wpm
      exact .wcfgWpm v
    · obtain ⟨v, rfl⟩ := (matches_immediate_iff 6 1).mp pitch
      exact .wcfgPitch v
    · obtain ⟨v, rfl⟩ := (matches_immediate_iff 6 2).mp cwDelay
      exact .wcfgCwDelay v
    · obtain ⟨v, rfl⟩ := (matches_immediate_iff 6 3).mp mode
      exact .wcfgMode v
    · obtain ⟨index, rfl⟩ := matches_rdstat_iff.mp rdstat
      exact .rdstat index

/-- Settles O9: the port's words are the illegal word and its payload, which are dropped before the answer. -/
theorem illegalWordIsRefusedWithItsPayload : Obligations.IllegalWordIsRefusedWithItsPayload := by
  intro w payload rest s why illegal length input
  have taken : hostActions s.input s = s := hostActions_of_word input
  have found : decode (portWords (hostActions s.input s).input) = .illegal why (1 + payloadLength w) := by
    rw [taken, input, portWords_append]
    exact decode_of_error length illegal _
  have consumed : s.input.drop (1 + payloadLength w) = rest := by
    rw [input, ← length, Nat.add_comm]
    exact drop_words (w :: payload) rest
  rw [step_illegal found, taken, refuse_eq, consume, consumed]

/-- Settles O5: the ten words, evaluated. -/
theorem decoderReadsTheSpecsWords : Obligations.DecoderReadsTheSpecsWords :=
  ⟨rfl, rfl, rfl, rfl, rfl, rfl, rfl, rfl, rfl, rfl⟩

end Sys2Proof.Proofs
end

section
/-! PROOFS. The inverse of the two tables (40_morse_tables.md R144): a table whose keys are distinct answers
with every entry that stands in it, and the RX table holds the TX table turned round. -/

namespace Sys2Proof.Machine

/-- The converse of `tableLookup_mem`, for a table in which no key stands twice (R141). -/
theorem tableLookup_of_mem {α β : Type} [DecidableEq α] {key : α} {v : β} :
    ∀ {l : List (α × β)}, distinctKeys l = true → (key, v) ∈ l → tableLookup key l = some v
  | (k, v') :: l, distinct, mem => by
    simp only [distinctKeys, Bool.and_eq_true, Bool.not_eq_true', List.any_eq_false, beq_iff_eq] at distinct
    obtain ⟨fresh, distinct⟩ := distinct
    rcases List.mem_cons.mp mem with head | tail
    · cases head
      simp [tableLookup]
    · have other : k ≠ key := Ne.symm (fresh _ tail)
      simpa [tableLookup, other] using tableLookup_of_mem distinct tail

/-- No key of a legal configuration's RX table stands twice (R141, R143). -/
theorem distinctKeys_rxTable_of_ok {C : Config} (ok : C.ok = true) : distinctKeys C.rxTable = true := by
  simp only [Config.ok, Config.tablesOk, Bool.and_eq_true] at ok
  obtain ⟨_, ⟨_, distinct⟩, _⟩ := ok
  exact distinct

/-- The RX table inverts every entry of the TX table (R143 (a)). -/
theorem inverse_mem_rxTable {c : Byte} {code : List TxElem} (entry : (c, code) ∈ referenceTxTable) :
    (code.filterMap markOfElem, [c]) ∈ referenceRxTable :=
  List.mem_append_left _ (List.mem_append_left _ (List.mem_map_of_mem entry))

/-- A code without separators is turned into marks symbol by symbol. -/
theorem filterMap_markOfElem_length {code : List TxElem} (marks : TxElem.sep ∉ code) :
    (code.filterMap markOfElem).length = code.length := by
  rw [List.filterMap_length_eq_length]
  intro e mem
  cases e with
  | dot => rfl
  | dash => rfl
  | sep => exact absurd mem marks

/-- The reference TX table uses no separator (R142). -/
theorem referenceTxTable_sep_notMem : ∀ r ∈ referenceTxTable, TxElem.sep ∉ r.2 := by decide

end Sys2Proof.Machine

namespace Sys2Proof.Proofs

open Sys2Proof.Machine

/-- Settles O47: the TX entry stands turned round in the RX table, and that table's keys are distinct. -/
theorem txAndRxTablesRoundTrip : Obligations.TxAndRxTablesRoundTrip := by
  intro c code found
  have entry : (c, code) ∈ referenceTxTable := tableLookup_mem c code _ found
  constructor
  · exact tableLookup_of_mem (distinctKeys_rxTable_of_ok theConfig_ok) (inverse_mem_rxTable entry)
  · exact filterMap_markOfElem_length (referenceTxTable_sep_notMem _ entry)

end Sys2Proof.Proofs
end

section
/-! PROOFS. The tick of the detector (41_rx_detector.md R162): bin selection, streak, and the registers a tick
leaves. -/

namespace Sys2Proof.Machine

/-! ### SELECT (R171) -/

/-- `b` is the first index of the list that holds its maximum `m`. -/
def FirstMaximum (l : List (BitVec 64)) (b : BitVec 3) (m : BitVec 64) : Prop :=
  l[b.toNat]? = some m ∧ ∀ (j : Nat) (x : BitVec 64), l[j]? = some x → x ≤ m ∧ (j < b.toNat → x < m)

theorem firstMaximum_singleton (x : BitVec 64) : FirstMaximum [x] 0 x := by
  refine ⟨rfl, fun j y hj => ?_⟩
  obtain ⟨-, rfl⟩ : j = 0 ∧ x = y := by simpa [List.getElem?_singleton] using hj
  exact ⟨BitVec.le_refl _, fun h => absurd h (Nat.not_lt_zero j)⟩

/-- An entry of a list with one more element is an old one or the new last one. -/
theorem getElem?_snoc_cases {α : Type} {l : List α} {x y : α} {j : Nat} (h : (l ++ [x])[j]? = some y) :
    l[j]? = some y ∨ j = l.length ∧ y = x := by
  rcases Nat.lt_or_ge j l.length with old | new
  · exact .inl (List.getElem?_append_left old ▸ h)
  · rw [List.getElem?_append_right new] at h
    obtain ⟨last, rfl⟩ : j - l.length = 0 ∧ x = y := by simpa [List.getElem?_singleton] using h
    exact .inr ⟨by omega, rfl⟩

/-- A strictly larger element at the end is the new first maximum. -/
theorem FirstMaximum.snoc_of_lt {l : List (BitVec 64)} {b i : BitVec 3} {m x : BitVec 64}
    (h : FirstMaximum l b m) (hi : i.toNat = l.length) (larger : m < x) : FirstMaximum (l ++ [x]) i x := by
  obtain ⟨-, bound⟩ := h
  refine ⟨by rw [hi]; exact List.getElem?_concat_length, fun j y hj => ?_⟩
  rcases getElem?_snoc_cases hj with old | ⟨rfl, rfl⟩
  · have below : y < x := Nat.lt_of_le_of_lt (bound j y old).1 larger
    exact ⟨BitVec.le_of_lt below, fun _ => below⟩
  · exact ⟨BitVec.le_refl _, fun before => absurd before (by omega)⟩

/-- An element at the end that is not larger leaves the first maximum where it is. -/
theorem FirstMaximum.snoc_of_not_lt {l : List (BitVec 64)} {b : BitVec 3} {m x : BitVec 64}
    (h : FirstMaximum l b m) (larger : ¬m < x) : FirstMaximum (l ++ [x]) b m := by
  obtain ⟨at_b, bound⟩ := h
  have inside : b.toNat < l.length := (List.getElem?_eq_some_iff.mp at_b).1
  refine ⟨by rw [List.getElem?_append_left inside]; exact at_b, fun j y hj => ?_⟩
  rcases getElem?_snoc_cases hj with old | ⟨rfl, rfl⟩
  · exact bound j y old
  · exact ⟨BitVec.not_lt.mp larger, fun before => absurd before (by omega)⟩

/-- Selection over the bins after `p`, whose first maximum it starts from; seven bins fit the index. -/
theorem selectFrom_firstMaximum (xs : List (BitVec 64)) :
    ∀ (p : List (BitVec 64)) (i b : BitVec 3) (m : BitVec 64), i.toNat = p.length →
      p.length + xs.length ≤ 7 → FirstMaximum p b m →
      FirstMaximum (p ++ xs) (selectFrom xs i b m).1 (selectFrom xs i b m).2 := by
  induction xs with
  | nil => intro p i b m _ _ h; rwa [List.append_nil]
  | cons x xs ih =>
    intro p i b m hi fits h
    rw [List.length_cons] at fits
    have next : (i + 1).toNat = (p ++ [x]).length := by
      rw [BitVec.toNat_add, hi, List.length_append]
      exact Nat.mod_eq_of_lt (show p.length + 1 < 8 by omega)
    have fits' : (p ++ [x]).length + xs.length ≤ 7 := by rw [List.length_append, List.length_singleton]; omega
    rw [List.append_cons]
    unfold selectFrom
    split
    · next larger => exact ih _ _ _ _ next fits' (h.snoc_of_lt hi larger)
    · next larger => exact ih _ _ _ _ next fits' (h.snoc_of_not_lt larger)

/-- SELECT in any configuration. -/
theorem selectBin_firstMaximum (C : Config) (f : BinFile) (d : List Int) :
    FirstMaximum [binMag C f.b0 d, binMag C f.b1 d, binMag C f.b2 d, binMag C f.b3 d, binMag C f.b4 d]
      (selectBin C f d).1 (selectBin C f d).2 :=
  selectFrom_firstMaximum [binMag C f.b1 d, binMag C f.b2 d, binMag C f.b3 d, binMag C f.b4 d]
    [binMag C f.b0 d] 1 0 _ rfl (Nat.le_add_right 5 2) (firstMaximum_singleton _)

/-! ### The streak (R172) -/

theorem streakUpdate_frame (C : Config) (b : BitVec 3) (d : Decoder) :
    streakUpdate C b d = { d with streak := (streakUpdate C b d).streak, winBin := b } := rfl

theorem streakUpdate_streak_toNat (b : BitVec 3) (d : Decoder) :
    (streakUpdate theConfig b d).streak.toNat =
      if b = d.winBin then min (d.streak.toNat + 1) 65535 else 1 := by
  rw [streakUpdate_streak, theConfig_streakMax]
  split
  · rw [BitVec.toNat_ofNat]
    exact Nat.mod_eq_of_lt (Nat.lt_of_le_of_lt (Nat.min_le_right _ _) (by decide))
  · rfl

/-! ### The denoiser's history (42_rx_levels.md R196) -/

/-- The newest value comes in at bit 0 and the oldest of the five falls out. -/
theorem histPush_toNat (hist : BitVec 5) (sig : Bool) :
    (histPush hist sig).toNat = (2 * hist.toNat + sig.toNat) % 32 := by
  revert hist sig
  decide

/-- The majority counts the set bits of the history. -/
theorem histCount_eq_length_filter (hist : BitVec 5) :
    histCount hist = ((List.range 5).filter (fun i => hist.toNat.testBit i)).length := by
  revert hist
  decide

/-! ### What the segmenter leaves unchanged (43_rx_segment_match.md R210) -/

theorem segmentMark_frame (d : Decoder) : segmentMark d = { d with ticks := (segmentMark d).ticks } := by
  unfold segmentMark
  split <;> rfl

theorem segmentSilence_frame (d : Decoder) :
    (segmentSilence d).1 =
      { d with ticks := (segmentSilence d).1.ticks, wsFlag := (segmentSilence d).1.wsFlag } := by
  unfold segmentSilence
  split
  · dsimp only
    rw [emitWordSpace_frame]
  · rfl

/-- The segmenter writes the tick counter, the symbol buffer, the dash length and the word-space guard. -/
theorem segment_frame (C : Config) (m : BitVec 64) (d : Decoder) :
    (segment C m d).1 =
      { d with
        ticks := (segment C m d).1.ticks
        sym := (segment C m d).1.sym
        symWr := (segment C m d).1.symWr
        dashLen := (segment C m d).1.dashLen
        wsFlag := (segment C m d).1.wsFlag } := by
  rcases segment_cases C m d with
    ⟨_, edge⟩ | ⟨_, _, mark⟩ | ⟨_, _, _, _, close⟩ | ⟨_, _, _, _, wait⟩ | ⟨_, _, _, silence⟩
  · rw [edge]; rfl
  · rw [mark]; dsimp only; rw [segmentMark_frame]
  · rw [close, closeLetter_frame]
  · rw [wait]
  · rw [silence, segmentSilence_frame]

end Sys2Proof.Machine

namespace Sys2Proof.Proofs

open Sys2Proof.Machine

/-- Settles O26. -/
theorem selectIsTheLowestMaximum : Obligations.SelectIsTheLowestMaximum :=
  selectBin_firstMaximum theConfig

/-- Settles O28: no selected bin is 7 because it is one of the five. -/
theorem streakCountsConsecutiveWins : Obligations.StreakCountsConsecutiveWins := by
  intro b d
  refine ⟨streakUpdate_streak_toNat b d, streakUpdate_frame theConfig b d, fun f x seven => ?_⟩
  have five := selectBin_index theConfig f x
  rw [seven] at five
  exact absurd five (by decide)

/-- Settles O58: the segmenter, the last step, keeps every register the earlier steps wrote. -/
theorem tickRunsItsStepsInOrder : Obligations.TickRunsItsStepsInOrder := by
  intro samples d b m d1 d2 d3 t
  have ht : t = (segment theConfig m (denoise d3)).1 := rfl
  rw [segment_frame] at ht
  refine ⟨rfl, ?_⟩
  simp [ht, d3, d2, d1, histPush_toNat, histCount_eq_length_filter]

end Sys2Proof.Proofs
end

section
/-! PROOFS. RXB (41_rx_detector.md R160): the retune, and the ticks of one command run on from those of the
command before. -/

namespace Sys2Proof.Machine

open Sys2Proof.Safety

/-! ### The retune (R161) -/

/-- A bin tuned to `f` Hz at the reference parameters. -/
theorem binTuned_theConfig (f : Int) : binTuned theConfig f = referenceBinAt f := rfl

theorem binInit_theConfig (pitch : BitVec 16) :
    binInit theConfig pitch =
      ⟨referenceBinAt (pitch.toNat - 100), referenceBinAt (pitch.toNat - 50), referenceBinAt pitch.toNat,
        referenceBinAt (pitch.toNat + 50), referenceBinAt (pitch.toNat + 100)⟩ := by
  simp only [binInit, binTuned_theConfig, Int.add_zero, Int.sub_eq_add_neg, Int.reduceNeg]

/-- RETUNE writes the bins, the tuning and the dash length, each of the first and the last only on its own
register's change. -/
theorem retune_eq (C : Config) (sh : Shadow) (d : Decoder) :
    retune C sh d =
      { d with
        bins := if sh.pitch = d.pitch then d.bins else binInit C sh.pitch
        pitch := sh.pitch
        wpm := sh.wpm
        dashLen := if sh.wpm = d.wpm then d.dashLen else BitVec.ofNat 32 (initDash C sh.wpm.toNat) } := by
  unfold retune retuneWpm retunePitch
  by_cases samePitch : sh.pitch = d.pitch <;> by_cases sameWpm : sh.wpm = d.wpm <;>
    simp [samePitch, sameWpm]

theorem retune_pitch (C : Config) (sh : Shadow) (d : Decoder) : (retune C sh d).pitch = sh.pitch := by
  rw [retune_eq]

theorem retune_wpm (C : Config) (sh : Shadow) (d : Decoder) : (retune C sh d).wpm = sh.wpm := by
  rw [retune_eq]

/-- On a decoder that is tuned already RETUNE does nothing. -/
theorem retune_of_tuned (C : Config) {sh : Shadow} {d : Decoder} (pitch : d.pitch = sh.pitch)
    (wpm : d.wpm = sh.wpm) : retune C sh d = d := by
  simp [retune_eq, ← pitch, ← wpm]

/-! ### The block loop (R160) -/

theorem tickInput_pitch (C : Config) (x : List Word) (d : Decoder) : (tickInput C x d).1.pitch = d.pitch := by
  unfold tickInput tick tickWith
  rw [segment_frame]
  rfl

theorem tickInput_wpm (C : Config) (x : List Word) (d : Decoder) : (tickInput C x d).1.wpm = d.wpm := by
  unfold tickInput tick tickWith
  rw [segment_frame]
  rfl

/-- No tick touches the tuning. -/
theorem rxTicks_tuning (C : Config) (t : Nat) : ∀ (x : List Word) (d : Decoder) (es : List Event),
    (rxTicks C t x d es).1.pitch = d.pitch ∧ (rxTicks C t x d es).1.wpm = d.wpm := by
  induction t with
  | zero => exact fun _ _ _ => ⟨rfl, rfl⟩
  | succ t ih =>
    intro x d es
    obtain ⟨pitch, wpm⟩ := ih (x.drop C.tickSamples) (tickInput C (x.take C.tickSamples) d).1
      (es ++ (tickInput C (x.take C.tickSamples) d).2)
    exact ⟨pitch.trans (tickInput_pitch C _ d), wpm.trans (tickInput_wpm C _ d)⟩

/-- The text before a run of ticks stands before theirs and has no influence on them. -/
theorem rxTicks_events (C : Config) (t : Nat) : ∀ (x : List Word) (d : Decoder) (es : List Event),
    rxTicks C t x d es = ((rxTicks C t x d []).1, es ++ (rxTicks C t x d []).2) := by
  induction t with
  | zero => exact fun _ _ es => by rw [rxTicks, rxTicks, List.append_nil]
  | succ t ih =>
    intro x d es
    simp only [rxTicks, List.nil_append]
    rw [ih _ _ (es ++ _), ih _ _ (tickInput C _ d).2, List.append_assoc]

/-- The ticks of two blocks laid end to end are those of the first and then those of the second. -/
theorem rxTicks_append (C : Config) (t1 t2 : Nat) : ∀ (x1 x2 : List Word) (d : Decoder) (es : List Event),
    x1.length = t1 * C.tickSamples →
    rxTicks C (t1 + t2) (x1 ++ x2) d es =
      rxTicks C t2 x2 (rxTicks C t1 x1 d es).1 (rxTicks C t1 x1 d es).2 := by
  induction t1 with
  | zero =>
    intro x1 x2 d es length
    rw [Nat.zero_mul, List.length_eq_zero_iff] at length
    rw [length, Nat.zero_add, List.nil_append, rxTicks]
  | succ t1 ih =>
    intro x1 x2 d es length
    have enough : C.tickSamples ≤ x1.length := by rw [length, Nat.succ_mul]; exact Nat.le_add_left _ _
    have rest : (x1.drop C.tickSamples).length = t1 * C.tickSamples := by
      rw [List.length_drop, length, Nat.succ_mul, Nat.add_sub_cancel]
    rw [Nat.succ_add, rxTicks, rxTicks, List.take_append_of_le_length enough,
      List.drop_append_of_le_length enough]
    exact ih _ x2 _ _ rest

/-- An RXB's work on what an RXB of whole ticks left goes on where that one stopped (R37). -/
theorem receive_append (C : Config) (sh : Shadow) {c1 c2 : BitVec 16} {x1 : List Word} (x2 : List Word)
    (d : Decoder) (whole : c1.toNat % C.tickSamples = 0)
    (fits : c1.toNat + c2.toNat < 2 ^ 16) (length : x1.length = c1.toNat) :
    receive C sh (c1 + c2) (x1 ++ x2) d =
      ((receive C sh c2 x2 (receive C sh c1 x1 d).1).1,
        (receive C sh c1 x1 d).2 ++ (receive C sh c2 x2 (receive C sh c1 x1 d).1).2) := by
  have blocks : c1.toNat / C.tickSamples * C.tickSamples = c1.toNat :=
    Nat.div_mul_cancel (Nat.dvd_of_mod_eq_zero whole)
  have ticks : (c1 + c2).toNat / C.tickSamples = c1.toNat / C.tickSamples + c2.toNat / C.tickSamples := by
    rw [BitVec.toNat_add, Nat.mod_eq_of_lt fits, Nat.add_div_of_dvd_right (Nat.dvd_of_mod_eq_zero whole)]
  have tuned : retune C sh (receive C sh c1 x1 d).1 = (receive C sh c1 x1 d).1 := by
    obtain ⟨pitch, wpm⟩ := rxTicks_tuning C (c1.toNat / C.tickSamples) x1 (retune C sh d) []
    exact retune_of_tuned C (pitch.trans (retune_pitch C sh d)) (wpm.trans (retune_wpm C sh d))
  rw [receive, ticks, rxTicks_append C _ _ _ _ _ _ (length.trans blocks.symm), rxTicks_events,
    receive.eq_def C sh c2, tuned]
  rfl

/-! ### The command -/

/-- An accepted RXB: the decoder and the text of its ticks, and the answer. -/
theorem exec_rxb_whole {s : State} (h : s.inited = true) {count : BitVec 16} (x : List Word)
    (whole : count.toNat % 1024 = 0) :
    exec (.rxb count x) s = .next
      { s with
        dec := (receive theConfig s.sh count x s.dec).1
        events := s.events ++ (receive theConfig s.sh count x s.dec).2
        results := s.results ++ [⟨.ok, 0⟩] } := by
  rw [← theConfig_tickSamples] at whole
  exact (execRxb_inited h count x).trans (if_neg (not_not.mpr whole))

theorem exec_rxb_partial {s : State} (h : s.inited = true) {count : BitVec 16} (x : List Word)
    (part : count.toNat % 1024 ≠ 0) :
    exec (.rxb count x) s = .next { s with results := s.results ++ [⟨.errBlocksize, 0⟩] } := by
  rw [← theConfig_tickSamples] at part
  exact (execRxb_inited h count x).trans (if_pos part)

end Sys2Proof.Machine

namespace Sys2Proof.Proofs

open Sys2Proof.Machine

/-- Settles O22: the second part is the tick loop unfolded once. -/
theorem rxbRunsWholeTicksOnly : Obligations.RxbRunsWholeTicksOnly :=
  ⟨fun _ x _ inited => ⟨exec_rxb_whole inited x, exec_rxb_partial inited x⟩, fun _ _ _ _ => ⟨rfl, rfl⟩⟩

/-- Settles O23. -/
theorem retuneFollowsPitchAndWpm : Obligations.RetuneFollowsPitchAndWpm := by
  intro sh d
  rw [retune_eq, binInit_theConfig, initDash_theConfig]

/-- Settles O24: the second command finds the decoder tuned and runs the ticks that are left. -/
theorem rxbSplitsAtTickBoundaries : Obligations.RxbSplitsAtTickBoundaries := by
  intro c1 c2 x1 x2 s inited whole1 whole2 fits length
  have whole : (c1 + c2).toNat % 1024 = 0 := by
    rw [BitVec.toNat_add, Nat.mod_eq_of_lt fits]
    omega
  have joined := receive_append theConfig s.sh x2 s.dec (c1 := c1) whole1 fits length
  refine ⟨_, _, _, exec_rxb_whole inited x1 whole1, exec_rxb_whole (by exact inited) x2 whole2,
    exec_rxb_whole inited _ whole, ?_⟩
  simp only [joined, List.append_assoc]

end Sys2Proof.Proofs
end

section
/-! PROOFS. DECIMATE (41_rx_detector.md R163): the filter history is the last samples, and at the reference taps
each output is the mean of its own group. -/

namespace Sys2Proof.Machine

/-! ### The filter history (R37) -/

/-- `LPF_HIST` after a run of samples. -/
def firShifts (C : Config) (xs hist : List Word) : List Word := xs.foldl (fun h x => firShift C x h) hist

theorem firShifts_concat (C : Config) (xs : List Word) (x : Word) (hist : List Word) :
    firShifts C (xs ++ [x]) hist = firShift C x (firShifts C xs hist) := List.foldl_append

/-- The history that DECIMATE leaves, whatever the phase. -/
theorem decimateFrom_hist (C : Config) (xs : List Word) : ∀ (j : Nat) (hist : List Word) (out : List Int),
    (decimateFrom C xs j hist out).2 = firShifts C xs hist := by
  induction xs with
  | nil => exact fun _ _ _ => rfl
  | cons x xs ih =>
    intro j hist out
    unfold decimateFrom
    dsimp only
    split
    · exact ih _ _ _
    · exact ih _ _ _

/-- Behind other elements a truncated list reads as the whole one, up to the length it is truncated to. -/
theorem take_append_take {α : Type} (n : Nat) (xs ys : List α) :
    (xs ++ ys.take n).take n = (xs ++ ys).take n := by
  rw [List.take_append, List.take_append, List.take_take, Nat.min_eq_left (Nat.sub_le n _)]

theorem take_reverse_append_firShift (C : Config) (x : Word) (xs hist : List Word) :
    (xs.reverse ++ firShift C x hist).take (C.lpfTaps.length - 1) =
      ((x :: xs).reverse ++ hist).take (C.lpfTaps.length - 1) := by
  rw [firShift, take_append_take, List.reverse_cons, List.append_assoc, List.singleton_append]

/-- From a history that fits its registers: the newest of the samples and the history before them. -/
theorem firShifts_of_short (C : Config) (xs : List Word) : ∀ hist : List Word,
    hist.length ≤ C.lpfTaps.length - 1 →
    firShifts C xs hist = (xs.reverse ++ hist).take (C.lpfTaps.length - 1) := by
  induction xs with
  | nil => exact fun _ short => (List.take_of_length_le short).symm
  | cons x xs ih =>
    intro hist _
    exact (ih _ (List.length_take_le _ _)).trans (take_reverse_append_firShift C x xs hist)

/-- As many samples as the history holds fill it, and nothing of the old one is left. -/
theorem firShifts_fills (C : Config) {xs : List Word} (hist : List Word)
    (length : xs.length = C.lpfTaps.length - 1) (nonempty : xs ≠ []) : firShifts C xs hist = xs.reverse := by
  obtain ⟨y, ys, rfl⟩ := List.exists_cons_of_ne_nil nonempty
  have fits : (y :: ys).reverse.length = C.lpfTaps.length - 1 := by rw [List.length_reverse, length]
  calc firShifts C (y :: ys) hist
      = (ys.reverse ++ firShift C y hist).take (C.lpfTaps.length - 1) :=
        firShifts_of_short C ys _ (List.length_take_le _ _)
    _ = ((y :: ys).reverse ++ hist).take (C.lpfTaps.length - 1) := take_reverse_append_firShift C y ys hist
    _ = (y :: ys).reverse := by rw [← fits, List.take_left]

/-! ### The outputs -/

/-- Samples that do not fill the group give no output; they only pass into the history. -/
theorem decimateFrom_append_of_lt (C : Config) (xs ys : List Word) :
    ∀ (j : Nat) (hist : List Word) (out : List Int), j + xs.length < C.decim →
      decimateFrom C (xs ++ ys) j hist out =
        decimateFrom C ys (j + xs.length) (firShifts C xs hist) out := by
  induction xs with
  | nil => exact fun _ _ _ _ => rfl
  | cons x xs ih =>
    intro j hist out unfilled
    rw [List.length_cons, Nat.add_comm xs.length, ← Nat.add_assoc] at unfilled ⊢
    have waits : j + 1 ≠ C.decim := by omega
    rw [List.cons_append, decimateFrom, if_neg waits]
    exact ih _ _ _ unfilled

/-- With unit taps the filter adds up the samples it covers. -/
theorem firSum_replicate_one (ws : List Word) : firSum (List.replicate ws.length 1) ws = (ws.map s32).sum := by
  induction ws with
  | nil => rfl
  | cons w ws ih =>
    rw [List.length_cons, List.replicate_succ, firSum, ih, Int.one_mul, List.map_cons, List.sum_cons]

/-- At the last sample of a group of eight the filter covers exactly that group. -/
theorem firSum_theConfig_group {xs : List Word} (x : Word) (hist : List Word) (length : xs.length = 7) :
    firSum theConfig.lpfTaps (x :: firShifts theConfig xs hist) = ((xs ++ [x]).map s32).sum := by
  have covered : x :: firShifts theConfig xs hist = (xs ++ [x]).reverse := by
    rw [firShifts_fills theConfig hist length (List.ne_nil_of_length_eq_add_one length), List.reverse_append]
    rfl
  have taps : theConfig.lpfTaps = List.replicate (xs ++ [x]).reverse.length 1 := by
    rw [List.length_reverse, List.length_append, length]
    rfl
  rw [covered, taps, firSum_replicate_one, List.map_reverse, List.sum_reverse]

/-- A group of eight gives one output, the floor of its mean. -/
theorem decimateFrom_group {g : List Word} (length : g.length = 8) (ys hist : List Word) (out : List Int) :
    decimateFrom theConfig (g ++ ys) 0 hist out =
      decimateFrom theConfig ys 0 (firShifts theConfig g hist) ((g.map s32).sum / 8 :: out) := by
  obtain ⟨xs, x, rfl⟩ := (List.eq_nil_or_concat' g).resolve_left (List.ne_nil_of_length_eq_add_one length)
  have seven : xs.length = 7 := by
    rw [List.length_append, List.length_singleton] at length
    omega
  have unfilled : 0 + xs.length < theConfig.decim := by
    rw [seven]
    exact Nat.lt_succ_self 7
  have filled : 0 + xs.length + 1 = theConfig.decim := by
    rw [seven]
    rfl
  rw [List.append_assoc, decimateFrom_append_of_lt theConfig xs _ 0 hist out unfilled, List.singleton_append,
    decimateFrom, if_pos filled, firSum_theConfig_group x hist seven, firShifts_concat]
  rfl

theorem decimateFrom_groups (groups : List (List Word)) : ∀ (hist : List Word) (out : List Int),
    (∀ g ∈ groups, g.length = 8) →
    (decimateFrom theConfig groups.flatten 0 hist out).1 =
      out.reverse ++ groups.map (fun g => (g.map s32).sum / 8) := by
  induction groups with
  | nil => exact fun _ out _ => (List.append_nil _).symm
  | cons g groups ih =>
    intro hist out eight
    obtain ⟨first, rest⟩ := List.forall_mem_cons.mp eight
    rw [List.flatten_cons, decimateFrom_group first, ih _ _ rest, List.reverse_cons, List.append_assoc,
      List.singleton_append, List.map_cons]

end Sys2Proof.Machine

namespace Sys2Proof.Proofs

open Sys2Proof.Machine

/-- Settles O25. -/
theorem decimateIsTheMeanOfEachGroup : Obligations.DecimateIsTheMeanOfEachGroup := by
  intro groups hist eight
  refine ⟨decimateFrom_groups groups hist [] eight, fun seven => ?_⟩
  rw [decimate, decimateFrom_hist]
  exact firShifts_of_short theConfig groups.flatten hist (Nat.le_of_eq seven)

end Sys2Proof.Proofs
end

section
/-! PROOFS. The reference Goertzel magnitude of silence (41_rx_detector.md R168, R170): from accumulators of zero
every operation gives a zero again, or a NaN on a bin that holds no finite value (log entry 5). -/

namespace Sys2Proof.Machine

/-- A zero of either sign, or NaN. -/
inductive FVal.Vanishes : FVal → Prop
  | nan : Vanishes .nan
  | zero (neg : Bool) (exp : Int) : Vanishes (.fin neg 0 exp)

/-- The pattern's value is a zero or NaN. -/
def F64Vanishes (x : F64) : Prop := (f64Val x).Vanishes

theorem vanishes_fin_iff {neg : Bool} {mant : Nat} {exp : Int} :
    (FVal.fin neg mant exp).Vanishes ↔ mant = 0 := by
  constructor
  · intro h
    cases h
    rfl
  · rintro rfl
    exact .zero neg exp

/-- Whether a pattern vanishes stands in its exponent and its fraction. -/
theorem f64Vanishes_iff (x : F64) :
    F64Vanishes x ↔
      x.toNat / 2 ^ 52 % 2 ^ 11 = 2047 ∧ x.toNat % 2 ^ 52 ≠ 0 ∨
        x.toNat / 2 ^ 52 % 2 ^ 11 = 0 ∧ x.toNat % 2 ^ 52 = 0 := by
  unfold F64Vanishes f64Val
  dsimp only
  split
  · next top =>
    split
    · next infinite => exact ⟨nofun, fun h => by omega⟩
    · next nan => exact ⟨fun _ => .inl ⟨top, nan⟩, fun _ => .nan⟩
  · split
    · rw [vanishes_fin_iff]
      omega
    · rw [vanishes_fin_iff]
      omega

theorem f64Vanishes_zero : F64Vanishes 0#64 := .zero false (-1074)

theorem f64Vanishes_nan : F64Vanishes f64NaN := .nan

theorem roundShift_zero (sh : Nat) : roundShift 0 sh false = 0 := by
  have half : 2 ^ (sh - 1) ≠ 0 := (Nat.two_pow_pos _).ne'
  simp [roundShift, half.symm]

/-- An exact zero rounds to a zero of its sign. -/
theorem f64Round_zero (neg : Bool) (exp : Int) :
    f64Round neg 0 exp false = BitVec.ofNat 64 (ffSign binary64 neg) := by
  simp [f64Round, ffRound, roundShift_zero]

theorem f64Round_zero_vanishes (neg : Bool) (exp : Int) : F64Vanishes (f64Round neg 0 exp false) := by
  rw [f64Round_zero]
  cases neg with
  | false => exact .zero false (-1074)
  | true => exact .zero true (-1074)

/-- The sign flip keeps the exponent and the fraction. -/
theorem f64Neg_toNat_mod (x : F64) : (f64Neg x).toNat % 2 ^ 63 = x.toNat % 2 ^ 63 := by
  have low : (f64Neg x).setWidth 63 = x.setWidth 63 := by simp [f64Neg, BitVec.setWidth_xor]
  simpa using congrArg BitVec.toNat low

theorem f64Neg_vanishes {x : F64} (h : F64Vanishes x) : F64Vanishes (f64Neg x) := by
  have same := f64Neg_toNat_mod x
  have exponent : (f64Neg x).toNat / 2 ^ 52 % 2 ^ 11 = x.toNat / 2 ^ 52 % 2 ^ 11 := by omega
  have fraction : (f64Neg x).toNat % 2 ^ 52 = x.toNat % 2 ^ 52 := by omega
  rw [f64Vanishes_iff] at h ⊢
  rw [exponent, fraction]
  exact h

theorem signedMant_zero (neg : Bool) (exp lsb : Int) : signedMant neg 0 exp lsb = 0 := by
  simp [signedMant]

theorem f64Add_vanishes {a b : F64} (ha : F64Vanishes a) (hb : F64Vanishes b) : F64Vanishes (f64Add a b) := by
  unfold F64Vanishes at ha hb
  unfold f64Add
  generalize f64Val a = u at ha
  generalize f64Val b = v at hb
  cases ha with
  | nan => exact f64Vanishes_nan
  | zero s e =>
    cases hb with
    | nan => exact f64Vanishes_nan
    | zero t g =>
      simp only [signedMant_zero, Int.add_zero, if_true]
      exact f64Round_zero_vanishes _ _

theorem f64Sub_vanishes {a b : F64} (ha : F64Vanishes a) (hb : F64Vanishes b) : F64Vanishes (f64Sub a b) :=
  f64Add_vanishes ha (f64Neg_vanishes hb)

/-- A product vanishes with its right factor, whatever the left one is. -/
theorem f64Mul_vanishes_right (a : F64) {b : F64} (hb : F64Vanishes b) : F64Vanishes (f64Mul a b) := by
  unfold F64Vanishes at hb
  unfold f64Mul
  generalize f64Val b = v at hb
  generalize f64Val a = u
  cases hb with
  | nan => cases u <;> exact f64Vanishes_nan
  | zero t g =>
    cases u with
    | nan => exact f64Vanishes_nan
    | inf s => exact f64Vanishes_nan
    | fin s m e => exact f64Round_zero_vanishes _ _

theorem f64Mul_comm (a b : F64) : f64Mul a b = f64Mul b a := by
  unfold f64Mul
  cases f64Val a with
  | nan => cases f64Val b <;> rfl
  | inf s => cases f64Val b <;> simp [Bool.xor_comm]
  | fin s m e => cases f64Val b <;> simp [Bool.xor_comm, Nat.mul_comm, Int.add_comm]

theorem f64Mul_vanishes_left {a : F64} (b : F64) (ha : F64Vanishes a) : F64Vanishes (f64Mul a b) :=
  f64Mul_comm b a ▸ f64Mul_vanishes_right b ha

/-- A quotient vanishes with its dividend, whatever the divisor is. -/
theorem f64Div_vanishes {a : F64} (b : F64) (ha : F64Vanishes a) : F64Vanishes (f64Div a b) := by
  unfold F64Vanishes at ha
  unfold f64Div
  generalize f64Val a = u at ha
  cases ha with
  | nan => exact f64Vanishes_nan
  | zero s e =>
    cases f64Val b with
    | nan => exact f64Vanishes_nan
    | inf t => exact f64Round_zero_vanishes _ _
    | fin t n g =>
      dsimp only
      split
      · exact f64Vanishes_nan
      · simp only [Nat.zero_shiftLeft, Nat.zero_div, Nat.zero_mod, bne_self_eq_false]
        exact f64Round_zero_vanishes _ _

theorem f64Sqrt_vanishes {x : F64} (h : F64Vanishes x) : F64Vanishes (f64Sqrt x) := by
  have value := h
  unfold F64Vanishes at value
  unfold f64Sqrt
  generalize f64Val x = v at value
  cases value with
  | nan => exact f64Vanishes_nan
  | zero s e => exact h

theorem f64FloorNat_vanishes {x : F64} (h : F64Vanishes x) : f64FloorNat x = 0 := by
  unfold F64Vanishes at h
  unfold f64FloorNat
  generalize f64Val x = v at h
  cases h with
  | nan => rfl
  | zero s e => cases s <;> simp

/-- Zero input keeps vanishing accumulators vanishing. -/
theorem goertzelRun_silence_vanishes (coeff : F64) (k : Nat) :
    ∀ q1 q2 : F64, F64Vanishes q1 → F64Vanishes q2 →
      F64Vanishes (goertzelRun coeff (List.replicate k 0) q1 q2).1 ∧
        F64Vanishes (goertzelRun coeff (List.replicate k 0) q1 q2).2 := by
  induction k with
  | zero => exact fun _ _ h1 h2 => ⟨h1, h2⟩
  | succ k ih =>
    intro q1 q2 h1 h2
    exact ih _ _ (f64Add_vanishes (f64Sub_vanishes (f64Mul_vanishes_right coeff h1) h2) f64Vanishes_zero) h1

end Sys2Proof.Machine

namespace Sys2Proof.Proofs

open Sys2Proof.Machine

/-- Settles O27: both parts of the block's transform vanish, and so does their magnitude. -/
theorem goertzelOfSilenceIsZero : Obligations.GoertzelOfSilenceIsZero := by
  intro b k
  obtain ⟨h1, h2⟩ := goertzelRun_silence_vanishes b.coeff k 0#64 0#64 f64Vanishes_zero f64Vanishes_zero
  have re := f64Div_vanishes (f64OfInt (128 / 2 : Nat)) (f64Sub_vanishes h1 (f64Mul_vanishes_left b.cos h2))
  have im := f64Div_vanishes (f64OfInt (128 / 2 : Nat)) (f64Mul_vanishes_left b.sin h2)
  exact f64FloorNat_vanishes
    (f64Sqrt_vanishes (f64Add_vanishes (f64Mul_vanishes_left _ re) (f64Mul_vanishes_left _ im)))

end Sys2Proof.Proofs
end

section
/-! PROOFS. The level tracker, the threshold and the denoiser (42_rx_levels.md): the levels as numbers, and
the marks of a run of `SIG_STATE` values as a function of `HIST` alone. -/

namespace Sys2Proof.Machine

open Sys2Proof.Safety

/-! ### Levels (R191, R193) -/

theorem peakUpdate_toNat {C : Config} (decay : 1 ≤ C.hlDecay) (m high : BitVec 64) :
    (peakUpdate C m high).toNat = if high.toNat < m.toNat then m.toNat else levelStep C.hlDecay m high := by
  unfold peakUpdate
  simp only [BitVec.lt_def]
  split
  · rfl
  · rw [BitVec.toNat_ofNat, Nat.mod_eq_of_lt (levelStep_lt decay m high)]

theorem floorUpdate_toNat {C : Config} (decay : 1 ≤ C.nfDecay) (m high floor : BitVec 64) :
    (floorUpdate C m high floor).toNat =
      if 10 * m.toNat < 4 * high.toNat then max (levelStep C.nfDecay m floor) nfMin else floor.toNat := by
  unfold floorUpdate
  split
  · have fits : max (levelStep C.nfDecay m floor) nfMin < 2 ^ 64 :=
      Nat.max_lt.mpr ⟨levelStep_lt decay m floor, by decide⟩
    rw [BitVec.toNat_ofNat, Nat.mod_eq_of_lt fits]
  · rfl

/-- LEVEL_UPDATE writes the two levels and nothing else (R190). -/
theorem levelUpdate_frame (C : Config) (m : BitVec 64) (d : Decoder) :
    levelUpdate C m d =
      { d with highLevel := (levelUpdate C m d).highLevel, noiseFloor := (levelUpdate C m d).noiseFloor } := rfl

/-! ### The threshold (R194) -/

theorem thresholdMet_held {streak : BitVec 16} (held : 2 ≤ streak.toNat) (m high floor : BitVec 64) :
    thresholdMet m high floor streak = true ↔
      100 * (floor.toNat : Int) + 15 * ((high.toNat : Int) - floor.toNat) ≤ 100 * m.toNat := by
  rw [thresholdMet, if_pos held, decide_eq_true_iff]

theorem thresholdMet_first {streak : BitVec 16} (first : streak.toNat < 2) (m high floor : BitVec 64) :
    thresholdMet m high floor streak = true ↔
      10 * (floor.toNat : Int) + 4 * ((high.toNat : Int) - floor.toNat) ≤ 10 * m.toNat := by
  rw [thresholdMet, if_neg (Nat.not_le.mpr first), decide_eq_true_iff]

/-! ### One tick of the denoiser (R196) -/

theorem histPush_eq_ofNat (hist : BitVec 5) (sig : Bool) :
    histPush hist sig = BitVec.ofNat 5 ((2 * hist.toNat + sig.toNat) % 32) := by
  rw [← histPush_toNat, BitVec.ofNat_toNat, BitVec.setWidth_eq]

/-- The bit that falls out of the history is not among the five that are counted. -/
theorem histCount_histPush (hist : BitVec 5) (sig : Bool) :
    histCount (histPush hist sig) =
      ((List.range 5).filter (fun i => (2 * hist.toNat + sig.toNat).testBit i)).length := by
  rw [histCount_eq_length_filter, histPush_toNat]
  refine congrArg List.length (List.filter_congr fun i hi => ?_)
  rw [show 32 = 2 ^ 5 from rfl, Nat.testBit_mod_two_pow, decide_eq_true (List.mem_range.mp hi), Bool.true_and]

/-! ### A run of ticks of the denoiser -/

/-- The majorities of the history as the values come in, one by one. -/
def majorities : BitVec 5 → List Bool → List Bool
  | _, [] => []
  | hist, b :: bs => decide (3 ≤ histCount (histPush hist b)) :: majorities (histPush hist b) bs

theorem denoiseRun_eq_majorities (bs : List Bool) :
    ∀ d : Decoder, denoiseRun bs d = majorities d.hist bs := by
  induction bs with
  | nil => exact fun _ => rfl
  | cons b bs ih => exact fun d => congrArg _ (ih (denoise { d with sigState := b }))

/-- The three newest values of the history are all set. -/
def threeNewestSet (hist : BitVec 5) : Bool := hist.getLsbD 0 && hist.getLsbD 1 && hist.getLsbD 2

/-- One more signal tick behind three others is marked, and is the newest of three again. -/
theorem histPush_true_of_threeNewestSet (hist : BitVec 5) : threeNewestSet hist = true →
    threeNewestSet (histPush hist true) = true ∧ 3 ≤ histCount (histPush hist true) := by
  revert hist
  decide

/-- When a run of at least three ends, its mark goes on for two ticks. -/
theorem majorities_run_end (hist : BitVec 5) : threeNewestSet hist = true →
    majorities hist (List.replicate 5 false) = [true, true, false, false, false] := by
  revert hist
  decide

/-- Behind three signal ticks every further one is marked, and two ticks more after the last. -/
theorem majorities_of_threeNewestSet (k : Nat) : ∀ hist : BitVec 5, threeNewestSet hist = true →
    majorities hist (List.replicate k true ++ List.replicate 5 false) =
      List.replicate (k + 2) true ++ [false, false, false] := by
  induction k with
  | zero => exact majorities_run_end
  | succ k ih =>
    intro hist three
    obtain ⟨still, marked⟩ := histPush_true_of_threeNewestSet hist three
    rw [List.replicate_succ, List.cons_append, majorities, ih _ still, decide_eq_true marked]
    rfl

/-- A run of three or more from silence is marked at its own length, from its third tick on. -/
theorem majorities_long_run {len : Nat} (long : 3 ≤ len) :
    majorities 0 (List.replicate len true ++ List.replicate 5 false) =
      [false, false] ++ List.replicate len true ++ [false, false, false] := by
  obtain ⟨k, rfl⟩ := Nat.exists_eq_add_of_le' long
  calc majorities 0 (List.replicate (k + 3) true ++ List.replicate 5 false)
      = [false, false, true] ++ majorities 7 (List.replicate k true ++ List.replicate 5 false) := rfl
    _ = [false, false, true] ++ (List.replicate (k + 2) true ++ [false, false, false]) := by
        rw [majorities_of_threeNewestSet k 7 rfl]
    _ = [false, false] ++ List.replicate (k + 3) true ++ [false, false, false] := rfl

/-- Two signal ticks in silence are too few for a mark. -/
theorem majorities_short_run {len : Nat} (short : len ≤ 2) :
    majorities 0 (List.replicate len true ++ List.replicate 5 false) = List.replicate (len + 5) false := by
  interval_cases len <;> decide

/-- Two other ticks inside a mark are too few to end it. -/
theorem majorities_short_gap {len : Nat} (short : len ≤ 2) :
    majorities 31 (List.replicate len false ++ List.replicate 5 true) = List.replicate (len + 5) true := by
  interval_cases len <;> decide

end Sys2Proof.Machine

namespace Sys2Proof.Proofs

open Sys2Proof.Machine

/-- Settles O29: neither level leaves its register's 64 bits. -/
theorem levelsTrackPeakAndFloor : Obligations.LevelsTrackPeakAndFloor := by
  intro m d
  have hlDecay : 1 ≤ theConfig.hlDecay := Nat.le_add_left 1 99
  have nfDecay : 1 ≤ theConfig.nfDecay := Nat.le_add_left 1 99
  exact ⟨peakUpdate_toNat hlDecay m d.highLevel, floorUpdate_toNat nfDecay m _ d.noiseFloor,
    levelUpdate_frame theConfig m d⟩

/-- Settles O30: between the tiers the relaxed one is met and the strict one is not. -/
theorem thresholdIsTwoTiered : Obligations.ThresholdIsTwoTiered := by
  intro m high floor streak
  refine ⟨fun held => thresholdMet_held held m high floor, fun first => thresholdMet_first first m high floor,
    fun contrast relaxed strict => ?_⟩
  rcases Nat.lt_or_ge streak.toNat 2 with first | held
  · rw [thresholdMet_first first]
    omega
  · rw [thresholdMet_held held]
    omega

/-- Settles O31: the marks of a run are the majorities of the history alone. -/
theorem denoiserIsTheMajorityOfFive : Obligations.DenoiserIsTheMajorityOfFive := by
  intro d
  refine ⟨?_, fun len => ?_⟩
  · rw [← histPush_eq_ofNat, ← histCount_histPush]
    rfl
  · simp only [denoiseRun_eq_majorities]
    refine ⟨fun long silent => ?_, fun short silent => ?_, fun short marked => ?_⟩
    · rw [silent, majorities_long_run long]
    · rw [silent, majorities_short_run short]
    · rw [marked, majorities_short_gap short]

end Sys2Proof.Proofs
end

section
/-! PROOFS. The letter matcher (43_rx_segment_match.md R220-R225): one equation per class of mark, and dashes
of constant length against the dash length they adapt. -/

namespace Sys2Proof.Machine

/-! ### The marks of a letter (R220, R221) -/

theorem matchMarks_gap (C : Config) (wpm : BitVec 16) {x : RxSymbol} (gap : x.isMark = false)
    (xs : List RxSymbol) (dashLen : BitVec 32) :
    matchMarks C wpm (x :: xs) dashLen = matchMarks C wpm xs dashLen := by
  simp [matchMarks, gap]

theorem matchMarks_noise (C : Config) (wpm : BitVec 16) {x : RxSymbol} {dashLen : BitVec 32}
    (mark : x.isMark = true) (noise : 6 * x.ticks.toNat ≤ dashLen.toNat) (xs : List RxSymbol) :
    matchMarks C wpm (x :: xs) dashLen = matchMarks C wpm xs dashLen := by
  have discarded : classifyMark dashLen x.ticks = none := if_pos noise
  simp [matchMarks, mark, discarded]

theorem matchMarks_dot (C : Config) (wpm : BitVec 16) {x : RxSymbol} {dashLen : BitVec 32}
    (mark : x.isMark = true) (heard : dashLen.toNat < 6 * x.ticks.toNat)
    (short : 2 * x.ticks.toNat ≤ dashLen.toNat) (xs : List RxSymbol) :
    matchMarks C wpm (x :: xs) dashLen =
      (.dot :: (matchMarks C wpm xs dashLen).1, (matchMarks C wpm xs dashLen).2) := by
  have dot : classifyMark dashLen x.ticks = some .dot :=
    (if_neg (Nat.not_le.mpr heard)).trans (if_neg (Nat.not_lt.mpr short))
  simp [matchMarks, mark, dot]

theorem matchMarks_dash (C : Config) (wpm : BitVec 16) {x : RxSymbol} {dashLen : BitVec 32}
    (mark : x.isMark = true) (long : dashLen.toNat < 2 * x.ticks.toNat) (xs : List RxSymbol) :
    matchMarks C wpm (x :: xs) dashLen =
      (.dash :: (matchMarks C wpm xs (adaptDash C wpm dashLen x.ticks)).1,
        (matchMarks C wpm xs (adaptDash C wpm dashLen x.ticks)).2) := by
  have dash : classifyMark dashLen x.ticks = some .dash :=
    (if_neg (show ¬6 * x.ticks.toNat ≤ dashLen.toNat by omega)).trans (if_pos long)
  simp [matchMarks, mark, dash]

/-! ### Dashes of constant length (R225) -/

/-- A dash length and an observed dash in range have their mean in range too, so the step is accepted. -/
theorem adaptDash_toNat_of_inRange {C : Config} {wpm : BitVec 16} {dashLen ticks : BitVec 32}
    (old : DashInRange C wpm dashLen) (observed : DashInRange C wpm ticks) :
    (adaptDash C wpm dashLen ticks).toNat = (3 * dashLen.toNat + ticks.toNat) / 4 := by
  obtain ⟨oldLow, oldHigh⟩ := old
  obtain ⟨low, high⟩ := observed
  have accepted : adaptDash C wpm dashLen ticks = BitVec.ofNat 32 ((3 * dashLen.toNat + ticks.toNat) / 4) :=
    if_pos (by omega)
  have := dashLen.isLt
  have := ticks.isLt
  rw [accepted, BitVec.toNat_ofNat, Nat.mod_eq_of_lt (by omega)]

/-- Each dash of a constant length brings the dash length one nearer until it is within three, and three
is never exceeded again: `n` dashes make up a distance of `n + 3`. -/
theorem adaptDash_converges {C : Config} {wpm : BitVec 16} {ticks : BitVec 32}
    (observed : DashInRange C wpm ticks) (n : Nat) :
    ∀ dashLen, DashInRange C wpm dashLen → ticks.toNat ≤ dashLen.toNat + (n + 3) →
      dashLen.toNat ≤ ticks.toNat + (n + 3) →
      ticks.toNat ≤ ((List.replicate n ticks).foldl (adaptDash C wpm) dashLen).toNat + 3 ∧
        ((List.replicate n ticks).foldl (adaptDash C wpm) dashLen).toNat ≤ ticks.toNat + 3 := by
  induction n with
  | zero => exact fun _ _ below above => ⟨by simpa using below, by simpa using above⟩
  | succ n ih =>
    intro dashLen old below above
    have mean := adaptDash_toNat_of_inRange old observed
    rw [List.replicate_succ, List.foldl_cons]
    exact ih _ (adaptDash_keeps_range ticks old) (by omega) (by omega)

end Sys2Proof.Machine

namespace Sys2Proof.Proofs

open Sys2Proof.Machine

/-- Settles O59. -/
theorem letterMarksAreClassifiedInOrder : Obligations.LetterMarksAreClassifiedInOrder := by
  intro wpm x xs dashLen
  exact ⟨rfl, fun gap => matchMarks_gap theConfig wpm gap xs dashLen, fun mark =>
    ⟨fun noise => matchMarks_noise theConfig wpm mark noise xs,
      fun heard short => matchMarks_dot theConfig wpm mark heard short xs,
      fun long => matchMarks_dash theConfig wpm mark long xs⟩⟩

/-- Settles O35. -/
theorem adaptationStaysWithinAFactorOfTwo : Obligations.AdaptationStaysWithinAFactorOfTwo :=
  fun wpm marks dashLen low high => matchMarks_keeps_range theConfig wpm marks dashLen ⟨low, high⟩

/-- Settles O36: in range every step is the mean, which lies between the two lengths and moves while they
differ by four. -/
theorem adaptationConvergesOnTheSendersSpeed : Obligations.AdaptationConvergesOnTheSendersSpeed := by
  intro wpm dashLen ticks init new oldLow oldHigh
  have old : DashInRange theConfig wpm dashLen := ⟨oldLow, oldHigh⟩
  refine ⟨adaptDash_keeps_range ticks old, fun low high => ?_⟩
  have observed : DashInRange theConfig wpm ticks := ⟨low, high⟩
  have mean : new.toNat = (3 * dashLen.toNat + ticks.toNat) / 4 := adaptDash_toNat_of_inRange old observed
  exact ⟨by omega, by omega, fun n below above =>
    adaptDash_converges observed n dashLen old (by omega) (by omega)⟩

end Sys2Proof.Proofs
end

section
/-! PROOFS. The symbol segmenter (43_rx_segment_match.md R210-R216, R222): one equation per transition, and
what the end of a letter writes and outputs. -/

namespace Sys2Proof.Machine

open Sys2Proof.Safety

/-! ### The count comes first (R210) -/

/-- The decoder after the tick's count, on which every transition works. -/
def counted (d : Decoder) : Decoder := { d with ticks := d.ticks + 1 }

theorem counted_eq (d : Decoder) : { d with ticks := BitVec.ofNat 32 (d.ticks.toNat + 1) } = counted d := by
  rw [counted, BitVec.ofNat_add, BitVec.ofNat_toNat, BitVec.setWidth_eq]
  rfl

theorem counted_ticks_toNat {d : Decoder} (fits : d.ticks.toNat + 1 < 2 ^ 32) :
    (counted d).ticks.toNat = d.ticks.toNat + 1 :=
  (BitVec.toNat_add ..).trans (Nat.mod_eq_of_lt fits)

/-! ### The transitions of `(PREV_MARK, MARK)` (R210) -/

section Transitions

variable (C : Config) (m : BitVec 64) {d : Decoder}

theorem segment_edge (edge : d.prevMark ≠ d.mark) : segment C m d = (segmentEdge C m (counted d), []) := by
  rw [← counted_eq]
  rcases segment_cases C m d with
    ⟨_, h⟩ | ⟨prev, now, _⟩ | ⟨prev, now, _⟩ | ⟨prev, now, _⟩ | ⟨prev, now, _⟩
  · exact h
  all_goals exact absurd (prev.trans now.symm) edge

theorem segment_inMark (prev : d.prevMark = true) (now : d.mark = true) :
    segment C m d = (segmentMark (counted d), []) := by
  rw [← counted_eq]
  simp [segment, prev, now]

/-- Inside a space the pending mark and the count decide. -/
theorem segment_inSpace (prev : d.prevMark = false) (now : d.mark = false) :
    segment C m d =
      if hasMark d then
        if d.dashLen.toNat < 2 * (counted d).ticks.toNat then closeLetter C m (counted d) else (counted d, [])
      else segmentSilence (counted d) := by
  rw [← counted_eq]
  simp only [segment, prev, now]
  rfl

end Transitions

/-! ### The guarded word-space (R214) -/

theorem emitWordSpace_eq (d : Decoder) :
    emitWordSpace d = ({ d with wsFlag := true }, if d.wsFlag = true then [] else [wordSpace]) := by
  rcases emitWordSpace_cases d with ⟨set, h⟩ | ⟨clear, h⟩
  · rw [h, if_pos set, ← set]
  · rw [h, clear]
    rfl

theorem segmentSilence_eq (d : Decoder) :
    segmentSilence d =
      if 3 * d.dashLen.toNat < 2 * d.ticks.toNat then
        ({ d with ticks := 0, wsFlag := true }, if d.wsFlag = true then [] else [wordSpace])
      else (d, []) := by
  simp [segmentSilence, longGap, emitWordSpace_eq]

/-! ### The end of a letter (R215, R222) -/

theorem patternText_eq (s : List Mark) :
    patternText s = s.map (fun e => if e = .dot then 0x2E#8 else 0x2D#8) :=
  List.map_congr_left fun e _ => by cases e <;> rfl

theorem letterText_eq (C : Config) (s : List Mark) :
    letterText C s = (rxRom C s).getD (s.map (fun e => if e = .dot then 0x2E#8 else 0x2D#8)) := by
  rw [letterText, patternText_eq]

/-- The matcher's text clears the guard; an empty text is not output and leaves it (R222). -/
theorem matchLetter_eq (C : Config) (d : Decoder) :
    let r := matchMarks C d.wpm (d.sym.take d.symWr) d.dashLen
    matchLetter C d =
      ({ d with
          dashLen := r.2
          symWr := 0
          wsFlag := if letterText C r.1 = [] then d.wsFlag else false },
        if letterText C r.1 = [] then [] else [.con .rx (letterText C r.1)]) := by
  intro r
  unfold matchLetter
  dsimp only
  by_cases empty : letterText C r.1 = [] <;> simp [r, empty]

/-- The guarded word-space of a long gap, whether the gap is long or not. -/
theorem wordSpace_if_longGap (d : Decoder) :
    (if longGap d then emitWordSpace d else (d, [])) =
      ({ d with wsFlag := d.wsFlag || longGap d },
        if longGap d = true ∧ d.wsFlag = false then [wordSpace] else []) := by
  cases long : longGap d
  · simp
  · cases flag : d.wsFlag <;> simp [emitWordSpace_eq, flag]

/-- The whole end of a letter: the gap is pushed, the text comes out, then the word-space if the gap is long
against the adapted dash length and the text has cleared the guard or found it clear. -/
theorem closeLetter_eq (C : Config) (m : BitVec 64) (d : Decoder) :
    let sym := d.sym.set d.symWr ⟨false, m, d.ticks⟩
    let r := matchMarks C d.wpm (sym.take ((d.symWr + 1) % C.symCap)) d.dashLen
    let text := letterText C r.1
    let flag : Bool := if text = [] then d.wsFlag else false
    let long : Bool := decide (3 * r.2.toNat < 2 * d.ticks.toNat)
    closeLetter C m d =
      ({ d with ticks := 0, sym := sym, symWr := 0, dashLen := r.2, wsFlag := flag || long },
        (if text = [] then [] else [.con .rx text]) ++ if long = true ∧ flag = false then [wordSpace] else []) := by
  intro sym r text flag long
  unfold closeLetter
  rw [matchLetter_eq]
  dsimp only
  rw [wordSpace_if_longGap]
  rfl

end Sys2Proof.Machine

namespace Sys2Proof.Proofs

open Sys2Proof.Machine Sys2Proof.Safety

/-- Settles O32. -/
theorem symbolPushWrapsSilently : Obligations.SymbolPushWrapsSilently := by
  intro x d
  have wrap : (d.symWr + 1) % 100 = if d.symWr = 99 then 0 else (d.symWr + 1) % 100 := by
    split
    · next last => rw [last]
    · rfl
  unfold pushSymbol
  rw [theConfig_symCap, ← wrap]

/-- Settles O33. -/
theorem segmenterRecordsRunsAndClampsLongMarks : Obligations.SegmenterRecordsRunsAndClampsLongMarks := by
  intro m d fits
  refine ⟨fun prev now => ?_, fun edge => segment_edge theConfig m edge⟩
  rw [segment_inMark theConfig m prev now, segmentMark, counted_ticks_toNat fits]
  change (if 3 * d.dashLen.toNat < d.ticks.toNat + 1 then _ else _, []) = _
  split <;> rfl

/-- Settles O34: the letter's text is the table's entry or the pattern itself, and the rest is the two equations
of a space. -/
theorem silenceClosesLettersAndEmitsWordSpaces : Obligations.SilenceClosesLettersAndEmitsWordSpaces := by
  intro m d fits prev now
  have count := counted_ticks_toNat fits
  rw [segment_inSpace theConfig m prev now, count]
  refine ⟨fun pending => ?_, fun silent => ?_⟩
  · rw [if_pos (show hasMark d = true from pending)]
    refine ⟨fun early => if_neg (Nat.not_lt.mpr early), fun due => ?_⟩
    have closed := closeLetter_eq theConfig m (counted d)
    dsimp only at closed
    rw [count] at closed
    intro sym r text
    have spelled : letterText theConfig r.1 = text := by
      rw [letterText_eq]
      simp only [text]
      cases rxRom theConfig r.1 <;> rfl
    clear_value text
    subst spelled
    exact (if_pos due).trans closed
  · rw [if_neg (show ¬hasMark d = true from ne_true_of_eq_false silent), segmentSilence_eq, count]
    exact ⟨fun early => if_neg (Nat.not_lt.mpr early), fun due => if_pos due⟩

end Sys2Proof.Proofs
end

section
/-! PROOFS. Word-spaces never repeat (43_rx_segment_match.md R214, R222): a relation between the guard
before and after an operation and what it outputs, kept from EMIT_WS up to a whole RXB. -/

namespace Sys2Proof.Machine

open Sys2Proof.Safety

/-! ### What the guard says of the output -/

/-- The output repeats no word-space, counting the one before it if the guard `before` is set, and the guard
`after` tells again whether the last output was one. -/
structure SpaceGuarded (before after : Bool) (es : List Event) : Prop where
  separated : spacesSeparated before es
  flag : after = lastWasSpace before es

theorem SpaceGuarded.silent (flag : Bool) : SpaceGuarded flag flag [] := ⟨trivial, rfl⟩

theorem SpaceGuarded.space : SpaceGuarded false true [wordSpace] :=
  ⟨⟨fun set => absurd set Bool.false_ne_true, trivial⟩, (decide_eq_true (p := wordSpace = wordSpace) rfl).symm⟩

theorem SpaceGuarded.letter {e : Event} (letter : e ≠ wordSpace) (before : Bool) :
    SpaceGuarded before false [e] :=
  ⟨⟨fun _ => letter, trivial⟩, (decide_eq_false letter).symm⟩

theorem SpaceGuarded.append {b c : Bool} {es fs : List Event} : ∀ {a : Bool},
    SpaceGuarded a b es → SpaceGuarded b c fs → SpaceGuarded a c (es ++ fs) := by
  induction es with
  | nil =>
    intro a first second
    have same : b = a := first.flag
    rwa [same] at second
  | cons e es ih =>
    intro a first second
    obtain ⟨⟨head, tail⟩, flag⟩ := first
    obtain ⟨separated, last⟩ := ih ⟨tail, flag⟩ second
    exact ⟨⟨head, separated⟩, last⟩

/-! ### No letter is a word-space -/

/-- No entry of the table is a lone space, and a raw pattern holds only `.` and `-` (40_morse_tables.md R143,
R222). -/
theorem letterText_ne_space (s : List Mark) : letterText theConfig s ≠ [0x20#8] := by
  have entries : ∀ r ∈ theConfig.rxTable, r.2 ≠ [0x20#8] := by decide +kernel
  unfold letterText
  cases found : rxRom theConfig s with
  | some text => exact entries _ (tableLookup_mem s text _ found)
  | none =>
    intro space
    have mem : 0x20#8 ∈ patternText s := by
      rw [show patternText s = [0x20#8] from space]
      exact List.mem_singleton_self _
    obtain ⟨e, -, char⟩ := List.mem_map.mp mem
    cases e <;> simp at char

/-! ### The segmenter -/

theorem emitWordSpace_guards (d : Decoder) :
    SpaceGuarded d.wsFlag (emitWordSpace d).1.wsFlag (emitWordSpace d).2 := by
  rcases emitWordSpace_cases d with ⟨_, h⟩ | ⟨clear, h⟩ <;> rw [h]
  · exact .silent _
  · rw [clear]
    exact .space

theorem matchLetter_guards (d : Decoder) :
    SpaceGuarded d.wsFlag (matchLetter theConfig d).1.wsFlag (matchLetter theConfig d).2 := by
  rw [matchLetter_eq]
  dsimp only
  split
  · exact .silent _
  · exact .letter (fun space => letterText_ne_space _ (Event.con.inj space).2) _

theorem segmentSilence_guards (d : Decoder) :
    SpaceGuarded d.wsFlag (segmentSilence d).1.wsFlag (segmentSilence d).2 := by
  unfold segmentSilence
  split
  · exact emitWordSpace_guards d
  · exact .silent _

/-- A letter, then a word-space under the guard the letter left (R215). -/
theorem closeLetter_guards (m : BitVec 64) (d : Decoder) :
    SpaceGuarded d.wsFlag (closeLetter theConfig m d).1.wsFlag (closeLetter theConfig m d).2 := by
  have matched := matchLetter_guards (pushSymbol theConfig ⟨false, m, d.ticks⟩ d)
  unfold closeLetter
  dsimp only
  split
  · exact matched.append (emitWordSpace_guards _)
  · exact matched.append (.silent _)

theorem segment_guards (m : BitVec 64) (d : Decoder) :
    SpaceGuarded d.wsFlag (segment theConfig m d).1.wsFlag (segment theConfig m d).2 := by
  rcases segment_cases theConfig m d with
    ⟨_, edge⟩ | ⟨_, _, mark⟩ | ⟨_, _, _, _, close⟩ | ⟨_, _, _, _, wait⟩ | ⟨_, _, _, silence⟩
  · rw [edge]; exact .silent _
  · rw [mark, segmentMark_frame]; exact .silent _
  · rw [close, counted_eq]; exact closeLetter_guards m (counted d)
  · rw [wait]; exact .silent _
  · rw [silence, counted_eq]; exact segmentSilence_guards (counted d)

/-! ### The ticks of an RXB -/

/-- The steps of a tick before the segmenter neither output nor touch the guard (R162). -/
theorem tickWith_guards (b : BitVec 3) (m : BitVec 64) (d : Decoder) :
    SpaceGuarded d.wsFlag (tickWith theConfig b m d).1.wsFlag (tickWith theConfig b m d).2 := by
  let d2 := levelUpdate theConfig m { streakUpdate theConfig b d with lastMag := m }
  exact segment_guards m
    (denoise { d2 with sigState := thresholdMet m d2.highLevel d2.noiseFloor d2.streak })

theorem tickInput_guards (x : List Word) (d : Decoder) :
    SpaceGuarded d.wsFlag (tickInput theConfig x d).1.wsFlag (tickInput theConfig x d).2 :=
  tickWith_guards _ _ { d with lpfHist := (decimate theConfig x d.lpfHist).2 }

theorem rxTicks_guards (t : Nat) : ∀ (x : List Word) (d : Decoder) (es : List Event) {before : Bool},
    SpaceGuarded before d.wsFlag es →
      SpaceGuarded before (rxTicks theConfig t x d es).1.wsFlag (rxTicks theConfig t x d es).2 := by
  induction t with
  | zero => exact fun _ _ _ _ h => h
  | succ t ih => exact fun x d _ _ h => ih _ _ _ (h.append (tickInput_guards (x.take theConfig.tickSamples) d))

theorem receive_guards (sh : Shadow) (count : BitVec 16) (x : List Word) (d : Decoder) :
    SpaceGuarded d.wsFlag (receive theConfig sh count x d).1.wsFlag (receive theConfig sh count x d).2 := by
  refine rxTicks_guards _ x (retune theConfig sh d) [] ?_
  rw [retune_eq]
  exact .silent _

end Sys2Proof.Machine

namespace Sys2Proof.Proofs

open Sys2Proof.Machine

/-- Settles O37: an accepted RXB appends what its ticks output, a refused one appends nothing. -/
theorem wordSpacesNeverRepeat : Obligations.WordSpacesNeverRepeat := by
  intro count x s t h
  rcases exec_answers h with ⟨st, _, rfl⟩ | ⟨v, u, hu, rfl⟩
  · obtain ⟨separated, flag⟩ := SpaceGuarded.silent s.dec.wsFlag
    exact ⟨[], (List.append_nil _).symm, separated, flag⟩
  · cases hu with
    | rxb _ _ _ _ =>
      obtain ⟨separated, flag⟩ := receive_guards s.sh count x s.dec
      exact ⟨_, rfl, separated, flag⟩

end Sys2Proof.Proofs
end

section
/-! PROOFS. The keyer's shared parts (44_tx_keyer.md R243-R248, R255): the symbol of an invocation, the interval
each symbol starts, and what an invocation does with them. -/

namespace Sys2Proof.Machine

open Sys2Proof.Safety

/-! ### Paddles: R246 -/

theorem dotClosed_eq (key : Key) : dotClosed key = decide (key = .dot ∨ key = .squeeze) := by
  cases key <;> rfl

theorem dashClosed_eq (key : Key) : dashClosed key = decide (key = .dash ∨ key = .squeeze) := by
  cases key <;> rfl

@[simp] theorem keySymbol_eq_squeeze_iff (key : Key) : keySymbol key = .squeeze ↔ key = .squeeze := by
  cases key <;> simp [keySymbol]

/-! ### Intervals: R244, R245, R248, R255 -/

theorem startDot_eq (k : Keyer) :
    startDot k = { k with curSym := .dot, lastSym := .dot, kd := k.period, ku := k.period } := by
  rw [startDot, startInterval, BitVec.ofNat_toNat, BitVec.setWidth_eq]

theorem startDash_eq (k : Keyer) :
    startDash k =
      { k with curSym := .dash, lastSym := .dash, kd := BitVec.ofNat 32 (3 * k.period.toNat), ku := k.period } := by
  rw [startDash, startInterval, BitVec.ofNat_toNat, BitVec.setWidth_eq]

theorem startElement_eq (e : Sym) (k : Keyer) :
    startElement e k =
      if e = .dot then { k with curSym := .dot, lastSym := .dot, kd := k.period, ku := k.period }
      else if e = .dash then
        { k with curSym := .dash, lastSym := .dash, kd := BitVec.ofNat 32 (3 * k.period.toNat), ku := k.period }
      else { k with curSym := .idle } := by
  cases e with
  | dot => exact startDot_eq k
  | dash => exact startDash_eq k
  | _ => rfl

/-- A marker keys up for its target less the gap made (R255). -/
theorem startDelay_eq {e : Sym} {k : Keyer} {target gap : Nat} (ht : delayUnits e = target)
    (hg : delayUnits k.lastSym = gap) :
    startDelay e k =
      { k with curSym := e, lastSym := e, kd := 0, ku := BitVec.ofNat 32 ((target - gap) * k.period.toNat) } := by
  rw [← ht, ← hg]
  rfl

/-- The three markers and R255's `T`. -/
theorem delayUnits_of_marker :
    ∀ p ∈ [(Sym.elemDelay, 1), (Sym.charDelay, 3), (Sym.wordDelay, 7)],
      delayUnits p.1 = p.2 ∧ 0 < delayUnits p.1 := by
  decide

/-- The gap table lists R255's `G`. -/
theorem delayUnits_of_mem_gapTable : ∀ q ∈ gapTable, delayUnits q.1 = q.2 := by decide

/-! ### SYMBOL_NOW: R243 -/

/-- The key decides alone outside KEYBOARD mode. -/
theorem symbolNow_of_ne_keyboard (C : Config) (key : Key) {mode : Mode} (other : mode ≠ .keyboard) (k : Keyer)
    (txq : List Byte) : symbolNow C key mode k txq = ⟨keySymbol key, decide (key ≠ .idle), k, txq, []⟩ := by
  by_cases opened : key = .idle
  · simp [symbolNow, opened, other, keySymbol]
  · simp [symbolNow, opened]

theorem symbolNow_of_key (C : Config) {key : Key} (closed : key ≠ .idle) (mode : Mode) (k : Keyer)
    (txq : List Byte) : symbolNow C key mode k txq = ⟨keySymbol key, true, k, txq, []⟩ :=
  if_pos closed

theorem symbolFromText_inProgress (C : Config) {k : Keyer} {e : Sym} (playing : k.kbPos < k.kbLen)
    (next : k.kbSeq[k.kbPos]? = some e) (txq : List Byte) :
    symbolFromText C k txq = ⟨e, false, { k with kbPos := k.kbPos + 1 }, txq, []⟩ := by
  simp [symbolFromText, playing, next]

theorem symbolFromText_noText (C : Config) {k : Keyer} (finished : ¬k.kbPos < k.kbLen) :
    symbolFromText C k [] = ⟨.idle, false, k, [], []⟩ := if_neg finished

theorem symbolFromText_unsendable {C : Config} {k : Keyer} (finished : ¬k.kbPos < k.kbLen) {c : Byte}
    (noCode : spellByte C c = none) (rest : List Byte) :
    symbolFromText C k (c :: rest) = ⟨.idle, false, k, rest, []⟩ := by
  simp [symbolFromText, finished, noCode]

theorem symbolFromText_spelled {C : Config} {k : Keyer} (finished : ¬k.kbPos < k.kbLen) {c : Byte} {e : Sym}
    {syms : List Sym} (spelled : spellByte C c = some (e :: syms)) (rest : List Byte) :
    symbolFromText C k (c :: rest) =
      ⟨e, false, { loadSequence (e :: syms) k with kbPos := 1 }, rest, [.con .tx [c]]⟩ := by
  simp [symbolFromText, finished, spelled]

/-! ### KEYER: R240 -/

/-- An invocation outside KEYBOARD mode leaves the text alone. -/
theorem keyerStep_of_ne_keyboard (C : Config) (key : Key) {mode : Mode} (other : mode ≠ .keyboard) (idle : Bool)
    (k : Keyer) (txq : List Byte) :
    keyerStep C key mode idle k txq =
      ⟨{ modeHandler mode key idle (decide (key ≠ .idle)) (keySymbol key) k with prevIn := key }, txq, []⟩ := by
  simp only [keyerStep, symbolNow_of_ne_keyboard C key other]

theorem keyerStep_keyboard_of_key (C : Config) {key : Key} (closed : key ≠ .idle) (idle : Bool) (k : Keyer)
    (txq : List Byte) :
    keyerStep C key .keyboard idle k txq =
      ⟨{ clearNext (keyboardFromKey (keySymbol key) k) with prevIn := key }, txq, []⟩ := by
  simp only [keyerStep, symbolNow_of_key C closed]
  rfl

theorem keyerStep_keyboard_of_text {C : Config} {k k' : Keyer} {txq txq' : List Byte} {e : Sym}
    {es : List Event} (text : symbolFromText C k txq = ⟨e, false, k', txq', es⟩) (idle : Bool) :
    keyerStep C .idle .keyboard idle k txq =
      ⟨{ clearNext (keyboardFromText e k') with prevIn := .idle }, txq', es⟩ := by
  have sym : symbolNow C .idle .keyboard k txq = ⟨e, false, k', txq', es⟩ := text
  simp only [keyerStep, sym]
  rfl

end Sys2Proof.Machine
end

section
/-! PROOFS. The keying modes of key and paddles (44_tx_keyer.md R250, R251, R256-R259). -/

namespace Sys2Proof.Machine

open Sys2Proof.Safety

theorem ultimaticEdges_eq (key : Key) (k : Keyer) :
    ultimaticEdges key k =
      { k with ultLast := if dotRises key k then .dot else if dashRises key k then .dash else k.ultLast } := by
  unfold ultimaticEdges
  split
  · rfl
  · split <;> rfl

/-- Starting an element leaves an empty memory empty. -/
theorem clearNext_startElement {k : Keyer} (empty : k.nextSym = .idle) (e : Sym) :
    clearNext (startElement e k) = startElement e k := by
  have cleared : clearNext k = k := by rw [clearNext, ← empty]
  have commutes : clearNext (startElement e k) = startElement e (clearNext k) := by cases e <;> rfl
  rw [commutes, cleared]

/-- With a legal memory (R261) the iambic idle branch starts one element, the remembered one first, and forgets
the memory. -/
theorem iambicIdle_eq {k : Keyer} (memory : memoryElement k.nextSym = true) (sn : Sym) :
    iambicIdle sn k =
      clearNext (startElement
        (if k.nextSym ≠ .idle then k.nextSym else if sn = .squeeze then squeezeElement k.curSym else sn) k) := by
  cases next : k.nextSym with
  | idle => simp [iambicIdle, next, clearNext_startElement]
  | dot => simp [iambicIdle, next, startElement]
  | dash => simp [iambicIdle, next, startElement]
  | _ =>
    rw [next] at memory
    exact absurd memory Bool.false_ne_true

theorem iambicABusy_eq (key : Key) (k : Keyer) :
    iambicABusy key k =
      { k with nextSym :=
          if k.curSym = .dot ∧ dashRises key k then .dash
          else if k.curSym = .dash ∧ dotRises key k then .dot else k.nextSym } := by
  unfold iambicABusy
  split
  · rfl
  · split <;> rfl

theorem iambicBBusy_eq (key : Key) (k : Keyer) :
    iambicBBusy key k =
      { k with nextSym :=
          if k.curSym = .dot ∧ dashClosed key then .dash
          else if k.curSym = .dash ∧ dotClosed key then .dot else k.nextSym } := by
  unfold iambicBBusy
  split
  · rfl
  · split <;> rfl

end Sys2Proof.Machine

namespace Sys2Proof.Proofs

open Sys2Proof.Machine

/-- Settles O40: one case per key state. -/
theorem straightAndBugKeying : Obligations.StraightAndBugKeying := by
  intro key k txq
  rw [keyerStep_of_ne_keyboard theConfig key (by decide : Mode.straight ≠ .keyboard),
    keyerStep_of_ne_keyboard theConfig key (by decide : Mode.bug ≠ .keyboard)]
  cases key with
  | dot =>
    refine ⟨rfl, ?_⟩
    simp only [modeHandler, bugHandler, keySymbol, startDot_eq]
    rfl
  | _ => exact ⟨rfl, rfl⟩

/-- Settles O41: the edges are recorded first, and the idle keyer then starts the element or idles. -/
theorem ultimaticRepeatsTheLatestPaddle : Obligations.UltimaticRepeatsTheLatestPaddle := by
  intro key idle k txq dotPress dashPress last e
  have dotEdge : dotRises key k = dotPress := by simp [dotPress, dotRises, dotClosed_eq]
  have dashEdge : dashRises key k = dashPress := by simp [dashPress, dashRises, dashClosed_eq]
  have edges : ultimaticEdges key k = { k with ultLast := last } := by
    rw [ultimaticEdges_eq, dotEdge, dashEdge]
  rw [keyerStep_of_ne_keyboard theConfig key (by decide : Mode.ultimatic ≠ .keyboard)]
  simp only [modeHandler, ultimaticHandler, edges, keySymbol_eq_squeeze_iff]
  cases idle with
  | false => rfl
  | true =>
    change { startElement e (clearNext { k with ultLast := last }) with prevIn := key } = _
    rw [startElement_eq]
    clear_value e
    cases e <;> rfl

/-- Settles O42: both modes share the idle branch. -/
theorem iambicAlternatesWhileSqueezed : Obligations.IambicAlternatesWhileSqueezed := by
  intro mode key k txq iambic memory e
  have served : iambicIdle (keySymbol key) k = clearNext (startElement e k) := by
    simp only [iambicIdle_eq memory, keySymbol_eq_squeeze_iff]
    rfl
  have invoked : (keyerStep theConfig key mode true k txq).keyer =
      { clearNext (startElement e k) with prevIn := key } := by
    rcases iambic with rfl | rfl
    all_goals
      rw [keyerStep_of_ne_keyboard theConfig key (by decide), ← served]
      rfl
  rw [invoked, startElement_eq]
  clear_value e
  cases e <;> rfl

/-- Settles O43. -/
theorem iambicAIsEdgeAndIambicBIsLevel : Obligations.IambicAIsEdgeAndIambicBIsLevel := by
  intro key k txq
  rw [keyerStep_of_ne_keyboard theConfig key (by decide : Mode.iambicA ≠ .keyboard),
    keyerStep_of_ne_keyboard theConfig key (by decide : Mode.iambicB ≠ .keyboard)]
  constructor
  · change { iambicABusy key k with prevIn := key } = _
    simp only [iambicABusy_eq, dashRises, dotRises, Bool.and_eq_true, Bool.not_eq_true']
  · change { iambicBBusy key k with prevIn := key } = _
    rw [iambicBBusy_eq]

end Sys2Proof.Proofs
end

section
/-! PROOFS. KEYBOARD mode (44_tx_keyer.md R252, R254, R255): keying by hand, playing a spelled character,
fetching the next byte, and the silence of consecutive delay markers. -/

namespace Sys2Proof.Machine

open Sys2Proof.Safety

/-! ### Text symbols: R252 -/

theorem keyboardFromText_dot (k : Keyer) :
    keyboardFromText .dot k = { k with curSym := .dot, lastSym := .dot, kd := k.period, ku := 0 } := by
  rw [keyboardFromText, startInterval, BitVec.ofNat_toNat, BitVec.setWidth_eq]
  rfl

theorem keyboardFromText_marker {e : Sym} (marker : 0 < delayUnits e) (k : Keyer) :
    keyboardFromText e k = startDelay e k := by
  cases e with
  | elemDelay | charDelay | wordDelay => rfl
  | idle | dot | dash | squeeze | down => exact absurd marker (Nat.lt_irrefl 0)

/-! ### Spelling: R254 -/

theorem foldCase_eq (c : Byte) :
    foldCase c = if 0x61 ≤ c.toNat ∧ c.toNat ≤ 0x7A then c - 0x20#8 else c := rfl

theorem spellCode_eq_codeSymbols (code : List TxElem) : spellCode code = codeSymbols code := by
  induction code with
  | nil => rfl
  | cons e code ih => cases e <;> simp [spellCode, ih, codeSymbols]

theorem spellByte_space (C : Config) : spellByte C 0x20#8 = some [.wordDelay] := rfl

theorem spellByte_of_ne_space (C : Config) {c : Byte} (other : c ≠ 0x20#8) :
    spellByte C c = (txRom C (foldCase c)).map codeSymbols := by
  rw [spellByte, if_neg other, funext spellCode_eq_codeSymbols]

/-- A code of a legal configuration begins with an element (40_morse_tables.md R141). -/
theorem txRom_starts_with_element {C : Config} (ok : C.ok = true) {c : Byte} {code : List TxElem}
    (found : txRom C c = some code) : ∃ rest, code = .dot :: rest ∨ code = .dash :: rest := by
  simp only [Config.ok, Config.tablesOk, Bool.and_eq_true, List.all_eq_true] at ok
  obtain ⟨_, ⟨⟨⟨codes, _⟩, _⟩, _⟩, _⟩ := ok
  obtain ⟨codeOk, _⟩ := codes _ (tableLookup_mem c code C.txTable found)
  match code, codeOk with
  | .dot :: rest, _ => exact ⟨rest, .inl rfl⟩
  | .dash :: rest, _ => exact ⟨rest, .inr rfl⟩

/-! ### Delay markers: R255 -/

/-- The counters of a started marker, when its full length fits the register. -/
theorem startDelay_counts {e : Sym} {k : Keyer} (fits : delayUnits e * k.period.toNat < 2 ^ 32) :
    (startDelay e k).kd = 0 ∧
      (startDelay e k).ku.toNat = (delayUnits e - delayUnits k.lastSym) * k.period.toNat := by
  have less := Nat.mul_le_mul_right k.period.toNat (Nat.sub_le (delayUnits e) (delayUnits k.lastSym))
  exact ⟨rfl, (startInterval_counts e 0 _ k (by decide) (Nat.lt_of_le_of_lt less fits)).2⟩

theorem delayUnits_le_seven (e : Sym) : delayUnits e ≤ 7 := by
  cases e <;> decide

/-- Two markers after a symbol that made no gap: the first keys up in full, the second for what the longer one
adds. -/
theorem consecutive_markers_silence (a b : Sym) {k : Keyer} (noGap : delayUnits k.lastSym = 0)
    (fits : 7 * k.period.toNat < 2 ^ 32) :
    let k1 := startDelay a k
    let k2 := startDelay b k1
    k1.ku.toNat = delayUnits a * k.period.toNat ∧
      k1.ku.toNat + k2.ku.toNat = max (delayUnits a) (delayUnits b) * k.period.toNat ∧ k1.kd = 0 ∧ k2.kd = 0 := by
  intro k1 k2
  have bounded (e : Sym) : delayUnits e * k.period.toNat < 2 ^ 32 :=
    Nat.lt_of_le_of_lt (Nat.mul_le_mul_right _ (delayUnits_le_seven e)) fits
  obtain ⟨down1, up1⟩ := startDelay_counts (bounded a)
  obtain ⟨down2, up2⟩ := startDelay_counts (e := b) (k := k1) (bounded b)
  have first : k1.ku.toNat = delayUnits a * k.period.toNat := by rw [up1, noGap, Nat.sub_zero]
  have second : k2.ku.toNat = (delayUnits b - delayUnits a) * k.period.toNat := up2
  refine ⟨first, ?_, down1, down2⟩
  rw [first, second, ← Nat.add_mul]
  congr 1
  omega

end Sys2Proof.Machine

namespace Sys2Proof.Proofs

open Sys2Proof.Machine Sys2Proof.Safety

/-- Settles O60. -/
theorem keyboardKeysByHandAndIdlesWithoutText : Obligations.KeyboardKeysByHandAndIdlesWithoutText := by
  intro key k txq
  refine ⟨?_, ?_, ?_⟩
  · rintro (rfl | rfl)
    all_goals
      rw [keyerStep_keyboard_of_key theConfig (by decide)]
      simp only [keySymbol, keyboardFromKey, startDot_eq]
      rfl
  · rintro rfl
    rw [keyerStep_keyboard_of_key theConfig (by decide)]
    simp only [keySymbol, keyboardFromKey, startDash_eq]
    rfl
  · rintro rfl finished
    exact keyerStep_keyboard_of_text (symbolFromText_noText theConfig finished) true

/-- Settles O44. -/
theorem keyboardPlaysTheCharacterInProgress : Obligations.KeyboardPlaysTheCharacterInProgress := by
  intro k txq e playing next
  rw [keyerStep_keyboard_of_text (symbolFromText_inProgress theConfig playing next txq)]
  refine ⟨?_, ?_, ?_⟩
  · rintro rfl
    rw [keyboardFromText_dot]
    rfl
  · rintro rfl
    rfl
  · rintro p marker q gap rfl last
    obtain ⟨target, positive⟩ := delayUnits_of_marker p marker
    have made : delayUnits k.lastSym = q.2 := by rw [last, delayUnits_of_mem_gapTable q gap]
    rw [keyboardFromText_marker positive, startDelay_eq (k := { k with kbPos := k.kbPos + 1 }) target made]
    rfl

/-- Settles O45: the byte's spelling decides among the three cases, and its first symbol is played at once. -/
theorem keyboardFetchesOneByteBetweenCharacters : Obligations.KeyboardFetchesOneByteBetweenCharacters := by
  intro k c rest finished u out
  have other (ne : c ≠ 0x20#8) : spellByte theConfig c = (txRom theConfig u).map codeSymbols := by
    rw [spellByte_of_ne_space theConfig ne, foldCase_eq]
  refine ⟨?_, ?_, ?_⟩
  · rintro rfl q gap last
    have made : delayUnits k.lastSym = q.2 := by rw [last, delayUnits_of_mem_gapTable q gap]
    have text := symbolFromText_spelled finished (spellByte_space theConfig) rest
    rw [← made]
    exact keyerStep_keyboard_of_text text true
  · intro ne noCode
    exact keyerStep_keyboard_of_text
      (symbolFromText_unsendable finished (by rw [other ne, noCode]; rfl) rest) true
  · intro code ne found
    have spelled : spellByte theConfig c = some (codeSymbols code) := by rw [other ne, found]; rfl
    obtain ⟨tail, rfl | rfl⟩ := txRom_starts_with_element theConfig_ok found
    · refine ⟨.inl rfl, ?_⟩
      intro first units
      have oneUnit : units * k.period.toNat = k.period.toNat := Nat.one_mul _
      rw [oneUnit]
      exact keyerStep_keyboard_of_text (symbolFromText_spelled finished spelled rest) true
    · refine ⟨.inr rfl, ?_⟩
      exact keyerStep_keyboard_of_text (symbolFromText_spelled finished spelled rest) true

/-- Settles O46. -/
theorem delayMarkersDoNotDoubleCount : Obligations.DelayMarkersDoNotDoubleCount := by
  have element : ∀ e ∈ [Sym.idle, .dot, .dash, .squeeze, .down], delayUnits e = 0 := by decide
  intro p hp q hq k last fits
  rw [← (delayUnits_of_marker p hp).1, ← (delayUnits_of_marker q hq).1]
  exact consecutive_markers_silence p.1 q.1 (element _ last) fits

end Sys2Proof.Proofs
end

section
/-! PROOFS. TXS (45_tx_sample.md R290-R302): each part of the sample producer said once, then the whole
command, and what it takes from the host's queue. -/

namespace Sys2Proof.Machine

/-! ### Oscillator, envelope and output: R294, R296-R298 -/

theorem incOf_theConfig (f : BitVec 16) :
    incOf theConfig f = BitVec.ofNat 32 ((f.toNat * 2 ^ 32 + 48000) / 96000) := rfl

/-- A retune follows the pitch and keeps phase and envelope (R297). -/
theorem retuneOsc_eq (C : Config) (pitch : BitVec 16) (o : Osc) :
    retuneOsc C pitch o = ⟨o.phase, pitch, if o.freq = pitch then o.inc else incOf C pitch, o.envR⟩ := by
  by_cases same : o.freq = pitch
  · subst same
    simp [retuneOsc]
  · simp [retuneOsc, same]

theorem advanceEnv_eq (C : Config) (keyed : Bool) (envR : BitVec 16) :
    advanceEnv C keyed envR =
      BitVec.ofNat 16 (if keyed = true then min (envR.toNat + 1) C.envRamp else envR.toNat - 1) := by
  cases keyed <;> rfl

/-! ### Pending text, mode and deadline: R292, R300 -/

theorem pending_iff (sh : Shadow) (k : Keyer) : pending sh k = true ↔ sh.bytes ≠ 0 ∨ k.kbPos < k.kbLen := by
  simp [pending]

theorem activeMode_eq (sh : Shadow) (k : Keyer) :
    activeMode sh k = if sh.bytes ≠ 0 ∨ k.kbPos < k.kbLen then .keyboard else sh.mode := by
  simp only [activeMode, pending_iff]

/-- With no character in progress, KEYBOARD is the selected mode or the host has announced bytes. -/
theorem activeMode_keyboard {sh : Shadow} {k : Keyer} (text : activeMode sh k = .keyboard)
    (finished : ¬k.kbPos < k.kbLen) : sh.bytes ≠ 0 ∨ sh.mode = .keyboard := by
  rw [activeMode_eq] at text
  split at text
  · next waiting => exact .inl (waiting.resolve_right finished)
  · exact .inr text

theorem deadline_eq (s : State) (keyed : Bool) (k : Keyer) :
    deadline s keyed k =
      if keyed = true ∨ s.sh.bytes ≠ 0 ∨ k.kbPos < k.kbLen then s.msNow + s.sh.cwDelay.setWidth 64
      else s.txUntil := by
  simp only [deadline, Bool.or_eq_true, pending_iff]

/-! ### The keyer part: R241, R242, R291, R294 -/

theorem keyerIdle_iff (k : Keyer) : keyerIdle k = true ↔ k.kd = 0 ∧ k.ku = 0 := by
  simp [keyerIdle]

theorem keyerIdle_eq (k : Keyer) : keyerIdle k = decide (k.kd = 0 ∧ k.ku = 0) :=
  Bool.eq_iff_iff.mpr ((keyerIdle_iff k).trans decide_eq_true_iff.symm)

theorem polledContinuously_iff (mode : Mode) :
    polledContinuously mode = true ↔ mode = .iambicA ∨ mode = .iambicB ∨ mode = .ultimatic := by
  cases mode <;> decide

theorem keyerPart_eq (C : Config) (s : State) :
    let mode := activeMode s.sh s.keyer
    keyerPart C s =
      if keyerIdle s.keyer = true ∨ mode = .iambicA ∨ mode = .iambicB ∨ mode = .ultimatic then
        keyerStep C s.sh.key mode (keyerIdle s.keyer) s.keyer s.txq
      else ⟨s.keyer, s.txq, []⟩ := by
  simp only [keyerPart, Bool.or_eq_true, polledContinuously_iff]

/-- Key-down runs out first, key-up only without it (R294). -/
theorem advanceKeyer_eq (k : Keyer) :
    advanceKeyer k =
      { k with
        kd := if k.kd ≠ 0 then k.kd - 1 else k.kd
        ku := if ¬k.kd ≠ 0 ∧ k.ku ≠ 0 then k.ku - 1 else k.ku } := by
  unfold advanceKeyer
  split
  · next down => rw [if_neg fun up => up.1 down]
  · next up =>
    split
    · next running => rw [if_pos ⟨up, running⟩]
    · next finished => rw [if_neg fun running => finished running.2]

/-! ### The host's queue: R243, R293 -/

/-- An invocation of KEYER takes at most the queue's head byte with at most its echo, and only in KEYBOARD
mode with the key open and no character in progress. -/
theorem keyerStep_queue (C : Config) (key : Key) (mode : Mode) (idle : Bool) (k : Keyer) (txq : List Byte) :
    let out := keyerStep C key mode idle k txq
    (out.txq = txq ∧ out.events = []) ∨
      ∃ c, txq = c :: out.txq ∧ (out.events = [] ∨ out.events = [.con .tx [c]]) ∧
        key = .idle ∧ mode = .keyboard ∧ ¬k.kbPos < k.kbLen := by
  obtain ⟨_, ⟨kept, silent, _, _⟩ | ⟨c, taken, opened, text, finished, outcome⟩⟩ :=
    symbolNow_cases C key mode k txq
  · exact .inl ⟨kept, silent⟩
  · refine .inr ⟨c, taken, ?_, opened, text, finished⟩
    obtain ⟨silent, _⟩ | ⟨_, _, echo, _⟩ := outcome
    · exact .inl silent
    · exact .inr echo

/-- KEYBOARD is no paddle mode, so the keyer part fetches a byte only when fully idle. -/
theorem keyerPart_queue (C : Config) (s : State) :
    let out := keyerPart C s
    (out.txq = s.txq ∧ out.events = []) ∨
      ∃ c, s.txq = c :: out.txq ∧ (out.events = [] ∨ out.events = [.con .tx [c]]) ∧
        keyerIdle s.keyer = true ∧ s.sh.key = .idle ∧ activeMode s.sh s.keyer = .keyboard ∧
        ¬s.keyer.kbPos < s.keyer.kbLen := by
  rw [keyerPart_eq]
  split
  · next runs =>
    obtain kept | ⟨c, taken, echo, opened, text, finished⟩ := keyerStep_queue C s.sh.key
      (activeMode s.sh s.keyer) (keyerIdle s.keyer) s.keyer s.txq
    · exact .inl kept
    · have idle : keyerIdle s.keyer = true := by simpa [text] using runs
      exact .inr ⟨c, taken, echo, idle, opened, text, finished⟩
  · exact .inl ⟨rfl, rfl⟩

end Sys2Proof.Machine

namespace Sys2Proof.Proofs

open Sys2Proof.Machine

/-- Settles O39: the equations of TXS's parts, put together; the countdowns leave the playback position, so
text pending after them is text pending after the keyer. -/
theorem txsProducesOneSample : Obligations.TxsProducesOneSample := by
  intro s inited inc mode idle out keyed envR
  have osc : retuneOsc theConfig s.sh.pitch s.osc = ⟨s.osc.phase, s.sh.pitch, inc, s.osc.envR⟩ := by
    rw [retuneOsc_eq, incOf_theConfig]
  have part : keyerPart theConfig s = out := by rw [keyerPart_eq, activeMode_eq, keyerIdle_eq]
  have positive (x : BitVec 32) : x ≠ 0 ↔ 0 < x.toNat := by bv_omega
  have ramp : advanceEnv theConfig (out.keyer.kd ≠ 0) s.osc.envR = envR := by
    simp only [advanceEnv_eq, decide_eq_true_iff, positive]
    rfl
  calc exec .txs s = accept (txValue theConfig s) (txState theConfig s) := execTxs_inited inited
    _ = _ := by
      rw [txValue, txState, part, osc, ramp]
      simp only [advanceKeyer_eq, deadline_eq, decide_eq_true_iff, positive]
      rfl

/-- Settles O48: a refused TXS takes nothing, an accepted one what its keyer part takes. -/
theorem txsPopsAtMostOneByte : Obligations.TxsPopsAtMostOneByte := by
  intro s t h
  obtain ⟨_, _, rfl⟩ | ⟨_, _, ⟨⟩, rfl⟩ := exec_answers h
  · exact .inl ⟨rfl, rfl⟩
  · simp only [respond_txq, respond_events, txState_txq, txState_events]
    obtain ⟨kept, silent⟩ | ⟨c, taken, echo, idle, opened, text, finished⟩ := keyerPart_queue theConfig s
    · exact .inl ⟨kept, by rw [silent, List.append_nil]⟩
    · obtain ⟨noDown, noUp⟩ := (keyerIdle_iff s.keyer).mp idle
      refine .inr ⟨c, taken, ?_, noDown, noUp, opened, finished, activeMode_keyboard text finished⟩
      exact echo.imp (fun silent => by simp [silent]) fun echoed => by simp [echoed]

end Sys2Proof.Proofs
end

section
/-! PROOFS. The control commands INIT, POLL, WCFG, RDSTAT and ABORT (46_control.md R320-R328), an equation for
each branch of their meanings, and the step that runs the command on the port. -/

namespace Sys2Proof.Machine

open Sys2Proof.Safety

variable {s : State}

/-! ### The step: R320 -/

/-- A step that finds a whole command on the port. -/
theorem step_command {i : Instr} {n : Nat}
    (h : decode (portWords (hostActions s.input s).input) = .command i n) :
    step s = exec i (consume n (hostActions s.input s)) := by
  simp [step, fetch, h]

/-! ### INIT: R321 -/

theorem execInit_written (h : s.cfg.written = 0xF#4) : execInit s = accept 0 (initState theConfig s) :=
  if_neg (not_not.mpr h)

theorem execInit_unwritten (h : s.cfg.written ≠ 0xF#4) : execInit s = refuse .errUnwritten s := if_pos h

theorem periodOf_theConfig (w : Nat) : periodOf theConfig w = BitVec.ofNat 32 (576000 / (5 * w)) := rfl

/-! ### POLL: R322, R324 -/

theorem execPoll_inited (h : s.inited = true) (txOn : Bool) (bytes : BitVec 16) :
    execPoll txOn bytes s = accept 0 (pttDecide txOn (pollLatch theConfig bytes s)) := if_neg (by simp [h])

/-- The latch follows the settings, and `PERIOD` only a change of the WPM setting (R322). -/
theorem pollLatch_eq (C : Config) (bytes : BitVec 16) (s : State) :
    pollLatch C bytes s =
      { s with
        sh := ⟨s.cfg.wpm, s.cfg.pitch, s.cfg.cwDelay, s.cfg.mode, s.keyIn, bytes⟩
        keyer :=
          { s.keyer with
            period := if s.cfg.wpm = s.sh.wpm then s.keyer.period else periodOf C s.cfg.wpm.toNat } } := by
  by_cases same : s.cfg.wpm = s.sh.wpm
  · simp [pollLatch, same]
  · simp [pollLatch, same]

/-- PTT on is asked for while receiving only, PTT off while transmitting only (R324). -/
theorem pttDecide_eq (txOn : Bool) (s : State) :
    pttDecide txOn s =
      { s with
        txUntil :=
          if txOn = false ∧ (s.sh.key ≠ .idle ∨ s.sh.bytes ≠ 0) then s.msNow + s.sh.cwDelay.setWidth 64
          else s.txUntil
        events :=
          s.events ++
            (if txOn = false then (if s.sh.key ≠ .idle ∨ s.sh.bytes ≠ 0 then [.pttOn] else [])
              else if s.txUntil < s.msNow then [.pttOff] else []) } := by
  cases txOn with
  | false =>
    by_cases active : s.sh.key ≠ .idle ∨ s.sh.bytes ≠ 0
    · simp only [pttDecide, active, and_self, if_true, emit_eq]
    · simp only [pttDecide, active, and_false, Bool.false_eq_true, false_and, if_true, if_false, List.append_nil]
  | true =>
    by_cases passed : s.txUntil < s.msNow
    · simp only [pttDecide, passed, Bool.true_eq_false, false_and, and_self, if_true, if_false, emit_eq]
    · simp only [pttDecide, passed, Bool.true_eq_false, false_and, and_false, if_false, List.append_nil]

/-! ### WCFG: R326 -/

theorem execWcfgWpm_nonzero {v : BitVec 16} (h : v ≠ 0) :
    execWcfgWpm v s = accept 0 (writeConfig 0 { s.cfg with wpm := v } s) := if_neg h

theorem execWcfgWpm_zero : execWcfgWpm 0 s = refuse .errRange s := if_pos rfl

theorem execWcfgMode_named {v : BitVec 16} {m : Mode} (h : modeOfValue v = some m) :
    execWcfgMode v s = accept 0 (writeConfig 3 { s.cfg with mode := m } s) := by
  simp only [execWcfgMode, h]

theorem execWcfgMode_reserved {v : BitVec 16} (h : modeOfValue v = none) :
    execWcfgMode v s = refuse .errRange s := by
  simp only [execWcfgMode, h]

/-- MODE values above 5 name no mode (30_encoding.md R104). -/
theorem modeOfValue_eq_none {v : BitVec 16} (h : 5 < v.toNat) : modeOfValue v = none := by
  unfold modeOfValue
  split
  case h_7 => rfl
  all_goals omega

/-! ### RDSTAT's map: R327 -/

theorem symCode_setWidth (e : Sym) : (symCode e).setWidth 32 = BitVec.ofNat 32 (symNumber e) := by
  cases e <;> rfl

theorem keyCode_setWidth (k : Key) : (keyCode k).setWidth 32 = BitVec.ofNat 32 (keyNumber k) := by
  cases k <;> rfl

theorem modeCode_setWidth (m : Mode) : (modeCode m).setWidth 32 = BitVec.ofNat 32 (modeNumber m) := by
  cases m <;> rfl

/-- The value of a concatenation, its right part the low digit in base `2 ^ n`. -/
theorem append_toNat {m n : Nat} (x : BitVec m) (y : BitVec n) :
    (x ++ y).toNat = 2 ^ n * x.toNat + y.toNat := by
  rw [BitVec.toNat_append, ← Nat.shiftLeft_add_eq_or_of_lt y.isLt, Nat.shiftLeft_eq, Nat.mul_comm]

theorem decFlags_eq (d : Decoder) :
    decFlags d = BitVec.ofNat 32 (d.sigState.toNat + 2 * d.mark.toNat + 4 * d.prevMark.toNat +
      8 * d.wsFlag.toNat + 16 * d.hist.toNat) := by
  rw [decFlags, ← BitVec.ofNat_toNat]
  simp only [append_toNat, BitVec.toNat_ofBool]
  congr 1
  ring

theorem configStatus_eq (s : State) :
    configStatus s = BitVec.ofNat 32 (s.cfg.written.toNat + 16 * s.inited.toNat) := by
  rw [configStatus, ← BitVec.ofNat_toNat, append_toNat, BitVec.toNat_ofBool, Nat.add_comm]
  rfl

/-- Every register of the map below 0x30 is read at its index (R327). -/
theorem statusValue_of_mem_statusMap (s : State) :
    ∀ p ∈ statusMap s, statusValue s p.1 = some (BitVec.ofNat 32 p.2) := by
  have lowHalf (x : BitVec 64) : x.extractLsb' 0 32 = BitVec.ofNat 32 (x.toNat % 2 ^ 32) :=
    BitVec.eq_of_toNat_eq (by simp)
  have highHalf (x : BitVec 64) : x.extractLsb' 32 32 = BitVec.ofNat 32 (x.toNat / 2 ^ 32) := by
    rw [BitVec.extractLsb', Nat.shiftRight_eq_div_pow]
  simp only [statusMap, List.forall_mem_cons]
  simp [statusValue, symCode_setWidth, keyCode_setWidth, modeCode_setWidth, decFlags_eq, sat32, lowHalf, highHalf]

theorem statusValue_unmapped {index : BitVec 8}
    (h : 0x0B ≤ index.toNat ∧ index.toNat ≤ 0x0F ∨ 0x1E ≤ index.toNat ∧ index.toNat ≤ 0x1F ∨
      0x28 ≤ index.toNat ∧ index.toNat ≤ 0x2F ∨ 0x35 ≤ index.toNat) : statusValue s index = none := by
  unfold statusValue
  split
  case h_39 => rfl
  all_goals omega

/-- The four configuration registers in the order of their indices and of their bits in `CFG_W`. -/
theorem statusValue_config (s : State) (i : Fin 4) :
    statusValue s (BitVec.ofNat 8 (0x30 + i)) =
      some (BitVec.ofNat 32 ([s.cfg.wpm.toNat, s.cfg.pitch.toNat, s.cfg.cwDelay.toNat,
        modeNumber s.cfg.mode][i])) :=
  match i with
  | 0 => congrArg some (BitVec.ofNat_toNat 32 s.cfg.wpm).symm
  | 1 => congrArg some (BitVec.ofNat_toNat 32 s.cfg.pitch).symm
  | 2 => congrArg some (BitVec.ofNat_toNat 32 s.cfg.cwDelay).symm
  | 3 => congrArg some (modeCode_setWidth s.cfg.mode)

/-! ### RDSTAT's checks: R327, 60_exceptions.md R363 -/

theorem unwrittenIndex_low {index : BitVec 8} (low : index.toNat < 0x30) : unwrittenIndex s index = false := by
  simp [unwrittenIndex, Nat.not_le.mpr low]

theorem configIndex_toNat (i : Fin 4) : (BitVec.ofNat 8 (0x30 + i)).toNat = 0x30 + i := by
  rw [BitVec.toNat_ofNat]
  omega

theorem unwrittenIndex_config (s : State) (i : Fin 4) :
    unwrittenIndex s (BitVec.ofNat 8 (0x30 + i)) = !s.cfg.written.getLsbD i := by
  have inRange : 0x30 + (i : Nat) ≤ 0x33 := by omega
  simp only [unwrittenIndex, configIndex_toNat, Nat.le_add_right, inRange, decide_true, Bool.true_and,
    Nat.add_sub_cancel_left]

variable {index : BitVec 8} {v : Word}

theorem execRdstat_unmapped (h : statusValue s index = none) : execRdstat index s = refuse .errRange s := by
  simp only [execRdstat, h]

/-- A mapped index passes or fails the INITED check and then the check of its written bit. -/
theorem execRdstat_mapped (mapped : statusValue s index = some v) :
    execRdstat index s =
      if index.toNat < 0x30 ∧ s.inited = false then refuse .errNotInit s
      else if unwrittenIndex s index then refuse .errUnwritten s
      else accept v s := by
  simp only [execRdstat, mapped]

theorem execRdstat_low (inited : s.inited = true) (mapped : statusValue s index = some v)
    (low : index.toNat < 0x30) : execRdstat index s = accept v s := by
  simp [execRdstat_mapped mapped, inited, unwrittenIndex_low low]

/-- From 0x30 on the written bit decides, before INIT too. -/
theorem execRdstat_high (mapped : statusValue s index = some v) (high : 0x30 ≤ index.toNat) :
    execRdstat index s = if unwrittenIndex s index then refuse .errUnwritten s else accept v s := by
  rw [execRdstat_mapped mapped, if_neg fun low => Nat.not_lt.mpr high low.1]

/-! ### ABORT: R328 -/

theorem execAbort_inited (h : s.inited = true) : execAbort s = accept 0 s := if_neg (by simp [h])

end Sys2Proof.Machine

namespace Sys2Proof.Proofs

open Sys2Proof.Machine Sys2Proof.Safety

/-- Settles O14: the reference values in the equations of INIT's parts. -/
theorem initGivesEveryRegisterItsValue : Obligations.InitGivesEveryRegisterItsValue := by
  intro s
  constructor
  · intro written
    calc exec .init s = accept 0 (initState theConfig s) := execInit_written written
      _ = _ := by
        rw [accept_eq, initState, decoderInit, keyerInit, binInit_theConfig, initDash_theConfig,
          periodOf_theConfig, incOf_theConfig]
        rfl
  · exact execInit_unwritten

/-- Settles O15: the PTT decision reads the key, the count and the delay that the latch has just taken. -/
theorem pollLatchesAndDecidesPtt : Obligations.PollLatchesAndDecidesPtt := by
  intro txOn bytes s inited
  calc exec (.poll txOn bytes) s = accept 0 (pttDecide txOn (pollLatch theConfig bytes s)) :=
        execPoll_inited inited txOn bytes
    _ = _ := by rw [accept_eq, pttDecide_eq, pollLatch_eq, periodOf_theConfig]

/-- Settles O18: below 0x30 the only checks are the map and `INITED`. -/
theorem rdstatReadsTheStatusMap : Obligations.RdstatReadsTheStatusMap := by
  intro s inited p mem
  obtain ⟨-, low⟩ := statusMap_mapped s p mem
  exact execRdstat_low inited (statusValue_of_mem_statusMap s p mem) low

/-- Settles O7: the fetch is the decoder on the port's words. -/
theorem stepRunsTheDecodedCommand : Obligations.StepRunsTheDecodedCommand := by
  rintro s _ i n rfl decoded
  exact step_command decoded

/-- Settles O16: PITCH and CW_DELAY have no check, WPM must not be 0, and the six values name the modes. -/
theorem wcfgWritesOneRegisterAndItsBit : Obligations.WcfgWritesOneRegisterAndItsBit := by
  intro v s
  refine ⟨execWcfgWpm_nonzero, rfl, rfl, fun p mem => ?_⟩
  have named : ∀ q ∈ [(0#16, Mode.straight), (1#16, .bug), (2#16, .ultimatic), (3#16, .iambicA),
      (4#16, .iambicB), (5#16, .keyboard)], modeOfValue q.1 = some q.2 := by decide
  exact execWcfgMode_named (named p mem)

/-- Settles O17: the two checks of WCFG. -/
theorem wcfgRefusesIllegalValues : Obligations.WcfgRefusesIllegalValues :=
  fun _ _ => ⟨execWcfgWpm_zero, fun above => execWcfgMode_reserved (modeOfValue_eq_none above)⟩

/-- Settles O19: 0x30 to 0x33 are decided by their bit of `CFG_W`, and 0x34 has none. -/
theorem rdstatReadsConfigurationWhenWritten : Obligations.RdstatReadsConfigurationWhenWritten := by
  intro s i
  have config := execRdstat_high (statusValue_config s i)
    ((configIndex_toNat i).symm ▸ Nat.le_add_right 0x30 i)
  rw [unwrittenIndex_config] at config
  refine ⟨fun written => ?_, fun unwritten => ?_, ?_⟩
  · rw [written] at config
    exact config
  · rw [unwritten] at config
    exact config
  · have status : statusValue s 0x34 = some _ := congrArg some (configStatus_eq s)
    exact execRdstat_high status (by decide)

/-- Settles O20: the map is looked up before `INITED`. -/
theorem rdstatOutsideTheMapIsRangeError : Obligations.RdstatOutsideTheMapIsRangeError :=
  fun _ _ outside => execRdstat_unmapped (statusValue_unmapped outside)

/-- Settles O21: ABORT has the `INITED` check and no effect. -/
theorem abortIsANoOp : Obligations.AbortIsANoOp :=
  ⟨rfl, fun _ => ⟨execAbort_inited, execAbort_not_inited⟩⟩

end Sys2Proof.Proofs
end

section
/-! PROOFS. The exceptions chapter (60_exceptions.md): every command and step answers a next state, a refusal
changes nothing, each group of registers has its writers, and the host's actions come before the command. -/

namespace Sys2Proof.Machine

open Sys2Proof.Safety

variable {C : Config} {i : Instr} {v : Word} {s u : State}

/-! ### No trap: R360 -/

theorem completes_refuse (st : Status) (s : State) : Completes (refuse st s) := ⟨_, rfl⟩

theorem completes_accept (v : Word) (s : State) : Completes (accept v s) := ⟨_, rfl⟩

/-- A check completes when both its outcomes do. -/
theorem completes_ite {p : Prop} [Decidable p] {a b : Host.Outcome State Fault Refusal} (ha : Completes a)
    (hb : Completes b) : Completes (if p then a else b) := by
  split
  · exact ha
  · exact hb

/-- A command with a single check. -/
theorem completes_checked {p : Prop} [Decidable p] (st : Status) (s : State) (v : Word) (u : State) :
    Completes (if p then refuse st s else accept v u) :=
  completes_ite (completes_refuse st s) (completes_accept v u)

theorem execRxb_completes (count : BitVec 16) (x : List Word) (s : State) : Completes (execRxb count x s) :=
  completes_ite (completes_refuse _ s) (completes_checked _ s _ _)

theorem execWcfgMode_completes (v : BitVec 16) (s : State) : Completes (execWcfgMode v s) := by
  cases named : modeOfValue v with
  | none => exact execWcfgMode_reserved named ▸ completes_refuse _ s
  | some m => exact execWcfgMode_named named ▸ completes_accept _ _

theorem execRdstat_completes (index : BitVec 8) (s : State) : Completes (execRdstat index s) := by
  cases mapped : statusValue s index with
  | none => exact execRdstat_unmapped mapped ▸ completes_refuse _ s
  | some v =>
    rw [execRdstat_mapped mapped]
    exact completes_ite (completes_refuse _ s) (completes_checked _ s _ _)

theorem exec_completes (i : Instr) (s : State) : Completes (exec i s) := by
  cases i with
  | init => exact completes_checked _ s _ _
  | poll txOn bytes => exact completes_checked _ s _ _
  | txs => exact completes_checked _ s _ _
  | rxb count x => exact execRxb_completes count x s
  | abort => exact completes_checked _ s _ _
  | wcfgWpm v => exact completes_checked _ s _ _
  | wcfgPitch v => exact completes_accept _ _
  | wcfgCwDelay v => exact completes_accept _ _
  | wcfgMode v => exact execWcfgMode_completes v s
  | rdstat index => exact execRdstat_completes index s

/-- A step that finds no whole command on the port takes the host's actions and is otherwise idle (R376). -/
theorem step_incomplete (h : decode (portWords (hostActions s.input s).input) = .incomplete) :
    step s = .next (hostActions s.input s) := by
  simp [step, fetch, h]

theorem step_completes (s : State) : Completes (step s) := by
  cases found : decode (portWords (hostActions s.input s).input) with
  | incomplete => exact ⟨_, step_incomplete found⟩
  | illegal why n => exact step_illegal found ▸ completes_refuse _ _
  | command i n => exact step_command found ▸ exec_completes i _

/-! ### One result per command: R361 -/

/-- No command's effect touches the result port; only its answer does (30_encoding.md R102). -/
theorem accepted_results (h : Accepted C s i v u) : u.results = s.results := by
  cases h with
  | poll _ txOn bytes =>
    obtain ⟨es, frame⟩ := pttDecide_frame txOn (pollLatch C bytes s)
    rw [frame]
    rfl
  | _ => rfl

/-! ### The writers of each group of registers: R380 -/

theorem accepted_dec (h : Accepted C s i v u) (notRxb : ∀ count x, i ≠ .rxb count x) (notInit : i ≠ .init) :
    u.dec = s.dec := by
  cases h with
  | init => exact absurd rfl notInit
  | rxb _ count x => exact absurd rfl (notRxb count x)
  | poll _ txOn bytes =>
    obtain ⟨es, frame⟩ := pttDecide_frame txOn (pollLatch C bytes s)
    rw [frame]
    rfl
  | _ => rfl

/-- POLL writes `PERIOD` and nothing else of the keyer (46_control.md R322). -/
theorem accepted_osc_keyer (h : Accepted C s i v u) (notTxs : i ≠ .txs) (notInit : i ≠ .init) :
    u.osc = s.osc ∧ u.keyer = { s.keyer with period := u.keyer.period } := by
  cases h with
  | init => exact absurd rfl notInit
  | txs => exact absurd rfl notTxs
  | poll _ txOn bytes =>
    obtain ⟨es, frame⟩ := pttDecide_frame txOn (pollLatch C bytes s)
    rw [frame, pollLatch_eq]
    exact ⟨rfl, rfl⟩
  | _ => exact ⟨rfl, rfl⟩

theorem symbolNow_period (C : Config) (key : Key) (mode : Mode) (k : Keyer) (txq : List Byte) :
    (symbolNow C key mode k txq).keyer.period = k.period :=
  (congrArg Keyer.period (symbolNow_cases C key mode k txq).1).trans rfl

/-- KEYER reads `PERIOD` and does not write it (44_tx_keyer.md R240, R248). -/
theorem keyerStep_period (C : Config) (key : Key) (mode : Mode) (idle : Bool) (k : Keyer) (txq : List Byte) :
    (keyerStep C key mode idle k txq).keyer.period = k.period := by
  obtain ⟨_, _, _, handled, _⟩ := modeHandler_frame mode key idle (symbolNow C key mode k txq).fromKey
    (symbolNow C key mode k txq).sym (symbolNow C key mode k txq).keyer
  exact handled.trans (symbolNow_period C key mode k txq)

theorem txState_period (C : Config) (s : State) : (txState C s).keyer.period = s.keyer.period := by
  rw [txState_keyer, advanceKeyer_frame]
  rcases keyerPart_cases C s with skipped | invoked
  · rw [skipped]
  · rw [invoked]
    exact keyerStep_period C _ _ _ _ _

theorem accepted_period_sh (h : Accepted C s i v u) (notPoll : ∀ txOn bytes, i ≠ .poll txOn bytes)
    (notInit : i ≠ .init) : u.keyer.period = s.keyer.period ∧ u.sh = s.sh := by
  cases h with
  | init => exact absurd rfl notInit
  | poll _ txOn bytes => exact absurd rfl (notPoll txOn bytes)
  | txs => exact ⟨txState_period C s, rfl⟩
  | _ => exact ⟨rfl, rfl⟩

/-! ### The host's actions before a command: R373 -/

/-- Actions that are no words are taken in order, and what follows them is reached. -/
theorem hostActions_append (acts rest : List HostItem) (noWord : ∀ a ∈ acts, ∀ w, a ≠ HostItem.word w) :
    ∀ s : State, hostActions (acts ++ rest) s =
      hostActions rest (acts.foldl (fun t a => hostAction a t) s) := by
  induction acts with
  | nil => intro s; rfl
  | cons a acts ih =>
    intro s
    obtain ⟨first, others⟩ := List.forall_mem_cons.mp noWord
    rw [List.cons_append, hostActions_cons a (acts ++ rest) s first, ih others, List.foldl_cons]

/-- A command's words end the host's actions: there is at least one (30_encoding.md R101). -/
theorem hostActions_issue (wf : i.wf = true) (rest : List HostItem) (s : State) :
    hostActions (issue i ++ rest) s = { s with input := issue i ++ rest } := by
  obtain ⟨w, payload, encoded, -, -⟩ := encodeLength i wf
  rw [issue, encoded]
  rfl

end Sys2Proof.Machine

namespace Sys2Proof.Proofs

open Sys2Proof.Machine

/-- Settles O8: the actions are folded over the state, and the port then begins with the command's words, which
decode to the command and are dropped. -/
theorem hostActionsAreSeenByTheNextCommand : Obligations.HostActionsAreSeenByTheNextCommand := by
  refine ⟨?_, fun _ _ _ _ _ => ⟨rfl, rfl, rfl, rfl, rfl⟩⟩
  intro acts i rest s noWord wf input
  have taken : hostActions s.input s =
      { acts.foldl (fun t a => hostAction a t) s with input := issue i ++ rest } := by
    rw [input, hostActions_append acts _ noWord, hostActions_issue wf]
  have found : decode (portWords (hostActions s.input s).input) = .command i (encode i).length := by
    rw [taken, issue, portWords_append]
    exact decodeEncodeRoundTrip i _ wf
  rw [step_command found, taken, consume, issue, drop_words]

/-- Settles O12: a command is refused with a result only, or accepted with an OK after an effect that leaves
the result port alone. -/
theorem refusedCommandChangesNothing : Obligations.RefusedCommandChangesNothing := by
  intro i s t h
  obtain ⟨st, _, rfl⟩ | ⟨v, u, accepted, rfl⟩ := exec_answers h
  · exact ⟨st, 0, rfl, fun _ => ⟨rfl, rfl⟩⟩
  · exact ⟨.ok, v, by rw [respond_results, accepted_results accepted], fun notOk => absurd rfl notOk⟩

/-- Settles O54: the answer is no register, and each accepted command writes only what it owns. -/
theorem noTransitionResetsAnything : Obligations.NoTransitionResetsAnything := by
  intro i s t h
  obtain ⟨st, _, rfl⟩ | ⟨v, u, accepted, rfl⟩ := exec_answers h
  · exact ⟨fun _ _ => rfl, fun _ _ => ⟨rfl, rfl⟩, fun _ _ => ⟨rfl, rfl⟩⟩
  · have dec := accepted_dec accepted
    have oscKeyer := accepted_osc_keyer accepted
    have periodSh := accepted_period_sh accepted
    exact ⟨dec, oscKeyer, periodSh⟩

/-- Settles O10: an empty port holds no command, and no host action is pending. -/
theorem idleBlockHoldsItsState : Obligations.IdleBlockHoldsItsState := by
  intro s empty
  have taken : hostActions s.input s = s := by
    rw [empty, hostActions_nil, ← empty]
  have found : decode (portWords (hostActions s.input s).input) = .incomplete := by
    rw [taken, empty]
    rfl
  rw [step_incomplete found, taken]

/-- Settles O11: each check ends in a refusal or goes on, and both are next states. -/
theorem nothingEverStopsTheMachine : Obligations.NothingEverStopsTheMachine :=
  ⟨exec_completes, step_completes⟩

end Sys2Proof.Proofs
end

section
/-! PROOFS. What one tick outputs (70_reset_and_hazards.md R402): at most a letter, then at most a word-space. -/

namespace Sys2Proof.Machine

open Sys2Proof.Safety

/-! ### The two outputs and their order -/

/-- What EMIT_WS may output (43_rx_segment_match.md R214). -/
def AtMostSpace (es : List Event) : Prop := es = [] ∨ es = [wordSpace]

/-- What MATCH may output (R222). -/
def AtMostLetter (es : List Event) : Prop := es = [] ∨ ∃ text, text ≠ [] ∧ es = [.con .rx text]

/-- A letter or none, then a word-space or none. -/
def LetterThenSpace (es : List Event) : Prop :=
  ∃ letter space, es = letter ++ space ∧ AtMostSpace space ∧ AtMostLetter letter

theorem AtMostSpace.letterThenSpace {es : List Event} (space : AtMostSpace es) : LetterThenSpace es :=
  ⟨[], es, rfl, space, .inl rfl⟩

theorem LetterThenSpace.silent : LetterThenSpace [] := AtMostSpace.letterThenSpace (.inl rfl)

/-! ### The segmenter: R210, R214, R215, R222 -/

theorem emitWordSpace_atMostSpace (d : Decoder) : AtMostSpace (emitWordSpace d).2 := by
  rcases emitWordSpace_cases d with ⟨_, h⟩ | ⟨_, h⟩ <;> rw [h]
  · exact .inl rfl
  · exact .inr rfl

theorem matchLetter_atMostLetter (C : Config) (d : Decoder) : AtMostLetter (matchLetter C d).2 := by
  rcases matchLetter_cases C d with h | ⟨text, nonempty, h⟩ <;> rw [h]
  · exact .inl rfl
  · exact .inr ⟨text, nonempty, rfl⟩

theorem segmentSilence_atMostSpace (d : Decoder) : AtMostSpace (segmentSilence d).2 := by
  unfold segmentSilence
  split
  · exact emitWordSpace_atMostSpace d
  · exact .inl rfl

/-- The matcher speaks before the word-space test of the same tick (R215). -/
theorem closeLetter_letterThenSpace (C : Config) (m : BitVec 64) (d : Decoder) :
    LetterThenSpace (closeLetter C m d).2 := by
  have letter := matchLetter_atMostLetter C (pushSymbol C ⟨false, m, d.ticks⟩ d)
  unfold closeLetter
  dsimp only
  split
  · exact ⟨_, _, rfl, emitWordSpace_atMostSpace _, letter⟩
  · exact ⟨_, _, rfl, .inl rfl, letter⟩

/-- Of the segmenter's transitions only the two of a space output anything. -/
theorem segment_letterThenSpace (C : Config) (m : BitVec 64) (d : Decoder) :
    LetterThenSpace (segment C m d).2 := by
  rcases segment_cases C m d with
    ⟨_, edge⟩ | ⟨_, _, mark⟩ | ⟨_, _, _, _, close⟩ | ⟨_, _, _, _, wait⟩ | ⟨_, _, _, silence⟩
  · rw [edge]; exact .silent
  · rw [mark]; exact .silent
  · rw [close]; exact closeLetter_letterThenSpace C m _
  · rw [wait]; exact .silent
  · rw [silence]; exact (segmentSilence_atMostSpace _).letterThenSpace

/-- The steps of a tick before the segmenter output nothing (41_rx_detector.md R162). -/
theorem tickWith_letterThenSpace (C : Config) (b : BitVec 3) (m : BitVec 64) (d : Decoder) :
    LetterThenSpace (tickWith C b m d).2 :=
  segment_letterThenSpace C m _

end Sys2Proof.Machine

namespace Sys2Proof.Proofs

open Sys2Proof.Machine

/-- Settles O38: a tick is the steps for its winning bin, and only their segmenter speaks. -/
theorem tickEmitsALetterThenAWordSpace : Obligations.TickEmitsALetterThenAWordSpace :=
  fun samples d =>
    let won := selectBin theConfig d.bins samples
    tickWith_letterThenSpace theConfig won.1 won.2 d

end Sys2Proof.Proofs
end

section
/-! PROOFS. RXB and TXS are independent (70_reset_and_hazards.md R398): what each of them reads and writes, and
that neither reads what the other writes. -/

namespace Sys2Proof.Machine

/-! ### What each command reads and writes -/

/-- RXB reads `INITED`, the shadow registers and the decoder; it writes the decoder and appends to `EVENTS` and
the result port. -/
theorem execRxb_reads (count : BitVec 16) (x : List Word) (s : State) : ∃ st dec es, ∀ t : State,
    t.inited = s.inited → t.sh = s.sh → t.dec = s.dec →
      execRxb count x t = .next
        { t with dec := dec, events := t.events ++ es, results := t.results ++ [⟨st, 0⟩] } := by
  cases inited : s.inited with
  | false =>
    refine ⟨.errNotInit, s.dec, [], fun t hi _ hd => ?_⟩
    rw [execRxb_not_inited hi, List.append_nil, ← hd]
    rfl
  | true =>
    by_cases part : count.toNat % theConfig.tickSamples ≠ 0
    · refine ⟨.errBlocksize, s.dec, [], fun t hi _ hd => ?_⟩
      rw [execRxb_inited hi, if_pos part, List.append_nil, ← hd]
      rfl
    · refine ⟨.ok, (receive theConfig s.sh count x s.dec).1, (receive theConfig s.sh count x s.dec).2,
        fun t hi hs hd => ?_⟩
      rw [execRxb_inited hi, if_neg part, hs, hd]
      rfl

/-- TXS reads neither the decoder nor the two logs: it leaves the decoder, appends to the logs, and gives every
other register the value in `u`. `INITED` and the shadow registers stay. -/
theorem execTxs_reads (s : State) : ∃ st v es, ∃ u : State, u.inited = s.inited ∧ u.sh = s.sh ∧
    ∀ dec events results,
      execTxs { s with dec := dec, events := events, results := results } = .next
        { u with dec := dec, events := events ++ es, results := results ++ [⟨st, v⟩] } := by
  rcases Bool.eq_false_or_eq_true s.inited with inited | inited
  · exact ⟨.ok, txValue theConfig s, (keyerPart theConfig s).events, txState theConfig s, rfl, rfl,
      fun dec events results =>
        execTxs_inited (s := { s with dec := dec, events := events, results := results }) inited⟩
  · refine ⟨.errNotInit, 0, [], s, rfl, rfl, fun dec events results => ?_⟩
    rw [List.append_nil]
    exact execTxs_not_inited (s := { s with dec := dec, events := events, results := results }) inited

end Sys2Proof.Machine

namespace Sys2Proof.Proofs

open Sys2Proof.Machine

/-- Settles O52: RXB writes nothing that TXS reads, and TXS leaves what RXB reads, so each has the same effect
before and after the other. -/
theorem rxbAndTxsCommute : Obligations.RxbAndTxsCommute := by
  intro count x s
  obtain ⟨_, dec, er, rxb⟩ := execRxb_reads count x s
  obtain ⟨_, _, et, u, inited, sh, txs⟩ := execTxs_reads s
  exact ⟨_, _, _, _, rxb s rfl rfl rfl, txs dec _ _, txs s.dec s.events s.results, rxb _ inited sh rfl, rfl,
    er, et, rfl, rfl⟩

end Sys2Proof.Proofs
end
